-- ==== Sys2Proof/Word.lean ====
section
/-! DEFINITION. The 16-bit word of the core and the readings of `00_scope.md` R12: `sval`, `uval`,
`wrap16`, and the register write `set` of `10_state.md` R40. -/

namespace Sys2Proof

/-- A 16-bit register or memory word: a bit pattern (`00_scope.md` R12). -/
abbrev Word := BitVec 16

/-- One of the two byte cells a word of memory is stored in (log 1). -/
abbrev Byte := BitVec 8

/-- Two's-complement value of a pattern, −32768…32767 (`00_scope.md` R12). -/
abbrev sval (w : Word) : Int := w.toInt

/-- Unsigned value of a pattern, 0…65535 (`00_scope.md` R12). -/
abbrev uval (w : Word) : Nat := w.toNat

/-- The unique 16-bit pattern congruent to `v` modulo 2^16 (`00_scope.md` R12). -/
abbrev wrap16 (v : Int) : Word := BitVec.ofInt 16 v

/-- `set(x)` of a register of any width: the low bits of the two's-complement form of x, no error
raised (`10_state.md` R40). -/
abbrev registerSet (width : Nat) (v : Int) : BitVec width := BitVec.ofInt width v

end Sys2Proof
end

