-- ==== Sys2Proof/Syntax.lean ====
section
/-! DEFINITION. The instructions: one constructor for each of the 37 rows of `opcode_table.json`
(`30_encoding.md` R171), with exactly the operand fields the table gives the row. Bits a format
ignores are no operands (`30_encoding.md` R175; log 11). -/

namespace Sys2Proof

/-- The closed catalogue (`30_encoding.md` R171). Register selectors are the raw 2-bit fields, so a
word with an illegal selector is an instruction that its decode step rejects (R174, R202). -/
inductive Instr where
  /-- HLT (R570) -/
  | hlt
  /-- LDR r,x,address[,I] (R300) -/
  | ldr (r ix : BitVec 2) (i : Bool) (addr : BitVec 5)
  /-- STR r,x,address[,I] (R302) -/
  | str (r ix : BitVec 2) (i : Bool) (addr : BitVec 5)
  /-- LDA r,x,address[,I] (R304) -/
  | lda (r ix : BitVec 2) (i : Bool) (addr : BitVec 5)
  /-- AMR r,x,address[,I] (R340) -/
  | amr (r ix : BitVec 2) (i : Bool) (addr : BitVec 5)
  /-- SMR r,x,address[,I] (R342) -/
  | smr (r ix : BitVec 2) (i : Bool) (addr : BitVec 5)
  /-- AIR r,immed (R344) -/
  | air (r : BitVec 2) (immed : BitVec 5)
  /-- SIR r,immed (R346) -/
  | sir (r : BitVec 2) (immed : BitVec 5)
  /-- JZ r,x,address[,I] (R371) -/
  | jz (r ix : BitVec 2) (i : Bool) (addr : BitVec 5)
  /-- JNE r,x,address[,I] (R372) -/
  | jne (r ix : BitVec 2) (i : Bool) (addr : BitVec 5)
  /-- JCC cc,x,address[,I] (R374) -/
  | jcc (cc ix : BitVec 2) (i : Bool) (addr : BitVec 5)
  /-- JMA x,address[,I] (R376) -/
  | jma (ix : BitVec 2) (i : Bool) (addr : BitVec 5)
  /-- JSR x,address[,I] (R378) -/
  | jsr (ix : BitVec 2) (i : Bool) (addr : BitVec 5)
  /-- RFS immed (R380) -/
  | rfs (immed : BitVec 5)
  /-- SOB r,x,address[,I] (R382) -/
  | sob (r ix : BitVec 2) (i : Bool) (addr : BitVec 5)
  /-- JGE r,x,address[,I] (R384) -/
  | jge (r ix : BitVec 2) (i : Bool) (addr : BitVec 5)
  /-- MLT rx,ry (R410) -/
  | mlt (rx ry : BitVec 2)
  /-- DVD rx,ry (R412) -/
  | dvd (rx ry : BitVec 2)
  /-- TRR rx,ry (R414) -/
  | trr (rx ry : BitVec 2)
  /-- AND rx,ry (R416) -/
  | andr (rx ry : BitVec 2)
  /-- ORR rx,ry (R418) -/
  | orr (rx ry : BitVec 2)
  /-- NOT rx (R420) -/
  | notr (rx : BitVec 2)
  /-- TRAP code (R574) -/
  | trap (code : BitVec 5)
  /-- SRC r,count,L/R,A/L (R450). `al` is IR[7] and `lr` is IR[6] as the table names them;
  SHIFT_FLAG_SWAP exchanges them in the meaning (R167). -/
  | src (r : BitVec 2) (al lr : Bool) (count : BitVec 4)
  /-- RRC r,count,L/R,A/L (R452), fields as SRC. -/
  | rrc (r : BitVec 2) (al lr : Bool) (count : BitVec 4)
  /-- FADD fr,x,address[,I] (R486) -/
  | fadd (fr ix : BitVec 2) (i : Bool) (addr : BitVec 5)
  /-- FSUB fr,x,address[,I] (R488) -/
  | fsub (fr ix : BitVec 2) (i : Bool) (addr : BitVec 5)
  /-- VADD fr,x,address[,I] (R492) -/
  | vadd (fr ix : BitVec 2) (i : Bool) (addr : BitVec 5)
  /-- VSUB fr,x,address[,I] (R494) -/
  | vsub (fr ix : BitVec 2) (i : Bool) (addr : BitVec 5)
  /-- CNVRT r,x,address[,I] (R496) -/
  | cnvrt (r ix : BitVec 2) (i : Bool) (addr : BitVec 5)
  /-- LDX x,address[,I] (R306) -/
  | ldx (x : BitVec 2) (i : Bool) (addr : BitVec 5)
  /-- STX x,address[,I] (R309) -/
  | stx (x : BitVec 2) (i : Bool) (addr : BitVec 5)
  /-- LDFR fr,x,address[,I] (R482) -/
  | ldfr (fr ix : BitVec 2) (i : Bool) (addr : BitVec 5)
  /-- STFR fr,x,address[,I] (R484) -/
  | stfr (fr ix : BitVec 2) (i : Bool) (addr : BitVec 5)
  /-- IN r,devid (R541) -/
  | inp (r : BitVec 2) (devid : BitVec 5)
  /-- OUT r,devid (R543) -/
  | out (r : BitVec 2) (devid : BitVec 5)
  /-- CHK r,devid (R546) -/
  | chk (r : BitVec 2) (devid : BitVec 5)
  deriving DecidableEq, Repr

/-- The mnemonics of the catalogue (`30_encoding.md` R171), in its order. -/
inductive Mnemonic where
  | hlt | ldr | str | lda | amr | smr | air | sir
  | jz | jne | jcc | jma | jsr | rfs | sob | jge
  | mlt | dvd | trr | andr | orr | notr | trap | src
  | rrc | fadd | fsub | vadd | vsub | cnvrt | ldx | stx
  | ldfr | stfr | inp | out | chk
  deriving DecidableEq, Repr

/-- Every mnemonic, in the order of the catalogue (`30_encoding.md` R171). -/
def Mnemonic.all : List Mnemonic :=
  [.hlt, .ldr, .str, .lda, .amr, .smr, .air, .sir, .jz, .jne,
    .jcc, .jma, .jsr, .rfs, .sob, .jge, .mlt, .dvd, .trr, .andr,
    .orr, .notr, .trap, .src, .rrc, .fadd, .fsub, .vadd, .vsub, .cnvrt,
    .ldx, .stx, .ldfr, .stfr, .inp, .out, .chk]

/-- The catalogue row an instruction is of. -/
def Instr.mnemonic (i : Instr) : Mnemonic :=
  match i with
  | .hlt => .hlt
  | .ldr _ _ _ _ => .ldr
  | .str _ _ _ _ => .str
  | .lda _ _ _ _ => .lda
  | .amr _ _ _ _ => .amr
  | .smr _ _ _ _ => .smr
  | .air _ _ => .air
  | .sir _ _ => .sir
  | .jz _ _ _ _ => .jz
  | .jne _ _ _ _ => .jne
  | .jcc _ _ _ _ => .jcc
  | .jma _ _ _ => .jma
  | .jsr _ _ _ => .jsr
  | .rfs _ => .rfs
  | .sob _ _ _ _ => .sob
  | .jge _ _ _ _ => .jge
  | .mlt _ _ => .mlt
  | .dvd _ _ => .dvd
  | .trr _ _ => .trr
  | .andr _ _ => .andr
  | .orr _ _ => .orr
  | .notr _ => .notr
  | .trap _ => .trap
  | .src _ _ _ _ => .src
  | .rrc _ _ _ _ => .rrc
  | .fadd _ _ _ _ => .fadd
  | .fsub _ _ _ _ => .fsub
  | .vadd _ _ _ _ => .vadd
  | .vsub _ _ _ _ => .vsub
  | .cnvrt _ _ _ _ => .cnvrt
  | .ldx _ _ _ => .ldx
  | .stx _ _ _ => .stx
  | .ldfr _ _ _ _ => .ldfr
  | .stfr _ _ _ _ => .stfr
  | .inp _ _ => .inp
  | .out _ _ => .out
  | .chk _ _ => .chk

end Sys2Proof
end

