-- ==== Sys2Proof/WellFormed.lean ====
section
/-! DEFINITION. The operand checks that depend on the word alone (`30_encoding.md` R174): an
instruction that fails one raises ILLEGAL_OPERATION_CODE in its decode step. -/

namespace Sys2Proof

/-- MLT and DVD: a register selector is 0 or 2 (`30_encoding.md` R174). -/
def pairSelectorOk (r : BitVec 2) : Bool := r == 0 || r == 2

/-- LDX and STX: a nonzero index selector (`30_encoding.md` R174). -/
def indexSelectorOk (x : BitVec 2) : Bool := x != 0

/-- Floating formats: fr is 0 or 1 (`30_encoding.md` R174). -/
def floatSelectorOk (fr : BitVec 2) : Bool := fr == 0 || fr == 1

/-- The instruction passes every operand check that DECODE makes (`30_encoding.md` R174). -/
def Instr.wellFormed (i : Instr) : Bool :=
  match i with
  | .hlt => true
  | .ldr _ _ _ _ => true
  | .str _ _ _ _ => true
  | .lda _ _ _ _ => true
  | .amr _ _ _ _ => true
  | .smr _ _ _ _ => true
  | .air _ _ => true
  | .sir _ _ => true
  | .jz _ _ _ _ => true
  | .jne _ _ _ _ => true
  | .jcc _ _ _ _ => true
  | .jma _ _ _ => true
  | .jsr _ _ _ => true
  | .rfs _ => true
  | .sob _ _ _ _ => true
  | .jge _ _ _ _ => true
  | .mlt rx ry => pairSelectorOk rx && pairSelectorOk ry
  | .dvd rx ry => pairSelectorOk rx && pairSelectorOk ry
  | .trr _ _ => true
  | .andr _ _ => true
  | .orr _ _ => true
  | .notr _ => true
  | .trap _ => true
  | .src _ _ _ _ => true
  | .rrc _ _ _ _ => true
  | .fadd fr _ _ _ => floatSelectorOk fr
  | .fsub fr _ _ _ => floatSelectorOk fr
  | .vadd fr _ _ _ => floatSelectorOk fr
  | .vsub fr _ _ _ => floatSelectorOk fr
  | .cnvrt _ _ _ _ => true
  | .ldx x _ _ => indexSelectorOk x
  | .stx x _ _ => indexSelectorOk x
  | .ldfr fr _ _ _ => floatSelectorOk fr
  | .stfr fr _ _ _ => floatSelectorOk fr
  | .inp _ _ => true
  | .out _ _ => true
  | .chk _ _ => true

end Sys2Proof
end

