-- ==== Sys2Proof/Decode.lean ====
section
/-! DEFINITION. The decoder and the encoder of `30_encoding.md`: fields by R161–R169, opcodes by
an OPCODE_MAP (R171, D3), the word of an instruction by R170. -/

namespace Sys2Proof

/-- Opcode field `IR[15:10]` (R161). -/
def opField (w : Word) : BitVec 6 := w.extractLsb' 10 6

/-- R field `IR[9:8]`: also rx, fr, cc (R161, R162, R164, R166). -/
def rField (w : Word) : BitVec 2 := w.extractLsb' 8 2

/-- IX field `IR[7:6]`: also ry and x (R161, R163, R166). -/
def ixField (w : Word) : BitVec 2 := w.extractLsb' 6 2

/-- I field `IR[5]` (R161). -/
def iField (w : Word) : Bool := w.getLsbD 5

/-- ADDR field `IR[4:0]`: also immed, devid and trap code (R161, R165, R168, R169). -/
def addrField (w : Word) : BitVec 5 := w.extractLsb' 0 5

/-- P34 bit 8, `IR[7]`: the A/L position of format S (R167). -/
def alField (w : Word) : Bool := w.getLsbD 7

/-- P34 bit 9, `IR[6]`: the L/R position of format S (R167). -/
def lrField (w : Word) : Bool := w.getLsbD 6

/-- Shift count `IR[3:0]` (R167). -/
def countField (w : Word) : BitVec 4 := w.extractLsb' 0 4

/-- `OPCODE_MAP : Mnemonic → Fin 64` as plain data (D3; log 5). -/
structure OpcodeMap where
  (hlt ldr str lda amr smr air sir : BitVec 6)
  (jz jne jcc jma jsr rfs sob jge : BitVec 6)
  (mlt dvd trr andr orr notr trap src : BitVec 6)
  (rrc fadd fsub vadd vsub cnvrt ldx stx : BitVec 6)
  (ldfr stfr inp out chk : BitVec 6)
  deriving DecidableEq, Repr

/-- The octal opcodes of `30_encoding.md` R171, the default of OPCODE_MAP. -/
def OpcodeMap.default : OpcodeMap where
  hlt := 0o00
  ldr := 0o01
  str := 0o02
  lda := 0o03
  amr := 0o04
  smr := 0o05
  air := 0o06
  sir := 0o07
  jz := 0o10
  jne := 0o11
  jcc := 0o12
  jma := 0o13
  jsr := 0o14
  rfs := 0o15
  sob := 0o16
  jge := 0o17
  mlt := 0o20
  dvd := 0o21
  trr := 0o22
  andr := 0o23
  orr := 0o24
  notr := 0o25
  trap := 0o30
  src := 0o31
  rrc := 0o32
  fadd := 0o33
  fsub := 0o34
  vadd := 0o35
  vsub := 0o36
  cnvrt := 0o37
  ldx := 0o41
  stx := 0o42
  ldfr := 0o50
  stfr := 0o51
  inp := 0o61
  out := 0o62
  chk := 0o63

/-- The opcode of a mnemonic. -/
def OpcodeMap.code (m : OpcodeMap) (k : Mnemonic) : BitVec 6 :=
  match k with
  | .hlt => m.hlt
  | .ldr => m.ldr
  | .str => m.str
  | .lda => m.lda
  | .amr => m.amr
  | .smr => m.smr
  | .air => m.air
  | .sir => m.sir
  | .jz => m.jz
  | .jne => m.jne
  | .jcc => m.jcc
  | .jma => m.jma
  | .jsr => m.jsr
  | .rfs => m.rfs
  | .sob => m.sob
  | .jge => m.jge
  | .mlt => m.mlt
  | .dvd => m.dvd
  | .trr => m.trr
  | .andr => m.andr
  | .orr => m.orr
  | .notr => m.notr
  | .trap => m.trap
  | .src => m.src
  | .rrc => m.rrc
  | .fadd => m.fadd
  | .fsub => m.fsub
  | .vadd => m.vadd
  | .vsub => m.vsub
  | .cnvrt => m.cnvrt
  | .ldx => m.ldx
  | .stx => m.stx
  | .ldfr => m.ldfr
  | .stfr => m.stfr
  | .inp => m.inp
  | .out => m.out
  | .chk => m.chk

/-- "Resolve the Instruction by opcode" (`40_cycle.md` R201): the first mnemonic of the catalogue with the
opcode. In a map that names an opcode twice the later mnemonic has no word (log 5). -/
def OpcodeMap.find (m : OpcodeMap) (op : BitVec 6) : Option Mnemonic :=
  Mnemonic.all.find? fun k => m.code k == op

/-- No opcode is named twice. -/
abbrev OpcodeMap.Distinct (m : OpcodeMap) : Prop := (Mnemonic.all.map m.code).Nodup

/-- Why a word is no instruction. -/
inductive DecodeReject where
  /-- The opcode value is none of the OPCODE_MAP: DECODE raises ILLEGAL_OPERATION_CODE (R173). -/
  | unassignedOpcode (op : BitVec 6)
  deriving DecidableEq, Repr

/-- The instruction of a catalogue row with the fields its format reads from the word (R161–R169). -/
def Mnemonic.instr (k : Mnemonic) (w : Word) : Instr :=
  match k with
  | .hlt => .hlt
  | .ldr => .ldr (rField w) (ixField w) (iField w) (addrField w)
  | .str => .str (rField w) (ixField w) (iField w) (addrField w)
  | .lda => .lda (rField w) (ixField w) (iField w) (addrField w)
  | .amr => .amr (rField w) (ixField w) (iField w) (addrField w)
  | .smr => .smr (rField w) (ixField w) (iField w) (addrField w)
  | .air => .air (rField w) (addrField w)
  | .sir => .sir (rField w) (addrField w)
  | .jz => .jz (rField w) (ixField w) (iField w) (addrField w)
  | .jne => .jne (rField w) (ixField w) (iField w) (addrField w)
  | .jcc => .jcc (rField w) (ixField w) (iField w) (addrField w)
  | .jma => .jma (ixField w) (iField w) (addrField w)
  | .jsr => .jsr (ixField w) (iField w) (addrField w)
  | .rfs => .rfs (addrField w)
  | .sob => .sob (rField w) (ixField w) (iField w) (addrField w)
  | .jge => .jge (rField w) (ixField w) (iField w) (addrField w)
  | .mlt => .mlt (rField w) (ixField w)
  | .dvd => .dvd (rField w) (ixField w)
  | .trr => .trr (rField w) (ixField w)
  | .andr => .andr (rField w) (ixField w)
  | .orr => .orr (rField w) (ixField w)
  | .notr => .notr (rField w)
  | .trap => .trap (addrField w)
  | .src => .src (rField w) (alField w) (lrField w) (countField w)
  | .rrc => .rrc (rField w) (alField w) (lrField w) (countField w)
  | .fadd => .fadd (rField w) (ixField w) (iField w) (addrField w)
  | .fsub => .fsub (rField w) (ixField w) (iField w) (addrField w)
  | .vadd => .vadd (rField w) (ixField w) (iField w) (addrField w)
  | .vsub => .vsub (rField w) (ixField w) (iField w) (addrField w)
  | .cnvrt => .cnvrt (rField w) (ixField w) (iField w) (addrField w)
  | .ldx => .ldx (ixField w) (iField w) (addrField w)
  | .stx => .stx (ixField w) (iField w) (addrField w)
  | .ldfr => .ldfr (rField w) (ixField w) (iField w) (addrField w)
  | .stfr => .stfr (rField w) (ixField w) (iField w) (addrField w)
  | .inp => .inp (rField w) (addrField w)
  | .out => .out (rField w) (addrField w)
  | .chk => .chk (rField w) (addrField w)

/-- Resolve the instruction by opcode (R201) and read the fields of its format. Total: a word either
is an instruction of the catalogue or has an unassigned opcode (R173). Illegal field values of an
assigned opcode are judged by the instruction's decode step (R202), not here. -/
def decodeWord (m : OpcodeMap) (w : Word) : Except DecodeReject Instr :=
  match m.find (opField w) with
  | some k => .ok (k.instr w)
  | none => .error (.unassignedOpcode (opField w))

/-- The word `opcode·2^10 + R·2^8 + IX·2^6 + I·2^5 + ADDR` of formats M, X, F, I, IO and T (R170). -/
def wordM (op : BitVec 6) (r ix : BitVec 2) (i : Bool) (addr : BitVec 5) : Word :=
  op ++ r ++ ix ++ BitVec.ofBool i ++ addr

/-- The word `opcode·2^10 + r·2^8 + AL·2^7 + LR·2^6 + count` of format S (R170). -/
def wordS (op : BitVec 6) (r : BitVec 2) (al lr : Bool) (count : BitVec 4) : Word :=
  op ++ r ++ BitVec.ofBool al ++ BitVec.ofBool lr ++ (0#2) ++ count

/-- The word of an instruction (R170), fields the format ignores written as 0 (R175). -/
def encode (m : OpcodeMap) (i : Instr) : Word :=
  match i with
  | .hlt => wordM m.hlt 0 0 false 0
  | .ldr r ix i addr => wordM m.ldr r ix i addr
  | .str r ix i addr => wordM m.str r ix i addr
  | .lda r ix i addr => wordM m.lda r ix i addr
  | .amr r ix i addr => wordM m.amr r ix i addr
  | .smr r ix i addr => wordM m.smr r ix i addr
  | .air r immed => wordM m.air r 0 false immed
  | .sir r immed => wordM m.sir r 0 false immed
  | .jz r ix i addr => wordM m.jz r ix i addr
  | .jne r ix i addr => wordM m.jne r ix i addr
  | .jcc cc ix i addr => wordM m.jcc cc ix i addr
  | .jma ix i addr => wordM m.jma 0 ix i addr
  | .jsr ix i addr => wordM m.jsr 0 ix i addr
  | .rfs immed => wordM m.rfs 0 0 false immed
  | .sob r ix i addr => wordM m.sob r ix i addr
  | .jge r ix i addr => wordM m.jge r ix i addr
  | .mlt rx ry => wordM m.mlt rx ry false 0
  | .dvd rx ry => wordM m.dvd rx ry false 0
  | .trr rx ry => wordM m.trr rx ry false 0
  | .andr rx ry => wordM m.andr rx ry false 0
  | .orr rx ry => wordM m.orr rx ry false 0
  | .notr rx => wordM m.notr rx 0 false 0
  | .trap code => wordM m.trap 0 0 false code
  | .src r al lr count => wordS m.src r al lr count
  | .rrc r al lr count => wordS m.rrc r al lr count
  | .fadd fr ix i addr => wordM m.fadd fr ix i addr
  | .fsub fr ix i addr => wordM m.fsub fr ix i addr
  | .vadd fr ix i addr => wordM m.vadd fr ix i addr
  | .vsub fr ix i addr => wordM m.vsub fr ix i addr
  | .cnvrt r ix i addr => wordM m.cnvrt r ix i addr
  | .ldx x i addr => wordM m.ldx 0 x i addr
  | .stx x i addr => wordM m.stx 0 x i addr
  | .ldfr fr ix i addr => wordM m.ldfr fr ix i addr
  | .stfr fr ix i addr => wordM m.stfr fr ix i addr
  | .inp r devid => wordM m.inp r 0 false devid
  | .out r devid => wordM m.out r 0 false devid
  | .chk r devid => wordM m.chk r 0 false devid

/-- The instruction the decoder reads from an instruction whose `nbits` table bits are `w`. An
instruction is one 16-bit word (R160), so the word's bits above `nbits` are 0. The table's opcodes are the
default of OPCODE_MAP. -/
def decodeTableWord (nbits w : Nat) : Option Instr :=
  match decodeWord OpcodeMap.default (BitVec.ofNat 16 (w % 2 ^ nbits)) with
  | .ok i => some i
  | .error _ => none

end Sys2Proof
end

