-- ==== Sys2Proof/Config.lean ====
section
/-! DEFINITION. The named parameters of `00_scope.md` R10. They are plain data, carried unchanged in
the state (log 3). BOOT_ADDRESS and BOOT_LENGTH are OPEN (D8): two constants without a body (log 4).
OPCODE_MAP is a record of opcodes (log 5), PC_WIDTH and MAR_WIDTH are register shapes (log 26), FP_ENCODE
is the encoder of the spec or one of a family without a body (log 27). INIT_MEM is the memory of the
launch state (log 2). -/

namespace Sys2Proof

/-- BOOT_ADDRESS: no value is given by the spec (D8, R712). Nothing can evaluate it (log 4). -/
opaque Config.bootAddress : Nat

/-- BOOT_LENGTH: no value is given by the spec (D8, R712). Nothing can evaluate it (log 4). -/
opaque Config.bootLength : Nat

/-- `WB_POLICY` (`20_memory.md` R122, R123). -/
inductive WbPolicy where
  | flushEach
  | fifo
  deriving DecidableEq, Repr

/-- `FAULT_VECTOR_BIAS` (D10; `60_exceptions.md` R613). -/
inductive FaultVectorBias where
  | latchClear
  | always
  | never
  deriving DecidableEq, Repr

/-- `MLT_HALF`: the width of each product half, 16 or 8 (D16). -/
inductive MltHalf where
  | sixteen
  | eight
  deriving DecidableEq, Repr

/-- `FAULT_ID`: the MFR bit of each fault kind (D11). -/
structure FaultIds where
  reserved             : BitVec 2
  illegalTrapCode      : BitVec 2
  illegalOperationCode : BitVec 2
  outOfBounds          : BitVec 2
  deriving DecidableEq, Repr

/-- `FP_ENCODE`: the encoder of `41_alu.md` R281, or another function of the exact real (D28; log 27). -/
inductive FpEncoder where
  | standard
  | other (n : Nat)
  deriving DecidableEq, Repr

/-- What an encoder gives for an exact real: the FloatRegister pattern, and whether OVERFLOW and whether
UNDERFLOW is set. -/
structure FpResult where
  pattern   : Word
  overflow  : Bool
  underflow : Bool
  deriving DecidableEq, Repr, Inhabited

/-- The encoders beside that of R281. Nothing can evaluate one, so what holds for every `n` holds for every
encoder (log 27). -/
opaque Config.otherEncoder : Nat → ℚ → FpResult

/-- The width and the signedness of a `Register` (`10_state.md` R40), for PC_WIDTH and MAR_WIDTH (D2): the
shapes whose values a signed 16-bit word holds (log 26). -/
inductive RegisterShape where
  | signed (width : Fin 17)
  | unsigned (width : Fin 16)
  deriving DecidableEq, Repr

/-- The parameters of `00_scope.md` R10 that a model takes as arguments. -/
structure Params where
  bootAddress     : Nat
  bootLength      : Nat
  opcodeMap       : OpcodeMap
  shiftFlagSwap   : Bool
  /-- `AL_ARITH_VALUE`: the A/L bit that means arithmetic, `true` for 1. -/
  alArithValue    : Bool
  wbPolicy        : WbPolicy
  branchBias      : Bool
  faultVectorBias : FaultVectorBias
  faultId         : FaultIds
  mltHalf         : MltHalf
  fpEncoder       : FpEncoder
  /-- `CHK_STATUS` of KEYBOARD (0), PRINTER (1), CARD_READER (2). -/
  chkKeyboard     : Word
  chkPrinter      : Word
  chkCardReader   : Word
  pcWidth         : RegisterShape
  marWidth        : RegisterShape
  deriving DecidableEq, Repr

/-- `OFF = USER_PROGRAM_OFFSET = 2×BOOT_ADDRESS + BOOT_LENGTH` (`20_memory.md` R101). -/
def Params.off (p : Params) : Nat := 2 * p.bootAddress + p.bootLength

/-- The default of every parameter that has one (`00_scope.md` R10); the two open ones stay open. -/
def Params.default : Params where
  bootAddress     := Config.bootAddress
  bootLength      := Config.bootLength
  opcodeMap       := OpcodeMap.default
  shiftFlagSwap   := false
  alArithValue    := true
  wbPolicy        := .flushEach
  branchBias      := true
  faultVectorBias := .latchClear
  faultId         := { reserved := 0, illegalTrapCode := 1, illegalOperationCode := 2, outOfBounds := 3 }
  mltHalf         := .sixteen
  fpEncoder       := .standard
  chkKeyboard     := 1
  chkPrinter      := 1
  chkCardReader   := 0
  pcWidth         := .signed 16
  marWidth        := .signed 16

end Sys2Proof
end

