-- ==== Sys2Proof/Machine/State.lean ====
section
/-! DEFINITION. The state of the core (`10_state.md` R65, R66) as plain data, the reasons a step can
stop, and the state after reset. -/

namespace Sys2Proof.Machine

/-- The four machine faults (`60_exceptions.md` R601). A machine fault is TAKEN by fault entry
(R610): it leads to a next state and never stops the model. -/
inductive FaultKind where
  | reserved
  | outOfBounds
  | illegalOperationCode
  | illegalTrapCode
  deriving DecidableEq, Repr

/-- The memory's sticky fault latch (`10_state.md` R59). -/
inductive Latch where
  | none
  | reserved
  | outOfBounds
  deriving DecidableEq, Repr

/-- `target_location` (`10_state.md` R57). -/
inductive Target where
  | register
  | memory
  | none
  deriving DecidableEq, Repr

/-- `register_kind` (`10_state.md` R57). -/
inductive RegKind where
  | gpr
  | ixr
  | fpr
  deriving DecidableEq, Repr

/-- The index registers (`10_state.md` R44). -/
inductive IxReg where
  | x1
  | x2
  | x3
  deriving DecidableEq, Repr

/-- The floating registers (`10_state.md` R45). -/
inductive FReg where
  | fr0
  | fr1
  deriving DecidableEq, Repr

/-- The condition codes, four independent bits (`10_state.md` R48). -/
structure CC where
  overflow  : Bool
  underflow : Bool
  divzero   : Bool
  equal     : Bool
  deriving DecidableEq, Repr

/-- The cycle-scoped decode flags (`10_state.md` R57). -/
structure CycleFlags where
  target          : Target
  kind            : RegKind
  indexEnabled    : Bool
  indirectEnabled : Bool
  nextPc          : Word
  trapTaken       : Bool
  pendingFault    : Option FaultKind
  deriving DecidableEq, Repr

/-- The values the flags hold between cycles (`10_state.md` R57). -/
def CycleFlags.cleared : CycleFlags where
  target          := .none
  kind            := .gpr
  indexEnabled    := true
  indirectEnabled := true
  nextPc          := 0
  trapTaken       := false
  pendingFault    := none

/-- The flags a decode step sets: one row of the table of `40_cycle.md` R203. -/
structure DecodeRow where
  target          : Target
  kind            : RegKind
  indexEnabled    : Bool
  indirectEnabled : Bool
  deriving DecidableEq, Repr

/-- The operand fields FETCH_OPERAND reads (`40_cycle.md` R210): IX, I and ADDR. -/
structure OperandFields where
  ix       : BitVec 2
  indirect : Bool
  addr     : BitVec 5
  deriving DecidableEq, Repr

/-- What the host answers to a console input request (`48_io.md` R541). -/
inductive Answer where
  /-- an integer, in range from −32768 to 32767 -/
  | integer (v : Int)
  /-- a single character, by its code, in range from 0 to 127 -/
  | char (code : Nat)
  /-- an empty response, treated as Enter (ASCII 10) -/
  | empty
  deriving DecidableEq, Repr

/-- Memory as (address, byte) cells in canonical form: addresses strictly rising, no cell holding
what an unlisted address reads as. The word of physical address p stands in the cells 2p (bits 15:8)
and 2p+1 (bits 7:0), which no operation of the core can tell apart (log 1). -/
abbrev Memory := List Host.Cell

/-- The cache map: (physical address, word) entries with strictly rising addresses
(`10_state.md` R63). -/
abbrev CacheMap := List (Nat × Word)

/-- Everything the spec gives the core (`10_state.md` R65, R66), the parameters of `00_scope.md` R10
(log 3), and the run's dealings with the console (logs 9 and 10). -/
structure State where
  /-- R0–R3 (R42) -/
  r0 : Word
  r1 : Word
  r2 : Word
  r3 : Word
  /-- X1–X3 (R44) -/
  x1 : Word
  x2 : Word
  x3 : Word
  /-- FR0, FR1 (R45, R46) -/
  fr0 : Word
  fr1 : Word
  /-- PC, a physical address (R47) -/
  pc : Word
  /-- MAR (R51) -/
  mar : Word
  /-- MBR (R52) -/
  mbr : Word
  /-- IR (R53) -/
  ir : Word
  /-- IAR (R54) -/
  iar : Word
  /-- IRR (R55) -/
  irr : Word
  /-- RS1 (R56) -/
  rs1 : BitVec 2
  /-- MFR (R50) -/
  mfr : BitVec 4
  /-- CC (R48) -/
  cc : CC
  /-- the cycle-scoped flags (R57) -/
  cyc : CycleFlags
  /-- halted (R58) -/
  halted : Bool
  /-- memory_fault (R59) -/
  memoryFault : Latch
  /-- running_user_program (R61) -/
  runningUserProgram : Bool
  /-- Mem[0..2047] (R62) -/
  mem : Memory
  /-- the cache map (R63) -/
  cache : CacheMap
  /-- the write buffer, oldest first (R64) -/
  writeBuffer : List Nat
  /-- the mark `refused` (R66) -/
  refused : Bool
  /-- the mark `input_wait` (R66) -/
  inputWait : Option (BitVec 2)
  /-- the host's answers to console input requests that the core has not taken yet, in order (log 9) -/
  consoleInput : List Answer
  /-- the run's output sequence (`48_io.md` R545; log 10) -/
  output : List Word
  /-- the parameters, which no step changes (log 3) -/
  cfg : Params
  deriving DecidableEq, Repr

/-- Why the core makes no further step ("stuck" of `93_implementation_defined.md` part 1). A machine
fault is none of these: it is taken. -/
inductive Fault where
  /-- Raised by `step` when `halted` is set: a halted core has no step and only reset leaves that
  state (`49_system.md` R571, U29). Safe: the model stops where the core does (log 8). -/
  | halted
  /-- Raised by `step` when the core is held in `IN r,0` and the host has supplied no answer
  (`48_io.md` R545, U6). Safe: the model stops where the core waits (log 9). -/
  | awaitingInput
  deriving DecidableEq, Repr

/-- Why the model gives a step no meaning (`00_scope.md` R15, treatment "refuse"). -/
inductive Refusal where
  /-- Raised by an arm of `exec` that has no meaning yet. Safe: nothing can be proved of it. -/
  | notModelled (mnemonic : String)
  /-- Raised by IN, OUT and CHK for a device combination the spec gives no meaning
  (`48_io.md` R540, U4). Safe: no run relies on a refused step. -/
  | undefinedDevice
  /-- Raised by IN when the host's answer is outside the range of `48_io.md` R541 (U7). Safe: the
  host may not supply it. -/
  | answerOutOfRange
  /-- Raised by `step` in a state whose mark `refused` is set: the run has no meaning from there on
  (`10_state.md` R66). Safe: the run ends there. -/
  | runRefused
  deriving DecidableEq, Repr

/-- How a phase of the cycle ends (`40_cycle.md` R222): it completes with a value, or its first
faulting access or failed check stops it; the writes made before stay in the state. -/
inductive Res (α : Type) where
  | ok (v : α) (s : State)
  | fault (k : FaultKind) (s : State)

/-- The state right after reset (`70_reset_and_hazards.md` R700, R702) in the launch state of R704
with nothing loaded: every word of memory 0 (D36), every parameter at its default, the mode
supervisor (log 6). -/
def State.reset : State where
  r0 := 0
  r1 := 0
  r2 := 0
  r3 := 0
  x1 := 0
  x2 := 0
  x3 := 0
  fr0 := 0
  fr1 := 0
  pc := 0
  mar := 0
  mbr := 0
  ir := 0
  iar := 0
  irr := 0
  rs1 := 0
  mfr := 0
  cc := { overflow := false, underflow := false, divzero := false, equal := false }
  cyc := CycleFlags.cleared
  halted := false
  memoryFault := .none
  runningUserProgram := false
  mem := []
  cache := []
  writeBuffer := []
  refused := false
  inputWait := none
  consoleInput := []
  output := []
  cfg := Params.default

end Sys2Proof.Machine
end

