-- ==== Sys2Proof/Machine/Float.lean ====
section
/-! DEFINITION. The FloatRegister of `10_state.md` R46 and the codec of `41_alu.md` R280–R283,
with the encoder the parameter FP_ENCODE selects. Exact reals are integers times powers of two, which is
closed under every operation the core makes on them (log 16). -/

namespace Sys2Proof.Machine

/-- The exact real `num × 2^exp`. -/
structure ExactReal where
  num : Int
  exp : Int
  deriving DecidableEq, Repr

/-- Its value, a rational number. -/
def ExactReal.value (x : ExactReal) : ℚ := (x.num : ℚ) * (2 : ℚ) ^ x.exp

/-- An integer as an exact real. -/
def ExactReal.ofInt (v : Int) : ExactReal := { num := v, exp := 0 }

/-- `x` written with the exponent `e ≤ x.exp`: its numerator. -/
def ExactReal.numAt (x : ExactReal) (e : Int) : Int := x.num * 2 ^ (x.exp - e).toNat

/-- Exact sum. -/
def ExactReal.add (x y : ExactReal) : ExactReal :=
  let e := min x.exp y.exp
  { num := x.numAt e + y.numAt e, exp := e }

/-- Exact difference. -/
def ExactReal.sub (x y : ExactReal) : ExactReal :=
  let e := min x.exp y.exp
  { num := x.numAt e - y.numAt e, exp := e }

/-- `trunc(x)`: the real rounded toward zero (`00_scope.md` R12). -/
def ExactReal.trunc (x : ExactReal) : Int :=
  if 0 ≤ x.exp then x.num * 2 ^ x.exp.toNat else Int.tdiv x.num (2 ^ (-x.exp).toNat)

/-- Sign bit of a FloatRegister, `FR[15]` (`10_state.md` R46). -/
def fpSign (f : Word) : Bool := f.getLsbD 15

/-- Exponent of a FloatRegister, `FR[14:8]`, 7-bit two's complement −64…63 (`10_state.md` R46, D26). -/
def fpExp (f : Word) : Int := (f.extractLsb' 8 7).toInt

/-- Mantissa of a FloatRegister, `FR[7:0]`, unsigned (`10_state.md` R46). -/
def fpMant (f : Word) : Nat := (f.extractLsb' 0 8).toNat

/-- `fpvalue(F) = (−1)^sign × mant × 2^exp` (`10_state.md` R46). -/
def fpValue (f : Word) : ExactReal :=
  { num := if fpSign f then -(fpMant f : Int) else (fpMant f : Int), exp := fpExp f }

/-- The pattern with the given sign, exponent (modulo 128) and mantissa (`41_alu.md` R281). -/
def fpPack (neg : Bool) (e : Int) (m : Nat) : Word :=
  BitVec.ofBool neg ++ BitVec.ofInt 7 e ++ BitVec.ofNat 8 m

/-- `fpFromWords(hi, lo) = hi[7:0] ++ lo[7:0]` (`41_alu.md` R280). -/
def fpFromWords (hi lo : Word) : Word := hi.extractLsb' 0 8 ++ lo.extractLsb' 0 8

/-- `fpToWords(F)`: the upper 8 bits of each word are 0 (`41_alu.md` R280). -/
def fpToWords (f : Word) : Word × Word :=
  ((f.extractLsb' 8 8).setWidth 16, (f.extractLsb' 0 8).setWidth 16)

/-- `floor(log2 |x|)` of a nonzero exact real. -/
def ExactReal.log2 (x : ExactReal) : Int := (Nat.log2 x.num.natAbs : Int) + x.exp

/-- `floor(|x| / 2^e)` of an exact real. -/
def ExactReal.mantissaAt (x : ExactReal) (e : Int) : Nat :=
  if e ≤ x.exp then x.num.natAbs * 2 ^ (x.exp - e).toNat else x.num.natAbs / 2 ^ (e - x.exp).toNat

/-- `fpEncode(x)` (`41_alu.md` R281): normalise, truncate toward zero, saturate with OVERFLOW, flush
to +0 with UNDERFLOW after the denormal fallback. -/
def fpEncode (x : ExactReal) (c : CC) : Word × CC :=
  if x.num = 0 then (0, c)
  else
    let neg := decide (x.num < 0)
    let e := x.log2 - 7
    if 63 < e then (fpPack neg 63 255, { c with overflow := true })
    else
      let e' := if e < -64 then -64 else e
      let m := x.mantissaAt e'
      if m = 0 then (0, { c with underflow := true })
      else (fpPack neg e' m, c)

/-- FP_ENCODE applied to an exact real (`41_alu.md` R281, D28): the encoder the parameter selects. The
condition codes are sticky whatever the encoder (R250). -/
def encodeReal (e : FpEncoder) (x : ExactReal) (c : CC) : Word × CC :=
  match e with
  | .standard => fpEncode x c
  | .other n =>
    let r := Config.otherEncoder n x.value
    (r.pattern, { c with overflow := c.overflow || r.overflow, underflow := c.underflow || r.underflow })

/-- `fpToInt(F) = wrap16(trunc(fpvalue(F)))`, no CC bit (`41_alu.md` R283). -/
def fpToInt (f : Word) : Word := wrap16 (fpValue f).trunc

end Sys2Proof.Machine
end

