-- ==== Sys2Proof/Machine/Ops.lean ====
section
/-! DEFINITION. The named operations over registers, memory, cache and write buffer
(`10_state.md`, `20_memory.md`), taking a machine fault (`60_exceptions.md` R610), the end of a cycle
(`40_cycle.md` R216–R220), and sequencing of phases (R222). -/

namespace Sys2Proof

/-- What a register of the shape reads after `set(v)`: the low `width` bits of v, read back by the
signedness (`10_state.md` R40). -/
def RegisterShape.reduce (r : RegisterShape) (v : Int) : Int :=
  match r with
  | .signed n => Int.bmod v (2 ^ n.val)
  | .unsigned n => v % 2 ^ n.val

/-- `set(v)`: the register's new value, as the signed 16-bit word that holds it (`10_state.md` R40). -/
def RegisterShape.set (r : RegisterShape) (v : Int) : Word := wrap16 (r.reduce v)

/-- The value is "always representable in `bit_width` bits" (`10_state.md` R40). -/
def RegisterShape.Holds (r : RegisterShape) (w : Word) : Prop :=
  match r with
  | .signed n => -2 ^ n.val ≤ 2 * sval w ∧ 2 * sval w < 2 ^ n.val
  | .unsigned n => 0 ≤ sval w ∧ sval w < 2 ^ n.val

end Sys2Proof

namespace Sys2Proof.Machine

/-! ## Sequencing -/

/-- The next line of a phase, or the next phase, runs only if no fault stopped the one before
(`40_cycle.md` R222). -/
def Res.andThen {α β : Type} (r : Res α) (f : α → State → Res β) : Res β :=
  match r with
  | .ok v s => f v s
  | .fault k s => .fault k s

/-- The state a phase leaves. -/
def Res.state {α : Type} (r : Res α) : State :=
  match r with
  | .ok _ s => s
  | .fault _ s => s

/-- The value a read returns: 0 when it faulted (`20_memory.md` R104). No phase sees that 0, because
the fault stops it (R222). -/
def Res.value (r : Res Word) : Word :=
  match r with
  | .ok v _ => v
  | .fault _ _ => 0

/-! ## Registers -/

/-- R[r] (`10_state.md` R42). -/
def State.gpr (s : State) (r : BitVec 2) : Word :=
  if r = 0 then s.r0 else if r = 1 then s.r1 else if r = 2 then s.r2 else s.r3

/-- R[r] <- v; no general register is hardwired (`10_state.md` R42). -/
def State.setGpr (s : State) (r : BitVec 2) (v : Word) : State :=
  { s with
    r0 := if r = 0 then v else s.r0
    r1 := if r = 1 then v else s.r1
    r2 := if r = 2 then v else s.r2
    r3 := if r = 3 then v else s.r3 }

/-- What PC holds after `PC <- a`: the value reduced to PC_WIDTH (`10_state.md` R40, R47, D2). -/
def State.pcOf (s : State) (a : Word) : Word := s.cfg.pcWidth.set (sval a)

/-- What MAR holds after `MAR <- a`: the value reduced to MAR_WIDTH (`10_state.md` R40, R51, D2). -/
def State.marOf (s : State) (a : Word) : Word := s.cfg.marWidth.set (sval a)

/-- The index register an IX field selects; 0 selects none (`10_state.md` R44). -/
def ixReg (x : BitVec 2) : Option IxReg :=
  if x = 1 then some .x1 else if x = 2 then some .x2 else if x = 3 then some .x3 else none

/-- X[x] (`10_state.md` R44). -/
def State.xr (s : State) (x : IxReg) : Word :=
  match x with
  | .x1 => s.x1
  | .x2 => s.x2
  | .x3 => s.x3

/-- X[x] <- v (`10_state.md` R44). -/
def State.setXr (s : State) (x : IxReg) (v : Word) : State :=
  { s with
    x1 := if x = .x1 then v else s.x1
    x2 := if x = .x2 then v else s.x2
    x3 := if x = .x3 then v else s.x3 }

/-- The floating register a fr field selects; 2 and 3 select none (`10_state.md` R45). -/
def fReg (fr : BitVec 2) : Option FReg :=
  if fr = 0 then some .fr0 else if fr = 1 then some .fr1 else none

/-- FR[f] (`10_state.md` R45). -/
def State.fr (s : State) (f : FReg) : Word :=
  match f with
  | .fr0 => s.fr0
  | .fr1 => s.fr1

/-- FR[f] <- v (`10_state.md` R45). -/
def State.setFr (s : State) (f : FReg) (v : Word) : State :=
  { s with
    fr0 := if f = .fr0 then v else s.fr0
    fr1 := if f = .fr1 then v else s.fr1 }

/-- CC[k] by index: OVERFLOW 0, UNDERFLOW 1, DIVZERO 2, EQUAL 3 (`10_state.md` R48). -/
def CC.get (c : CC) (k : BitVec 2) : Bool :=
  if k = 0 then c.overflow else if k = 1 then c.underflow else if k = 2 then c.divzero else c.equal

/-! ## The memory array -/

/-- One byte cell. An unlisted cell reads 0: the power-on content (`10_state.md` R62, D36; log 2). -/
def readByte (m : Memory) (a : Nat) : Byte :=
  match m with
  | [] => 0
  | c :: rest => if c.1 = a then c.2 else readByte rest a

/-- The cells of every address but `a`. -/
def eraseCell (m : Memory) (a : Nat) : Memory := m.filter (fun c => c.1 != a)

/-- Put a cell in front of the first cell with a higher address. -/
def insertCell (a : Nat) (v : Byte) (m : Memory) : Memory :=
  match m with
  | [] => [(a, v)]
  | c :: rest => if a < c.1 then (a, v) :: c :: rest else c :: insertCell a v rest

/-- Write one byte cell, keeping the canonical form: a 0 is not listed. -/
def writeByte (m : Memory) (a : Nat) (v : Byte) : Memory :=
  if v = 0 then eraseCell m a else insertCell a v (eraseCell m a)

/-- Mem[p] (`20_memory.md` R100): bits 15:8 in cell 2p, bits 7:0 in cell 2p+1 (log 1). -/
def readWord (m : Memory) (p : Nat) : Word := readByte m (2 * p) ++ readByte m (2 * p + 1)

/-- Mem[p] <- w (`20_memory.md` R106). -/
def writeWord (m : Memory) (p : Nat) (w : Word) : Memory :=
  writeByte (writeByte m (2 * p) (w.extractLsb' 8 8)) (2 * p + 1) (w.extractLsb' 0 8)

/-- Cell addresses rise strictly. -/
def risingCells (m : Memory) : Bool :=
  match m with
  | [] => true
  | c :: rest => rest.all (fun d => c.1 < d.1) && risingCells rest

/-- The canonical form of memory: addresses strictly rising and inside the 2048 words, no cell
holding the 0 an unlisted address reads as. -/
def Memory.wf (m : Memory) : Bool :=
  risingCells m && m.all (fun c => decide (c.1 < 4096) && c.2 != 0)

/-! ## The cache map -/

/-- The entry of a physical address, if there is one (`20_memory.md` R120). -/
def cacheLookup (c : CacheMap) (p : Nat) : Option Word :=
  match c with
  | [] => none
  | e :: rest => if e.1 = p then some e.2 else cacheLookup rest p

/-- Put an entry in front of the first one with a higher address. -/
def cacheInsert (p : Nat) (w : Word) (c : CacheMap) : CacheMap :=
  match c with
  | [] => [(p, w)]
  | e :: rest => if p < e.1 then (p, w) :: e :: rest else e :: cacheInsert p w rest

/-- Cache[p] <- w: one entry for each address, never evicted (`10_state.md` R63). -/
def cacheSet (c : CacheMap) (p : Nat) (w : Word) : CacheMap :=
  cacheInsert p w (c.filter (fun e => e.1 != p))

/-- Cache entries rise strictly. -/
def risingEntries (c : CacheMap) : Bool :=
  match c with
  | [] => true
  | e :: rest => rest.all (fun d => e.1 < d.1) && risingEntries rest

/-- The form of the cache map: addresses strictly rising and inside memory. -/
def CacheMap.wf (c : CacheMap) : Bool := risingEntries c && c.all (fun e => decide (e.1 < 2048))

/-- CacheGet(p) (`20_memory.md` R120): only in-bounds addresses have entries (D51). -/
def State.cacheGet (s : State) (p : Int) : Option Word :=
  if p < 0 then none else cacheLookup s.cache p.toNat

/-! ## Memory primitives -/

/-- OFF (`20_memory.md` R101). -/
def State.off (s : State) : Nat := s.cfg.off

/-- BIAS: OFF in user mode, else 0 (`20_memory.md` R101). -/
def State.bias (s : State) : Int := if s.runningUserProgram then (s.off : Int) else 0

/-- The physical address of a biased access to logical address `a` (`20_memory.md` R101). -/
def State.phys (s : State) (a : Word) : Int := sval a + s.bias

/-- The bounds check on a physical address (`20_memory.md` R102). -/
def boundsCheck (p : Int) : Except FaultKind Nat :=
  if p < 0 then .error .reserved else if 2048 ≤ p then .error .outOfBounds else .ok p.toNat

/-- What the latch holds after a fault: only the two address faults are recorded there
(`90_conflicts.md` C7). -/
def latchOf (k : FaultKind) (before : Latch) : Latch :=
  match k with
  | .reserved => .reserved
  | .outOfBounds => .outOfBounds
  | .illegalOperationCode => before
  | .illegalTrapCode => before

/-- `memfault(kind)`: the latch and the cycle's pending fault (`20_memory.md` R104). -/
def State.memfault (s : State) (k : FaultKind) : State :=
  { s with memoryFault := latchOf k s.memoryFault, cyc := { s.cyc with pendingFault := some k } }

/-- `raise F` for a check that is no memory access (`00_scope.md` R15). -/
def raiseFault {α : Type} (k : FaultKind) (s : State) : Res α :=
  .fault k { s with cyc := { s.cyc with pendingFault := some k } }

/-- Load of a physical address (`20_memory.md` R103). -/
def loadWord (p : Int) (s : State) : Res Word :=
  match boundsCheck p with
  | .ok q => .ok (readWord s.mem q) s
  | .error k => .fault k (s.memfault k)

/-- Store to a physical address (`20_memory.md` R103). -/
def storeWord (p : Int) (v : Word) (s : State) : Res Unit :=
  match boundsCheck p with
  | .ok q => .ok () { s with mem := writeWord s.mem q v }
  | .error k => .fault k (s.memfault k)

/-- Get of a logical address (`20_memory.md` R105). -/
def getWord (a : Word) (s : State) : Res Word := loadWord (s.phys a) s

/-- Insert at a logical address: bypasses the cache (`20_memory.md` R105, R125). -/
def insertWord (a : Word) (v : Word) (s : State) : Res Unit := storeWord (s.phys a) v s

/-- The word a biased read of logical address `a` finds, or the fault it raises, without the state
(`20_memory.md` R102, R105). -/
def State.peek (s : State) (a : Word) : Except FaultKind Word :=
  match boundsCheck (s.phys a) with
  | .ok p => .ok (readWord s.mem p)
  | .error k => .error k

/-! ## Cached stores -/

/-- Flush one address: Mem[p] <- Cache[p] (`20_memory.md` R122, R123). A buffered address always has
an entry; without one nothing is written (log 19). -/
def flushAddress (s : State) (p : Nat) : State :=
  match cacheLookup s.cache p with
  | some w => { s with mem := writeWord s.mem p w }
  | none => s

/-- WB_push(p) under FLUSH_EACH (`20_memory.md` R122) and FIFO (R123). -/
def wbPush (s : State) (p : Nat) : State :=
  match s.cfg.wbPolicy with
  | .flushEach => { flushAddress s p with writeBuffer := [] }
  | .fifo =>
    match s.writeBuffer with
    | h :: rest =>
      if s.writeBuffer.length = 4 then { flushAddress s h with writeBuffer := rest ++ [p] }
      else { s with writeBuffer := s.writeBuffer ++ [p] }
    | [] => { s with writeBuffer := [p] }

/-- CachedInsert(a, v) (`20_memory.md` R121): bounds first, then the cache, then the buffer. -/
def cachedInsert (a : Word) (v : Word) (s : State) : Res Unit :=
  match boundsCheck (s.phys a) with
  | .ok p => .ok () (wbPush { s with cache := cacheSet s.cache p v } p)
  | .error k => .fault k (s.memfault k)

/-! ## Taking a machine fault -/

/-- FAULT_ID (`60_exceptions.md` R601, D11). -/
def faultId (c : Params) (k : FaultKind) : BitVec 2 :=
  match k with
  | .reserved => c.faultId.reserved
  | .illegalTrapCode => c.faultId.illegalTrapCode
  | .illegalOperationCode => c.faultId.illegalOperationCode
  | .outOfBounds => c.faultId.outOfBounds

/-- 2^id, the MFR value of a fault kind (`60_exceptions.md` R601). -/
def mfrCode (c : Params) (k : FaultKind) : BitVec 4 := 1#4 <<< (faultId c k).toNat

/-- What is added to the fault vector (`60_exceptions.md` R610, R613; FAULT_VECTOR_BIAS, D10, log 14). -/
def vectorBias (s : State) : Int :=
  match s.cfg.faultVectorBias with
  | .latchClear => if s.runningUserProgram && decide (s.memoryFault = .none) then (s.off : Int) else 0
  | .always => if s.runningUserProgram then (s.off : Int) else 0
  | .never => 0

/-- FaultEntry(kind) (`60_exceptions.md` R610): MFR, the saved PC at physical 5, the vector at physical
1, the latch cleared, PC, the flags. Both raw accesses are always in bounds. There is no
return-from-fault instruction to stand beside it (R630): a handler jumps through location 5. -/
def faultEntry (k : FaultKind) (s : State) : State :=
  let saved := writeWord s.mem 5 s.pc
  let v := sval (readWord saved 1) + vectorBias s
  { s with
    mfr := mfrCode s.cfg k
    mem := saved
    memoryFault := .none
    pc := s.pcOf (wrap16 v)
    cyc := CycleFlags.cleared }

/-- How a cycle ends: with its last state, or with fault entry (`40_cycle.md` R221). -/
def finish (r : Res Unit) : Host.Outcome State Fault Refusal :=
  match r with
  | .ok _ s => .next s
  | .fault k s => .next (faultEntry k s)

/-! ## ADVANCE_PC -/

/-- The end of a cycle: PC takes `next`, and the flags are cleared (`40_cycle.md` R219). -/
def State.endCycle (s : State) (next : Word) : State :=
  { s with pc := s.pcOf next, cyc := CycleFlags.cleared }

/-- ADVANCE_PC (`40_cycle.md` R219): to the saved return address after TRAP, else to next_pc. -/
def advancePc (s : State) : Res Unit :=
  if s.cyc.trapTaken then (getWord 2 s).andThen fun v t => .ok () (t.endCycle v)
  else .ok () (s.endCycle s.cyc.nextPc)

end Sys2Proof.Machine
end

