-- ==== Sys2Proof/Machine/Operands.lean ====
section
/-! DEFINITION. The decode flags of every instruction (`40_cycle.md` R203), the operand checks of the
decode step (`30_encoding.md` R174), and every operand form: the effective address and FETCH_OPERAND
(`40_cycle.md` R210–R212), and jump targets (`44_transfer.md` R370). -/

namespace Sys2Proof.Machine

/-! ## Decode flags (R203) -/

/-- LDR, LDA, AMR, SMR. -/
def rowLoad : DecodeRow := { target := .register, kind := .gpr, indexEnabled := true, indirectEnabled := true }

/-- AIR, SIR. -/
def rowImmediate : DecodeRow :=
  { target := .register, kind := .gpr, indexEnabled := false, indirectEnabled := false }

/-- STR. -/
def rowStore : DecodeRow := { target := .memory, kind := .gpr, indexEnabled := true, indirectEnabled := true }

/-- LDX: not indexed, since the kind is IXR (log 15). -/
def rowLoadIndex : DecodeRow :=
  { target := .register, kind := .ixr, indexEnabled := false, indirectEnabled := true }

/-- STX: not indexed, since the kind is IXR (log 15). -/
def rowStoreIndex : DecodeRow :=
  { target := .memory, kind := .ixr, indexEnabled := false, indirectEnabled := true }

/-- LDFR. -/
def rowLoadFloat : DecodeRow :=
  { target := .register, kind := .fpr, indexEnabled := true, indirectEnabled := true }

/-- STFR. -/
def rowStoreFloat : DecodeRow :=
  { target := .memory, kind := .fpr, indexEnabled := true, indirectEnabled := true }

/-- JZ, JNE, JCC, JMA, JSR, SOB, JGE, CNVRT. -/
def rowAddress : DecodeRow := { target := .none, kind := .gpr, indexEnabled := true, indirectEnabled := true }

/-- FADD, FSUB, VADD, VSUB. -/
def rowFloat : DecodeRow := { target := .none, kind := .fpr, indexEnabled := true, indirectEnabled := true }

/-- RFS, HLT, TRAP, MLT, DVD, TRR, AND, ORR, NOT, SRC, RRC, IN, OUT, CHK. -/
def rowPlain : DecodeRow := { target := .none, kind := .gpr, indexEnabled := false, indirectEnabled := false }

/-! ## The decode step (R202) -/

/-- MLT and DVD: both selectors are 0 or 2 (R174, D17). -/
def checkPair (rx ry : BitVec 2) : Bool := (rx == 0 || rx == 2) && (ry == 0 || ry == 2)

/-- LDX and STX: the IX field is not 0 (R174, D15). -/
def checkIndex (x : BitVec 2) : Bool := x != 0

/-- The floating formats: fr is 0 or 1 (R174, D29). -/
def checkFloat (fr : BitVec 2) : Bool := fr == 0 || fr == 1

/-- `RS1 <- R` (`40_cycle.md` R201), for an instruction whose R field is an operand. -/
def State.latchRs1 (s : State) (r : BitVec 2) : State := { s with rs1 := r }

/-- The flags of R203 written, `trap_taken` with them (R201). -/
def State.setFlags (s : State) (row : DecodeRow) (trap : Bool) : State :=
  { s with cyc := { s.cyc with
      target := row.target
      kind := row.kind
      indexEnabled := row.indexEnabled
      indirectEnabled := row.indirectEnabled
      trapTaken := trap } }

/-- The instruction's decode step: the flags, then the field checks, which raise
ILLEGAL_OPERATION_CODE (`40_cycle.md` R202). -/
def decodeStep (row : DecodeRow) (trap valid : Bool) (s : State) : Res Unit :=
  if valid then .ok () (s.setFlags row trap) else raiseFault .illegalOperationCode (s.setFlags row trap)

/-! ## The effective address (R210, R211) -/

/-- ADDR, plus the selected index register where indexing applies (`40_cycle.md` R210, D54). -/
def State.indexedAddress (s : State) (indexed : Bool) (f : OperandFields) : Word :=
  match ixReg f.ix with
  | some x => if indexed then wrap16 (sval (f.addr.setWidth 16) + sval (s.xr x)) else f.addr.setWidth 16
  | none => f.addr.setWidth 16

/-- The logical effective address, or the fault of the indirect read (`40_cycle.md` R210, R211):
`indexed` and `indirect` say which of the two resolutions the decode step left enabled. -/
def State.effectiveAddress (s : State) (indexed indirect : Bool) (f : OperandFields) :
    Except FaultKind Word :=
  if indirect && f.indirect then s.peek (s.indexedAddress indexed f)
  else .ok (s.indexedAddress indexed f)

/-- Whether indexing applies (`40_cycle.md` R210; an IX field of 0 selects no register). -/
def State.indexApplies (s : State) : Bool := s.cyc.indexEnabled && decide (s.cyc.kind ≠ .ixr)

/-- What FETCH_OPERAND leaves: IAR and MAR hold the effective address, MBR the word at MAR. -/
def State.operandRead (s : State) (ea w : Word) : State :=
  { s with iar := ea, mar := s.marOf ea, mbr := w }

/-- FETCH_OPERAND (`40_cycle.md` R210, R212). A fault of the indirect read leaves IAR at the pointer's
address and MAR as it was; a fault of the operand read leaves both at the effective address. -/
def fetchOperand (f : OperandFields) (s : State) : Res Unit :=
  match s.effectiveAddress s.indexApplies s.cyc.indirectEnabled f with
  | .error k => .fault k ({ s with iar := s.indexedAddress s.indexApplies f }.memfault k)
  | .ok ea =>
    match s.peek (s.marOf ea) with
    | .error k => .fault k ({ s with iar := ea, mar := s.marOf ea }.memfault k)
    | .ok w => .ok () (s.operandRead ea w)

/-- The fields of an instruction whose index and indirect resolution is disabled: only ADDR counts
(`40_cycle.md` R212). -/
def plainFields (addr : BitVec 5) : OperandFields := { ix := 0, indirect := false, addr := addr }

/-- The ADDR field of IR, where the kept operand read of a format without an ADDR operand goes
(`40_cycle.md` R212; log 11). -/
def State.irAddr (s : State) : BitVec 5 := addrField s.ir

/-! ## Jump targets (`44_transfer.md` R370) -/

/-- `target <- wrap16(IAR + BIAS)`, without the bias when BRANCH_BIAS is false (R370, D9). -/
def State.branchTarget (s : State) : Word :=
  wrap16 (sval s.iar + (if s.cfg.branchBias then s.bias else 0))

end Sys2Proof.Machine
end

