-- ==== Sys2Proof/Machine/Cycle.lean ====
section
/-! DEFINITION. The phases every instruction passes through (`40_cycle.md` R200–R221): FETCH, the
register part of DECODE, DEPOSIT, and the cycle from an instruction's decode step to ADVANCE_PC. -/

namespace Sys2Proof.Machine

/-- The word FETCH reads at PC: the cached one if there is one, else `Load(PC)` (`40_cycle.md` R200). -/
def fetchWord (s : State) : Res Word :=
  match s.cacheGet (sval s.pc) with
  | some w => .ok w s
  | none => loadWord (sval s.pc) s

/-- FETCH (`40_cycle.md` R200). -/
def fetch (s : State) : Res Word :=
  (fetchWord { s with mar := s.marOf s.pc }).andThen fun w t =>
    .ok w { t with mbr := w, cyc := { t.cyc with nextPc := wrap16 (sval t.pc + 1) } }

/-- The first lines of DECODE: IR and RS1 (`40_cycle.md` R201). -/
def decodeLatch (s : State) : State := { s with ir := s.mbr, rs1 := rField s.mbr }

/-- DEPOSIT (`40_cycle.md` R216). A FPR or IXR target whose selector names no register cannot occur,
since the decode step has checked it; it would raise ILLEGAL_OPERATION_CODE (log 20). -/
def deposit (ix : BitVec 2) (s : State) : Res Unit :=
  match s.cyc.target, s.cyc.kind with
  | .register, .gpr => .ok () (s.setGpr s.rs1 s.irr)
  | .register, .ixr =>
    match ixReg ix with
    | some x => .ok () (s.setXr x s.irr)
    | none => raiseFault .illegalOperationCode s
  | .register, .fpr =>
    match fReg s.rs1 with
    | some f =>
      (getWord s.iar s).andThen fun hi t =>
      (getWord (wrap16 (sval t.iar + 1)) t).andThen fun lo u =>
      .ok () (u.setFr f (fpFromWords hi lo))
    | none => raiseFault .illegalOperationCode s
  | .memory, .gpr => cachedInsert s.mar s.irr s
  | .memory, .ixr => insertWord s.mar s.irr s
  | .memory, .fpr =>
    match fReg s.rs1 with
    | some f =>
      (insertWord s.mar (fpToWords (s.fr f)).1 s).andThen fun _ t =>
      insertWord (wrap16 (sval t.mar + 1)) (fpToWords (t.fr f)).2 t
    | none => raiseFault .illegalOperationCode s
  | .none, _ => .ok () s

/-- The decode step and FETCH_OPERAND of an instruction (`40_cycle.md` R202, R210). -/
def prepare (row : DecodeRow) (trap valid : Bool) (f : OperandFields) (s : State) : Res Unit :=
  (decodeStep row trap valid s).andThen fun _ t => fetchOperand f t

/-- What follows EXECUTE: nothing when it halted the core, else DEPOSIT and ADVANCE_PC
(`40_cycle.md` R220, R221). -/
def complete (ix : BitVec 2) (s : State) : Res Unit :=
  if s.halted then .ok () s else (deposit ix s).andThen fun _ t => advancePc t

/-- The cycle of one instruction from its decode step on (`40_cycle.md` R221). -/
def cycle (row : DecodeRow) (valid : Bool) (f : OperandFields) (execute : State → Res Unit) (s : State) :
    Host.Outcome State Fault Refusal :=
  finish
    ((prepare row false valid f s).andThen fun _ t =>
      (execute t).andThen fun _ u => complete f.ix u)

/-- A step that the model gives no meaning sets the mark `refused` and changes nothing else
(`00_scope.md` R15, `48_io.md` R540; log 7). -/
def markRefused (s : State) (o : Host.Outcome State Fault Refusal) : Host.Outcome State Fault Refusal :=
  match o with
  | .next t => .next t
  | .fault f => .fault f
  | .refused _ => .next { s with refused := true }

end Sys2Proof.Machine
end

