-- ==== Sys2Proof/Machine/Flags.lean ====
section
/-! DEFINITION. The ALU of `41_alu.md` §1–§3: every result and every condition-code write. All
operands are 16-bit patterns; each function computes on exact integers and narrows with `wrap16`
(R251), and returns the condition codes it leaves. -/

namespace Sys2Proof.Machine

/-- `add(a, b)` (`41_alu.md` R252). -/
def aluAdd (a b : Word) (c : CC) : Word × CC :=
  let res := wrap16 (sval a + sval b)
  (res,
    { c with
      overflow := c.overflow || decide (0 ≤ sval a ∧ 0 ≤ sval b ∧ sval res < 0)
      underflow := c.underflow || decide (sval a < 0 ∧ sval b < 0 ∧ 0 ≤ sval res) })

/-- `subtract(a, b)`, with strict comparisons (`41_alu.md` R253, D48). -/
def aluSubtract (a b : Word) (c : CC) : Word × CC :=
  let res := wrap16 (sval a - sval b)
  (res,
    { c with
      overflow := c.overflow || decide (0 < sval a ∧ sval b < 0 ∧ sval res < 0)
      underflow := c.underflow || decide (sval a < 0 ∧ 0 < sval b ∧ 0 < sval res) })

/-- The flags of `multiply` from the double-width value of the product (`41_alu.md` R254). -/
def multiplyFlags (a b : Word) (product : Int) (c : CC) : CC :=
  let same := decide (0 ≤ sval a) == decide (0 ≤ sval b)
  { c with
    overflow := c.overflow || (same && decide (product < 0))
    underflow := c.underflow || (!same && decide (0 < product)) }

/-- `multiply(a, b)`: (hi, lo) of the double-width product, MLT_HALF 16 or 8 (`41_alu.md` R254, D16). -/
def aluMultiply (half : MltHalf) (a b : Word) (c : CC) : (Word × Word) × CC :=
  match half with
  | .sixteen =>
    let p : BitVec 32 := BitVec.ofInt 32 (sval a * sval b)
    ((p.extractLsb' 16 16, p.extractLsb' 0 16), multiplyFlags a b p.toInt c)
  | .eight =>
    let p : BitVec 16 := BitVec.ofInt 16 (sval a * sval b)
    (((p.extractLsb' 8 8).setWidth 16, (p.extractLsb' 0 8).setWidth 16), multiplyFlags a b p.toInt c)

/-- `divide(a, b)`: quotient toward zero and remainder with the sign of the dividend, or nothing and
DIVZERO (`41_alu.md` R255, D18). -/
def aluDivide (a b : Word) (c : CC) : Option (Word × Word) × CC :=
  if sval b = 0 then (none, { c with divzero := true })
  else
    let q := Int.tdiv (sval a) (sval b)
    (some (wrap16 q, wrap16 (sval a - sval b * q)), c)

/-- `test_equality(a, b)`: the only ALU function that writes a CC bit to 0 (`41_alu.md` R256). -/
def aluTestEquality (a b : Word) (c : CC) : CC := { c with equal := decide (sval a = sval b) }

/-- `logical_and` (`41_alu.md` R257). -/
def aluAnd (a b : Word) : Word := a &&& b

/-- `logical_or` (`41_alu.md` R257). -/
def aluOr (a b : Word) : Word := a ||| b

/-- `logical_not` (`41_alu.md` R257). -/
def aluNot (a : Word) : Word := ~~~a

/-- `shift(v, n, lr, al)` with `arith` saying whether A/L is AL_ARITH_VALUE (`41_alu.md` R258, D49):
bits lost on an arithmetic left shift set OVERFLOW, on an arithmetic right shift UNDERFLOW (R454). -/
def aluShift (v : Word) (count : BitVec 4) (left arith : Bool) (c : CC) : Word × CC :=
  let n := count.toNat
  if n = 0 then (v, c)
  else if left then
    (v <<< n, { c with overflow := c.overflow || (arith && v >>> (16 - n) != 0) })
  else if arith then
    (v.sshiftRight n, { c with underflow := c.underflow || decide (v.toNat % 2 ^ n ≠ 0) })
  else (v >>> n, c)

/-- `rotate(v, n, lr, al)`: a no-op unless A/L is AL_ARITH_VALUE; no flag (`41_alu.md` R259). -/
def aluRotate (v : Word) (count : BitVec 4) (left arith : Bool) : Word :=
  let n := count.toNat
  if !arith || n == 0 then v
  else if left then (v <<< n) ||| (v >>> (16 - n))
  else (v >>> n) ||| (v <<< (16 - n))

end Sys2Proof.Machine
end

