-- ==== Sys2Proof/Machine/Arith.lean ====
section
/-! DEFINITION. AMR, SMR, AIR, SIR (`43_arith.md`). All four deposit through IRR. -/

namespace Sys2Proof.Machine

/-- `IRR <- op(R[RS1], b)` with the condition codes the ALU leaves (`43_arith.md` R340–R346). -/
def aluToIrr (op : Word → Word → CC → Word × CC) (b : State → Word) (t : State) : Res Unit :=
  .ok () { t with irr := (op (t.gpr t.rs1) (b t) t.cc).1, cc := (op (t.gpr t.rs1) (b t) t.cc).2 }

/-- AMR (`43_arith.md` R340). -/
def execAmr (r ix : BitVec 2) (i : Bool) (addr : BitVec 5) (s : State) : Host.Outcome State Fault Refusal :=
  cycle rowLoad true { ix := ix, indirect := i, addr := addr } (aluToIrr aluAdd State.mbr) (s.latchRs1 r)

/-- SMR (`43_arith.md` R342). -/
def execSmr (r ix : BitVec 2) (i : Bool) (addr : BitVec 5) (s : State) : Host.Outcome State Fault Refusal :=
  cycle rowLoad true { ix := ix, indirect := i, addr := addr } (aluToIrr aluSubtract State.mbr) (s.latchRs1 r)

/-- AIR (`43_arith.md` R344). -/
def execAir (r : BitVec 2) (immed : BitVec 5) (s : State) : Host.Outcome State Fault Refusal :=
  cycle rowImmediate true (plainFields immed) (aluToIrr aluAdd (fun _ => immed.setWidth 16)) (s.latchRs1 r)

/-- SIR (`43_arith.md` R346). -/
def execSir (r : BitVec 2) (immed : BitVec 5) (s : State) : Host.Outcome State Fault Refusal :=
  cycle rowImmediate true (plainFields immed) (aluToIrr aluSubtract (fun _ => immed.setWidth 16)) (s.latchRs1 r)

end Sys2Proof.Machine
end

