-- ==== Sys2Proof/Machine/FloatVector.lean ====
section
/-! DEFINITION. LDFR, STFR, FADD, FSUB, VADD, VSUB, CNVRT (`47_float_vector.md`). -/

namespace Sys2Proof.Machine

/-- EXECUTE with the floating register that fr names; the decode step has checked that there is one
(`47_float_vector.md` R480; log 20). -/
def withFReg (fr : BitVec 2) (k : FReg → State → Res Unit) (t : State) : Res Unit :=
  match fReg fr with
  | some f => k f t
  | none => raiseFault .illegalOperationCode t

/-- LDFR (`47_float_vector.md` R482): IRR takes MBR, DEPOSIT reads the pair. -/
def execLdfr (fr ix : BitVec 2) (i : Bool) (addr : BitVec 5) (s : State) : Host.Outcome State Fault Refusal :=
  cycle rowLoadFloat (checkFloat fr) { ix := ix, indirect := i, addr := addr }
    (fun t => .ok () { t with irr := t.mbr }) (s.latchRs1 fr)

/-- STFR (`47_float_vector.md` R484): IRR takes FR, DEPOSIT writes the two words. -/
def execStfr (fr ix : BitVec 2) (i : Bool) (addr : BitVec 5) (s : State) : Host.Outcome State Fault Refusal :=
  cycle rowStoreFloat (checkFloat fr) { ix := ix, indirect := i, addr := addr }
    (withFReg fr fun f t => .ok () { t with irr := t.fr f }) (s.latchRs1 fr)

/-- The second word of a pair at the effective address: `Get(wrap16(EA + 1))` (`47_float_vector.md`
R480). -/
def secondWord (t : State) : Res Word := getWord (wrap16 (sval t.iar + 1)) t

/-- `FR[f] <- fpEncode(op(fpvalue(FR[f]), y))` with y the pair at the effective address
(`47_float_vector.md` R486, R488). -/
def floatArith (op : ExactReal → ExactReal → ExactReal) (f : FReg) (t : State) : Res Unit :=
  (secondWord t).andThen fun lo u =>
    let v := encodeReal u.cfg.fpEncoder (op (fpValue (u.fr f)) (fpValue (fpFromWords u.mbr lo))) u.cc
    .ok () { u.setFr f v.1 with cc := v.2 }

/-- FADD (`47_float_vector.md` R486). -/
def execFadd (fr ix : BitVec 2) (i : Bool) (addr : BitVec 5) (s : State) : Host.Outcome State Fault Refusal :=
  cycle rowFloat (checkFloat fr) { ix := ix, indirect := i, addr := addr }
    (withFReg fr (floatArith ExactReal.add)) (s.latchRs1 fr)

/-- FSUB (`47_float_vector.md` R488). -/
def execFsub (fr ix : BitVec 2) (i : Bool) (addr : BitVec 5) (s : State) : Host.Outcome State Fault Refusal :=
  cycle rowFloat (checkFloat fr) { ix := ix, indirect := i, addr := addr }
    (withFReg fr (floatArith ExactReal.sub)) (s.latchRs1 fr)

/-- One element of a vector operation: both reads, the ALU, the cached store (`47_float_vector.md`
R492). -/
def vectorElement (op : Word → Word → CC → Word × CC) (a1 a2 : Word) (t : State) : Res Unit :=
  (getWord a1 t).andThen fun v1 u =>
  (getWord a2 u).andThen fun v2 w =>
  cachedInsert a1 (op v1 v2 w.cc).1 { w with cc := (op v1 v2 w.cc).2 }

/-- `n` elements from element `i` on, in increasing order; the first fault ends the loop and the
elements before it stay written (`47_float_vector.md` R492, D12). -/
def vectorLoop (op : Word → Word → CC → Word × CC) (b1 b2 : Word) (n i : Nat) (t : State) : Res Unit :=
  match n with
  | 0 => .ok () t
  | m + 1 =>
    (vectorElement op (wrap16 (sval b1 + i)) (wrap16 (sval b2 + i)) t).andThen fun _ u =>
      vectorLoop op b1 b2 m (i + 1) u

/-- The length of the vectors: trunc(fpvalue(FR[f])), nothing to do when it is not positive
(`47_float_vector.md` R490). -/
def vectorLength (t : State) (f : FReg) : Nat := (fpValue (t.fr f)).trunc.toNat

/-- EXECUTE of VADD and VSUB (`47_float_vector.md` R490, R492). -/
def vectorArith (op : Word → Word → CC → Word × CC) (f : FReg) (t : State) : Res Unit :=
  (secondWord t).andThen fun b2 u => vectorLoop op u.mbr b2 (vectorLength u f) 0 u

/-- VADD (`47_float_vector.md` R492). -/
def execVadd (fr ix : BitVec 2) (i : Bool) (addr : BitVec 5) (s : State) : Host.Outcome State Fault Refusal :=
  cycle rowFloat (checkFloat fr) { ix := ix, indirect := i, addr := addr }
    (withFReg fr (vectorArith aluAdd)) (s.latchRs1 fr)

/-- VSUB (`47_float_vector.md` R494). -/
def execVsub (fr ix : BitVec 2) (i : Bool) (addr : BitVec 5) (s : State) : Host.Outcome State Fault Refusal :=
  cycle rowFloat (checkFloat fr) { ix := ix, indirect := i, addr := addr }
    (withFReg fr (vectorArith aluSubtract)) (s.latchRs1 fr)

/-- CNVRT (`47_float_vector.md` R496): F = R[r] chooses the direction; any other F raises
ILLEGAL_OPERATION_CODE in EXECUTE. -/
def execCnvrt (r ix : BitVec 2) (i : Bool) (addr : BitVec 5) (s : State) : Host.Outcome State Fault Refusal :=
  cycle rowAddress true { ix := ix, indirect := i, addr := addr }
    (fun t =>
      if sval (t.gpr r) = 0 then
        (secondWord t).andThen fun lo u => .ok () (u.setGpr r (fpToInt (fpFromWords u.mbr lo)))
      else if sval (t.gpr r) = 1 then
        let v := encodeReal t.cfg.fpEncoder (ExactReal.ofInt (sval t.mbr)) t.cc
        .ok () { t.setFr .fr0 v.1 with cc := v.2 }
      else raiseFault .illegalOperationCode t) (s.latchRs1 r)

end Sys2Proof.Machine
end

