-- ==== Sys2Proof/Machine/Io.lean ====
section
/-! DEFINITION. IN, OUT, CHK and the console (`48_io.md`). KEYBOARD is device 0, PRINTER 1,
CARD_READER 2; the combinations R540 leaves without meaning are refused. -/

namespace Sys2Proof.Machine

/-- The register value of a host answer, or nothing when it is out of range (`48_io.md` R541, D46):
an integer is stored by its low 16 bits, a character as its code, an empty response as 10. -/
def answerWord (a : Answer) : Option Word :=
  match a with
  | .integer v => if -32768 ≤ v ∧ v ≤ 32767 then some (wrap16 v) else none
  | .char c => if c ≤ 127 then some (BitVec.ofNat 16 c) else none
  | .empty => some 10

/-- HostInput into R[r] in the middle of the cycle, then the rest of the cycle (`48_io.md` R545). With
no answer at hand the core records the request and holds (log 9). -/
def receiveInput (r : BitVec 2) (t : State) : Host.Outcome State Fault Refusal :=
  match t.consoleInput with
  | [] => .next { t with inputWait := some r }
  | a :: rest =>
    match answerWord a with
    | some v => finish (complete 0 ({ t with consoleInput := rest, inputWait := none }.setGpr r v))
    | none => .refused .answerOutOfRange

/-- The step of a core held in `IN r,0`: it finishes the cycle once the host has answered, and takes
no step before (`48_io.md` R545, U6). -/
def resumeInput (r : BitVec 2) (s : State) : Host.Outcome State Fault Refusal :=
  if s.consoleInput.isEmpty then .fault .awaitingInput else receiveInput r s

/-- DECODE and FETCH_OPERAND of a device instruction, then its EXECUTE (`48_io.md`, introduction). -/
def deviceCycle (devid : BitVec 5) (execute : State → Host.Outcome State Fault Refusal) (s : State) :
    Host.Outcome State Fault Refusal :=
  match prepare rowPlain false true (plainFields devid) s with
  | .ok _ t => execute t
  | .fault k t => .next (faultEntry k t)

/-- IN (`48_io.md` R541). -/
def execIn (r : BitVec 2) (devid : BitVec 5) (s : State) : Host.Outcome State Fault Refusal :=
  deviceCycle devid
    (fun t =>
      if devid = 0 then receiveInput r t
      else if devid = 2 then finish (complete 0 t)
      else .refused .undefinedDevice) (s.latchRs1 r)

/-- OUT (`48_io.md` R543): HostOutput appends the value to the run's output sequence (R545). -/
def execOut (r : BitVec 2) (devid : BitVec 5) (s : State) : Host.Outcome State Fault Refusal :=
  deviceCycle devid
    (fun t =>
      if devid = 1 then finish (complete 0 { t with output := t.output ++ [t.gpr r] })
      else if devid = 2 then finish (complete 0 t)
      else .refused .undefinedDevice) (s.latchRs1 r)

/-- `CHK_STATUS(devid)` for the three devices (`48_io.md` R546, D34). -/
def chkStatus (c : Params) (devid : BitVec 5) : Option Word :=
  if devid = 0 then some c.chkKeyboard
  else if devid = 1 then some c.chkPrinter
  else if devid = 2 then some c.chkCardReader
  else none

/-- CHK (`48_io.md` R546). -/
def execChk (r : BitVec 2) (devid : BitVec 5) (s : State) : Host.Outcome State Fault Refusal :=
  deviceCycle devid
    (fun t =>
      match chkStatus t.cfg devid with
      | some v => finish (complete 0 (t.setGpr r v))
      | none => .refused .undefinedDevice) (s.latchRs1 r)

end Sys2Proof.Machine
end

