-- ==== Sys2Proof/Machine/LoadStore.lean ====
section
/-! DEFINITION. LDR, STR, LDA, LDX, STX (`42_load_store.md`). -/

namespace Sys2Proof.Machine

/-- `IRR <- v`: what EXECUTE of a depositing instruction does (`40_cycle.md` R215). -/
def State.setIrr (s : State) (v : Word) : State := { s with irr := v }

/-- LDR (`42_load_store.md` R300). -/
def execLdr (r ix : BitVec 2) (i : Bool) (addr : BitVec 5) (s : State) : Host.Outcome State Fault Refusal :=
  cycle rowLoad true { ix := ix, indirect := i, addr := addr }
    (fun t => .ok () (t.setIrr t.mbr)) (s.latchRs1 r)

/-- STR, through the cache (`42_load_store.md` R302). -/
def execStr (r ix : BitVec 2) (i : Bool) (addr : BitVec 5) (s : State) : Host.Outcome State Fault Refusal :=
  cycle rowStore true { ix := ix, indirect := i, addr := addr }
    (fun t => .ok () (t.setIrr (t.gpr t.rs1))) (s.latchRs1 r)

/-- LDA: the logical effective address (`42_load_store.md` R304). -/
def execLda (r ix : BitVec 2) (i : Bool) (addr : BitVec 5) (s : State) : Host.Outcome State Fault Refusal :=
  cycle rowLoad true { ix := ix, indirect := i, addr := addr }
    (fun t => .ok () (t.setIrr t.iar)) (s.latchRs1 r)

/-- LDX (`42_load_store.md` R306). -/
def execLdx (x : BitVec 2) (i : Bool) (addr : BitVec 5) (s : State) : Host.Outcome State Fault Refusal :=
  cycle rowLoadIndex (checkIndex x) { ix := x, indirect := i, addr := addr }
    (fun t => .ok () (t.setIrr t.mbr)) s

/-- STX, bypassing the cache (`42_load_store.md` R309). -/
def execStx (x : BitVec 2) (i : Bool) (addr : BitVec 5) (s : State) : Host.Outcome State Fault Refusal :=
  cycle rowStoreIndex (checkIndex x) { ix := x, indirect := i, addr := addr }
    (fun t =>
      match ixReg x with
      | some xr => .ok () (t.setIrr (t.xr xr))
      | none => raiseFault .illegalOperationCode t) s

end Sys2Proof.Machine
end

