-- ==== Sys2Proof/Machine/RegReg.lean ====
section
/-! DEFINITION. MLT, DVD, TRR, AND, ORR, NOT (`45_reg_reg.md`). All register reads of an instruction
come before its writes. The kept operand read goes to the ADDR field of IR. -/

namespace Sys2Proof.Machine

/-- MLT (`45_reg_reg.md` R410): R[rx] takes the high half, R[rx+1] the low half. -/
def execMlt (rx ry : BitVec 2) (s : State) : Host.Outcome State Fault Refusal :=
  cycle rowPlain (checkPair rx ry) (plainFields s.irAddr)
    (fun t =>
      let p := aluMultiply t.cfg.mltHalf (t.gpr rx) (t.gpr ry) t.cc
      .ok () { (t.setGpr rx p.1.1).setGpr (rx + 1) p.1.2 with cc := p.2 }) (s.latchRs1 rx)

/-- DVD (`45_reg_reg.md` R412): quotient and remainder, or DIVZERO and no register written. -/
def execDvd (rx ry : BitVec 2) (s : State) : Host.Outcome State Fault Refusal :=
  cycle rowPlain (checkPair rx ry) (plainFields s.irAddr)
    (fun t =>
      match aluDivide (t.gpr rx) (t.gpr ry) t.cc with
      | (some (q, r), c) => .ok () { (t.setGpr rx q).setGpr (rx + 1) r with cc := c }
      | (none, c) => .ok () { t with cc := c }) (s.latchRs1 rx)

/-- TRR (`45_reg_reg.md` R414): EQUAL set or cleared. -/
def execTrr (rx ry : BitVec 2) (s : State) : Host.Outcome State Fault Refusal :=
  cycle rowPlain true (plainFields s.irAddr)
    (fun t => .ok () { t with cc := aluTestEquality (t.gpr rx) (t.gpr ry) t.cc }) (s.latchRs1 rx)

/-- AND (`45_reg_reg.md` R416). -/
def execAnd (rx ry : BitVec 2) (s : State) : Host.Outcome State Fault Refusal :=
  cycle rowPlain true (plainFields s.irAddr)
    (fun t => .ok () (t.setGpr rx (aluAnd (t.gpr rx) (t.gpr ry)))) (s.latchRs1 rx)

/-- ORR (`45_reg_reg.md` R418). -/
def execOrr (rx ry : BitVec 2) (s : State) : Host.Outcome State Fault Refusal :=
  cycle rowPlain true (plainFields s.irAddr)
    (fun t => .ok () (t.setGpr rx (aluOr (t.gpr rx) (t.gpr ry)))) (s.latchRs1 rx)

/-- NOT (`45_reg_reg.md` R420). -/
def execNot (rx : BitVec 2) (s : State) : Host.Outcome State Fault Refusal :=
  cycle rowPlain true (plainFields s.irAddr)
    (fun t => .ok () (t.setGpr rx (aluNot (t.gpr rx)))) (s.latchRs1 rx)

end Sys2Proof.Machine
end

