-- ==== Sys2Proof/Machine/Shift.lean ====
section
/-! DEFINITION. SRC and RRC (`46_shift_rotate.md`). `al` is IR[7] and `lr` is IR[6]; SHIFT_FLAG_SWAP
exchanges their roles (`30_encoding.md` R167, D4). -/

namespace Sys2Proof.Machine

/-- Whether the word asks for a left shift: L/R = 1 (`30_encoding.md` R167). -/
def shiftLeftSelected (c : Params) (al lr : Bool) : Bool := if c.shiftFlagSwap then al else lr

/-- Whether the A/L bit equals AL_ARITH_VALUE (`30_encoding.md` R167, D5). -/
def shiftArithSelected (c : Params) (al lr : Bool) : Bool :=
  (if c.shiftFlagSwap then lr else al) == c.alArithValue

/-- SRC (`46_shift_rotate.md` R450). -/
def execSrc (r : BitVec 2) (al lr : Bool) (count : BitVec 4) (s : State) : Host.Outcome State Fault Refusal :=
  cycle rowPlain true (plainFields s.irAddr)
    (fun t =>
      let v := aluShift (t.gpr r) count (shiftLeftSelected t.cfg al lr) (shiftArithSelected t.cfg al lr) t.cc
      .ok () { t.setGpr r v.1 with cc := v.2 }) (s.latchRs1 r)

/-- RRC (`46_shift_rotate.md` R452). -/
def execRrc (r : BitVec 2) (al lr : Bool) (count : BitVec 4) (s : State) : Host.Outcome State Fault Refusal :=
  cycle rowPlain true (plainFields s.irAddr)
    (fun t =>
      .ok () (t.setGpr r
        (aluRotate (t.gpr r) count (shiftLeftSelected t.cfg al lr) (shiftArithSelected t.cfg al lr))))
    (s.latchRs1 r)

end Sys2Proof.Machine
end

