-- ==== Sys2Proof/Machine/System.lean ====
section
/-! DEFINITION. HLT and TRAP (`49_system.md`). -/

namespace Sys2Proof.Machine

/-- HLT (`49_system.md` R570): `halted` is set, and DEPOSIT and ADVANCE_PC are skipped, so the PC keeps
HLT's address (`40_cycle.md` R220). -/
def execHlt (s : State) : Host.Outcome State Fault Refusal :=
  cycle rowPlain true (plainFields s.irAddr) (fun t => .ok () { t with halted := true }) s

/-- TRAP (`49_system.md` R574): codes above 15 raise ILLEGAL_TRAP_CODE; else next_pc is saved at
logical 2, from where ADVANCE_PC loads the PC. -/
def execTrap (code : BitVec 5) (s : State) : Host.Outcome State Fault Refusal :=
  finish
    ((prepare rowPlain true true (plainFields code) s).andThen fun _ t =>
      (if 15 < code.toNat then raiseFault .illegalTrapCode t else insertWord 2 t.cyc.nextPc t).andThen
        fun _ u => complete 0 u)

end Sys2Proof.Machine
end

