-- ==== Sys2Proof/Machine/Transfer.lean ====
section
/-! DEFINITION. JZ, JNE, JCC, JMA, JSR, RFS, SOB, JGE (`44_transfer.md`). A taken transfer writes only
`next_pc`; the PC takes it at ADVANCE_PC (R370). -/

namespace Sys2Proof.Machine

/-- `next_pc <- target`. -/
def State.setNextPc (s : State) (target : Word) : State :=
  { s with cyc := { s.cyc with nextPc := target } }

/-- EXECUTE of a conditional transfer (`44_transfer.md` R370). -/
def jumpIf (taken : State → Bool) (t : State) : Res Unit :=
  .ok () (if taken t then t.setNextPc t.branchTarget else t)

/-- JZ (`44_transfer.md` R371). -/
def execJz (r ix : BitVec 2) (i : Bool) (addr : BitVec 5) (s : State) : Host.Outcome State Fault Refusal :=
  cycle rowAddress true { ix := ix, indirect := i, addr := addr }
    (jumpIf fun t => decide (sval (t.gpr r) = 0)) (s.latchRs1 r)

/-- JNE (`44_transfer.md` R372). -/
def execJne (r ix : BitVec 2) (i : Bool) (addr : BitVec 5) (s : State) : Host.Outcome State Fault Refusal :=
  cycle rowAddress true { ix := ix, indirect := i, addr := addr }
    (jumpIf fun t => decide (sval (t.gpr r) ≠ 0)) (s.latchRs1 r)

/-- JCC: the R field is the condition-code index (`44_transfer.md` R374). -/
def execJcc (cc ix : BitVec 2) (i : Bool) (addr : BitVec 5) (s : State) : Host.Outcome State Fault Refusal :=
  cycle rowAddress true { ix := ix, indirect := i, addr := addr }
    (jumpIf fun t => t.cc.get cc) (s.latchRs1 cc)

/-- JMA (`44_transfer.md` R376). -/
def execJma (ix : BitVec 2) (i : Bool) (addr : BitVec 5) (s : State) : Host.Outcome State Fault Refusal :=
  cycle rowAddress true { ix := ix, indirect := i, addr := addr } (jumpIf fun _ => true) s

/-- JSR: R3 takes the return address, then the jump (`44_transfer.md` R378). -/
def execJsr (ix : BitVec 2) (i : Bool) (addr : BitVec 5) (s : State) : Host.Outcome State Fault Refusal :=
  cycle rowAddress true { ix := ix, indirect := i, addr := addr }
    (fun t => .ok () ((t.setGpr 3 t.cyc.nextPc).setNextPc t.branchTarget)) s

/-- RFS: R0 takes the return code, the jump goes to R3 without a bias (`44_transfer.md` R380). -/
def execRfs (immed : BitVec 5) (s : State) : Host.Outcome State Fault Refusal :=
  cycle rowPlain true (plainFields immed)
    (fun t => .ok () ((t.setGpr 0 (immed.setWidth 16)).setNextPc (t.gpr 3))) s

/-- SOB: decrement through the ALU, then jump while the result is greater than 0
(`44_transfer.md` R382). -/
def execSob (r ix : BitVec 2) (i : Bool) (addr : BitVec 5) (s : State) : Host.Outcome State Fault Refusal :=
  cycle rowAddress true { ix := ix, indirect := i, addr := addr }
    (fun t =>
      let d := aluSubtract (t.gpr r) 1 t.cc
      jumpIf (fun u => decide (0 < sval (u.gpr r))) { t.setGpr r d.1 with cc := d.2 }) (s.latchRs1 r)

/-- JGE (`44_transfer.md` R384). -/
def execJge (r ix : BitVec 2) (i : Bool) (addr : BitVec 5) (s : State) : Host.Outcome State Fault Refusal :=
  cycle rowAddress true { ix := ix, indirect := i, addr := addr }
    (jumpIf fun t => decide (0 ≤ sval (t.gpr r))) (s.latchRs1 r)

end Sys2Proof.Machine
end

