-- ==== Sys2Proof/Machine/Step.lean ====
section
/-! DEFINITION. One step of the core: one whole instruction cycle (`40_cycle.md` R221, R223), or the
completion of a cycle that a console input request holds (`48_io.md` R545). -/

namespace Sys2Proof.Machine

/-- DECODE's opcode lookup and the instruction it resolves to; an unassigned opcode raises
ILLEGAL_OPERATION_CODE (`40_cycle.md` R201, `30_encoding.md` R173). -/
def runDecoded (t : State) : Host.Outcome State Fault Refusal :=
  match decodeWord t.cfg.opcodeMap t.ir with
  | .ok i => exec i t
  | .error _ => finish (raiseFault .illegalOperationCode t)

/-- One cycle from FETCH on (`40_cycle.md` R221). -/
def cycleStep (s : State) : Host.Outcome State Fault Refusal :=
  match fetch s with
  | .fault k t => .next (faultEntry k t)
  | .ok _ t => runDecoded (decodeLatch t)

/-- One step. No step of a run marked refused has a meaning (`10_state.md` R66), a halted core takes
none (R571), and a held one waits for the host (R545). -/
def step (s : State) : Host.Outcome State Fault Refusal :=
  if s.refused then .refused .runRefused
  else if s.halted then .fault .halted
  else match s.inputWait with
    | some r => markRefused s (resumeInput r s)
    | none => markRefused s (cycleStep s)

/-- `s` with the word `w` where the next FETCH finds it: in the cache entry of PC if there is one, else
in the memory word at PC (`40_cycle.md` R200; log 23). -/
def State.withFetchWord (s : State) (nbits w : Nat) : State :=
  let word : Word := BitVec.ofNat 16 (w % 2 ^ nbits)
  match boundsCheck (sval s.pc) with
  | .error _ => s
  | .ok p =>
    match cacheLookup s.cache p with
    | some _ => { s with cache := cacheSet s.cache p word }
    | none => { s with mem := writeWord s.mem p word }

end Sys2Proof.Machine
end

