-- ==== Sys2Proof/Machine/HostOps.lean ====
section
/-! DEFINITION. What the host does with the core (`48_io.md` R547): program load, set mode, reset,
status read, and its answer to a console input request. None of these is a step of the core. -/

namespace Sys2Proof.Machine

/-! ## Reset (`70_reset_and_hazards.md` R700) -/

/-- Flush the write buffer, oldest first. -/
def flushAll (s : State) (pending : List Nat) : State :=
  match pending with
  | [] => s
  | p :: rest => flushAll (flushAddress s p) rest

/-- Reset(): memory apart from the flush, `running_user_program`, the model marks and the run's console
sequences stay (R700, R66; log 10). -/
def applyReset (s : State) : State :=
  { flushAll s s.writeBuffer with
    r0 := 0
    r1 := 0
    r2 := 0
    r3 := 0
    x1 := 0
    x2 := 0
    x3 := 0
    fr0 := 0
    fr1 := 0
    mar := 0
    mbr := 0
    ir := 0
    iar := 0
    irr := 0
    rs1 := 0
    mfr := 0
    cc := { overflow := false, underflow := false, divzero := false, equal := false }
    cyc := CycleFlags.cleared
    writeBuffer := []
    cache := []
    memoryFault := .none
    halted := false
    pc := s.pcOf (if s.runningUserProgram then wrap16 s.off else 0) }

/-! ## Set mode, console answer -/

/-- The host chooses `running_user_program` before reset or load (`10_state.md` R61). -/
def setMode (user : Bool) (s : State) : State := { s with runningUserProgram := user }

/-- The host supplies one answer for a console input request (`48_io.md` R545). -/
def supplyAnswer (a : Answer) (s : State) : State := { s with consoleInput := s.consoleInput ++ [a] }

/-! ## Program load (`70_reset_and_hazards.md` R710) -/

/-- One `(address, value)` pair of a load: a boot pair is placed raw, a user pair through the bias. -/
structure LoadPair where
  raw     : Bool
  address : Int
  value   : Int
  deriving DecidableEq, Repr

/-- The physical address a pair goes to. -/
def LoadPair.phys (q : LoadPair) (s : State) : Int := if q.raw then q.address else q.address + s.bias

/-- The pair is acceptable: inside memory, and a value of −32768…65535 (R710, D40). -/
def LoadPair.ok (q : LoadPair) (s : State) : Bool :=
  decide (0 ≤ q.phys s) && decide (q.phys s < 2048) && decide (-32768 ≤ q.value) && decide (q.value ≤ 65535)

/-- The pairs placed in order; the loader bypasses the cache. -/
def placePairs (s : State) (pairs : List LoadPair) : State :=
  match pairs with
  | [] => s
  | q :: rest => placePairs { s with mem := writeWord s.mem (q.phys s).toNat (wrap16 q.value) } rest

/-- A program load: checked whole first; a malformed one changes no memory and marks `refused` (R710). -/
def loadProgram (pairs : List LoadPair) (s : State) : State :=
  if pairs.all (fun q => q.ok s) then placePairs s pairs else { s with refused := true }

/-! ## Status read (`10_state.md` R60) -/

/-- What the host may read between cycles. -/
structure Status where
  gprs   : List Word
  ixrs   : List Word
  fprs   : List Word
  pc     : Word
  mar    : Word
  mbr    : Word
  ir     : Word
  iar    : Word
  irr    : Word
  rs1    : BitVec 2
  cc     : CC
  mfr    : BitVec 4
  halted : Bool
  deriving DecidableEq, Repr

/-- The status interface: every architectural register, CC, MFR and `halted` (`10_state.md` R60). -/
def readStatus (s : State) : Status where
  gprs   := [s.r0, s.r1, s.r2, s.r3]
  ixrs   := [s.x1, s.x2, s.x3]
  fprs   := [s.fr0, s.fr1]
  pc     := s.pc
  mar    := s.mar
  mbr    := s.mbr
  ir     := s.ir
  iar    := s.iar
  irr    := s.irr
  rs1    := s.rs1
  cc     := s.cc
  mfr    := s.mfr
  halted := s.halted

end Sys2Proof.Machine
end

