-- ==== Sys2Proof/Safety.lean ====
section
/-! DEFINITION. The terms statements are made in: when an instruction's operand can be read, the end of
a cycle, the invariant of the machine between steps, the launch premise, the normal final state. -/

namespace Sys2Proof.Machine

/-- The premise under which an instruction passes FETCH_OPERAND (`40_cycle.md` R210, R212, R224): the
core runs, the effective address resolves to `ea` and the word at MAR, which takes `ea`, is `w`. -/
structure OperandReady (s : State) (indexed indirect : Bool) (f : OperandFields) (ea w : Word) : Prop where
  runs    : s.halted = false
  address : s.effectiveAddress indexed indirect f = .ok ea
  operand : s.peek (s.marOf ea) = .ok w

/-- The condition under which FETCH_OPERAND faults, and what IAR and MAR hold then: the pointer of an
indirect operand, or the word at the effective address, lies outside memory (`40_cycle.md` R210, R222). -/
def OperandFaults (s : State) (indexed indirect : Bool) (f : OperandFields) (k : FaultKind)
    (iar mar : Word) : Prop :=
  (s.effectiveAddress indexed indirect f = .error k ∧ iar = s.indexedAddress indexed f ∧ mar = s.mar) ∨
    (s.effectiveAddress indexed indirect f = .ok iar ∧ mar = s.marOf iar ∧ s.peek mar = .error k)

/-- What one step keeps, in every state between steps:
the memory and the cache in their canonical forms; every buffered address cached, at most 4 of them,
none under FLUSH_EACH (`10_state.md` R64); the latch NONE and no fault pending (`60_exceptions.md`
R612); MFR 0 or one-hot (R626); the cycle-scoped flags cleared unless the cycle is not over
(`10_state.md` R57); a held core running, with nothing to deposit (`48_io.md` R545);
PC and MAR hold values of their widths (`10_state.md` R40). -/
structure State.Inv (s : State) : Prop where
  memory    : Memory.wf s.mem = true
  cache     : CacheMap.wf s.cache = true
  buffered  : ∀ p ∈ s.writeBuffer, (cacheLookup s.cache p).isSome
  depth     : s.writeBuffer.length ≤ 4
  flushEach : s.cfg.wbPolicy = .flushEach → s.writeBuffer = []
  latch     : s.memoryFault = .none
  pending   : s.cyc.pendingFault = none
  mfr       : s.mfr ∈ [0#4, 1#4, 2#4, 4#4, 8#4]
  flags     : s.halted = false → s.inputWait = none → s.cyc = CycleFlags.cleared
  held      : s.inputWait.isSome → s.cyc.target = .none ∧ s.cyc.trapTaken = false
  pcValue   : s.cfg.pcWidth.Holds s.pc
  marValue  : s.cfg.marWidth.Holds s.mar

/-- The launch premise (`70_reset_and_hazards.md` R704): halted = 0, refused = 0, MFR = 0, CC = 0, cache
and buffer empty, latch NONE, no input waiting. -/
structure State.Launch (s : State) : Prop where
  running  : s.halted = false
  meaning  : s.refused = false
  mfr      : s.mfr = 0
  cc       : s.cc = { overflow := false, underflow := false, divzero := false, equal := false }
  cache    : s.cache = []
  buffer   : s.writeBuffer = []
  latch    : s.memoryFault = .none
  waiting  : s.inputWait = none

/-- The normal final state of a run (`49_system.md` R571). -/
def State.NormalFinal (s : State) : Prop := s.halted = true ∧ s.refused = false

/-- A state on which `step` starts a cycle: not refused, not halted, not held. -/
structure State.Starts (s : State) : Prop where
  meaning : s.refused = false
  running : s.halted = false
  free    : s.inputWait = none

/-- The state FETCH and the first lines of DECODE leave, with the word `w` fetched at PC
(`40_cycle.md` R200, R201). -/
def State.fetched (s : State) (w : Word) : State :=
  { s with
    mar := s.marOf s.pc
    mbr := w
    ir := w
    rs1 := rField w
    cyc := { s.cyc with nextPc := wrap16 (sval s.pc + 1) } }

/-- What FETCH finds at PC: the cached word if there is one, else the word of memory, if the PC lies in
memory (`20_memory.md` R142). -/
def State.FetchReads (s : State) (w : Word) : Prop :=
  s.cacheGet (sval s.pc) = some w ∨
    (s.cacheGet (sval s.pc) = none ∧ ∃ p, boundsCheck (sval s.pc) = .ok p ∧ readWord s.mem p = w)

/-- The logical address of the word after `a` (`47_float_vector.md` R480). -/
def nextWord (a : Word) : Word := wrap16 (sval a + 1)

/-- Element `i` of a vector at base `b` (`47_float_vector.md` R490). -/
def vectorAddress (b : Word) (i : Nat) : Word := wrap16 (sval b + i)

/-- Condition codes with no bit set. -/
def CC.clear : CC := { overflow := false, underflow := false, divzero := false, equal := false }

/-- `run k` is the state in which element `k` of a vector operation starts: each of the first `n` elements,
in increasing order, reads its two words there, writes the flags and stores the result through the cache
(`47_float_vector.md` R492). -/
def VectorRun (op : Word → Word → CC → Word × CC) (b1 b2 : Word) (n : Nat) (run : Nat → State) : Prop :=
  ∀ k < n, ∃ a b : Word,
    (run k).peek (vectorAddress b1 k) = .ok a ∧ (run k).peek (vectorAddress b2 k) = .ok b ∧
    cachedInsert (vectorAddress b1 k) (op a b (run k).cc).1 { run k with cc := (op a b (run k).cc).2 } =
      .ok () (run (k + 1))

end Sys2Proof.Machine
end

