-- ==== Sys2Proof/Certificates/Slice0/Obligations.lean ====
section
/-! DEFINITION. The statements for the provers. In the statements about one instruction, `s` is the
state FETCH and the opcode lookup have left (log 12), and an equation `exec i s = .next t` gives the
whole next state: what `t` does not mention is as in `s`. Each holds for every value of the parameters of
`00_scope.md` R10; PC and MAR take values reduced to their widths (`pcOf`, `marOf`; log 26), which for the
default width are the values themselves (O9, O17). -/

open Sys2Proof Sys2Proof.Machine

/-! ## Encoding and decoding -/

/-- Words of `95_test_vectors.md` (V30, V31, V32, V40, V55, V128, V205, V239, V267, V284), one or two for
each format of `30_encoding.md`, decode to the instruction they stand for. -/
def Obligations.SpecWordsDecode : Prop :=
  decodeWord OpcodeMap.default 0x0405#16 = .ok (.ldr 0 0 false 5) ∧
  decodeWord OpcodeMap.default 0x0565#16 = .ok (.ldr 1 1 true 5) ∧
  decodeWord OpcodeMap.default 0x03FF#16 = .ok .hlt ∧
  decodeWord OpcodeMap.default 0x64C2#16 = .ok (.src 0 true true 2) ∧
  decodeWord OpcodeMap.default 0x18E3#16 = .ok (.air 0 3) ∧
  decodeWord OpcodeMap.default 0x8445#16 = .ok (.ldx 1 false 5) ∧
  decodeWord OpcodeMap.default 0x55C0#16 = .ok (.notr 1) ∧
  decodeWord OpcodeMap.default 0x750A#16 = .ok (.vadd 1 0 false 10) ∧
  decodeWord OpcodeMap.default 0xC901#16 = .ok (.out 1 1) ∧
  decodeWord OpcodeMap.default 0x6010#16 = .ok (.trap 16)

/-- Decode and encode agree for every instruction, with every operand at every value (R161–R171), under
every OPCODE_MAP that names no opcode twice.
Rests on the choice: D3, D4. -/
def Obligations.DecodeOfEncodeIsTheInstruction : Prop :=
  ∀ (m : OpcodeMap) (i : Instr), m.Distinct → decodeWord m (encode m i) = .ok i

/-- Only bits its format ignores can be lost when a decoded word is encoded again, under any OPCODE_MAP: the
opcode is kept and every 1 of the new word stands in the old one (R175). Where a map names an opcode twice
the first mnemonic of the catalogue has it (log 5).
Rests on the choice: D35, log 5. -/
def Obligations.EncodeOfDecodeDropsOnlyBits : Prop :=
  ∀ (m : OpcodeMap) (w : Word) (i : Instr), decodeWord m w = .ok i →
    opField (encode m i) = opField w ∧ encode m i &&& w = encode m i ∧ decodeWord m (encode m i) = .ok i

/-- R173: exactly the words whose opcode is not in the OPCODE_MAP spell no instruction; with the default map
these are the 27 unassigned opcode values. DECODE raises ILLEGAL_OPERATION_CODE on such a word, whatever
its other 10 bits are.
Rests on the choice: D3. -/
def Obligations.UnassignedOpcodesRaiseIllegalOperation : Prop :=
  (∀ (m : OpcodeMap) (w : Word), (∃ r, decodeWord m w = .error r) ↔ ∀ k, m.code k ≠ opField w) ∧
  (∀ w : Word, (∃ r, decodeWord OpcodeMap.default w = .error r) ↔
    (opField w).toNat ∈ [22, 23, 32, 35, 36, 37, 38, 39, 42, 43, 44, 45, 46, 47, 48, 52, 53, 54, 55, 56,
      57, 58, 59, 60, 61, 62, 63]) ∧
  (∀ (s : State) (w : Word) (r : DecodeReject), s.Starts → s.FetchReads w →
    decodeWord s.cfg.opcodeMap w = .error r →
    step s = .next (faultEntry .illegalOperationCode (s.fetched w)))

/-- The field values that `30_encoding.md` R174 lets DECODE judge: an instruction that fails its check
takes the ILLEGAL_OPERATION_CODE fault at once, with no other effect than the fault's, whatever its
address fields are (R603).
Rests on the choice: D15, D17, D29. -/
def Obligations.IllegalSelectorsRaiseIllegalOperation : Prop :=
  ∀ (i : Instr) (s : State), i.wellFormed = false →
    ∃ rs1 : BitVec 2, exec i s = .next { faultEntry .illegalOperationCode s with rs1 := rs1 }

/-! ## The step -/

/-- A step runs the decoded instruction: FETCH, the latches of DECODE, then the instruction's own cycle;
only a step without meaning is replaced by the mark `refused` (`40_cycle.md` R200, R201, R221). -/
def Obligations.StepRunsTheDecodedInstruction : Prop :=
  ∀ (s : State) (w : Word) (i : Instr), s.Starts → s.FetchReads w → decodeWord s.cfg.opcodeMap w = .ok i →
    step s = markRefused s (exec i (s.fetched w))

/-- A PC outside memory with no cache entry faults at FETCH: RESERVED when it is negative, OUT_OF_BOUNDS
from 2048 on; the saved PC is that address (`10_state.md` R47).
Rests on the choice: log 26 for other widths than the default. -/
def Obligations.FetchOutsideMemoryFaults : Prop :=
  ∀ s : State, s.Starts → s.cacheGet (sval s.pc) = none →
    (sval s.pc < 0 →
      step s = .next (faultEntry .reserved ({ s with mar := s.marOf s.pc }.memfault .reserved))) ∧
    (2048 ≤ sval s.pc →
      step s = .next (faultEntry .outOfBounds ({ s with mar := s.marOf s.pc }.memfault .outOfBounds)))

/-- R224: a cycle runs only when halted = 0; a halted core has no step and leaves that state only by
reset. The model's step says so with the stop `halted`.
Rests on the choice: D42; that the stop is named `halted` is the model's choice, log 8. -/
def Obligations.HaltedCoreHasNoStep : Prop :=
  (∀ s : State, s.halted = true → s.refused = false → step s = .fault .halted) ∧
  (∀ s t : State, s.halted = true → step s ≠ .next t) ∧
  (∀ s : State, (applyReset s).halted = false)

/-! ## Load and store (`42_load_store.md`) -/

/-- LDR: R[r] takes the word at the effective address. LDA: R[r] takes the logical effective address
itself; the operand is read all the same. No flag and no memory changes. The operand is read through MAR,
which keeps the low MAR_WIDTH bits of the address: with the default of 16 bits signed the address itself.
Rests on the choice: log 26 for other widths than the default. -/
def Obligations.LdrAndLdaLoadTheRegister : Prop :=
  ∀ (s : State) (r ix : BitVec 2) (i : Bool) (addr : BitVec 5) (ea w : Word),
    OperandReady s true true { ix := ix, indirect := i, addr := addr } ea w →
    exec (.ldr r ix i addr) s =
      .next (((((s.latchRs1 r).operandRead ea w).setIrr w).setGpr r w).endCycle s.cyc.nextPc) ∧
    exec (.lda r ix i addr) s =
      .next (((((s.latchRs1 r).operandRead ea w).setIrr ea).setGpr r ea).endCycle s.cyc.nextPc) ∧
    (s.cfg.marWidth = .signed 16 → s.marOf ea = ea) ∧
    (∀ n, s.cfg.marWidth = .unsigned n → sval (s.marOf ea) = sval ea % 2 ^ n.val)

/-- STR: R[r] goes to the effective address through the cache. Under FLUSH_EACH memory holds it when the
instruction ends and no other word changes; under FIFO memory changes only where the oldest buffered
address is flushed. Nothing but the cache, the buffer, memory and the internal registers changes.
Rests on the choice: D6, D7, log 26 for other widths than the default. -/
def Obligations.StrStoresThroughTheCache : Prop :=
  ∀ (s : State) (r ix : BitVec 2) (i : Bool) (addr : BitVec 5) (ea w : Word) (p : Nat),
    OperandReady s true true { ix := ix, indirect := i, addr := addr } ea w →
    boundsCheck (s.phys (s.marOf ea)) = .ok p →
    ∃ t : State, exec (.str r ix i addr) s = .next t ∧
      t = { ((((s.latchRs1 r).operandRead ea w).setIrr (s.gpr r)).endCycle s.cyc.nextPc) with
            mem := t.mem, cache := t.cache, writeBuffer := t.writeBuffer } ∧
      t.cache = cacheSet s.cache p (s.gpr r) ∧
      (∀ q, cacheLookup t.cache q = if q = p then some (s.gpr r) else cacheLookup s.cache q) ∧
      (s.cfg.wbPolicy = .flushEach →
        t.writeBuffer = [] ∧
        ∀ q, readWord t.mem q = if q = p then s.gpr r else readWord s.mem q) ∧
      (s.cfg.wbPolicy = .fifo → s.writeBuffer.length ≠ 4 →
        t.writeBuffer = s.writeBuffer ++ [p] ∧ t.mem = s.mem) ∧
      (∀ (h : Nat) (rest : List Nat) (x : Word), s.cfg.wbPolicy = .fifo → s.writeBuffer = h :: rest →
        s.writeBuffer.length = 4 → cacheLookup t.cache h = some x →
        t.writeBuffer = rest ++ [p] ∧
        ∀ q, readWord t.mem q = if q = h then x else readWord s.mem q)

/-- LDX: the index register the IX field names takes the word at an address that is not indexed.
Rests on the choice: D15. -/
def Obligations.LdxLoadsAnIndexRegister : Prop :=
  ∀ (s : State) (x : BitVec 2) (j : IxReg) (i : Bool) (addr : BitVec 5) (ea w : Word),
    OperandReady s false true { ix := x, indirect := i, addr := addr } ea w → ixReg x = some j →
    exec (.ldx x i addr) s =
      .next ((((s.operandRead ea w).setIrr w).setXr j w).endCycle s.cyc.nextPc)

/-- STX: the index register goes to memory at an address that is not indexed, past the cache: the cache
and the buffer stay as they are, and no other word of memory changes.
Rests on the choice: D7, log 26 for other widths than the default. -/
def Obligations.StxStoresPastTheCache : Prop :=
  ∀ (s : State) (x : BitVec 2) (j : IxReg) (i : Bool) (addr : BitVec 5) (ea w : Word) (p : Nat),
    OperandReady s false true { ix := x, indirect := i, addr := addr } ea w → ixReg x = some j →
    boundsCheck (s.phys (s.marOf ea)) = .ok p →
    ∃ t : State, exec (.stx x i addr) s = .next t ∧
      t = { (((s.operandRead ea w).setIrr (s.xr j)).endCycle s.cyc.nextPc) with mem := t.mem } ∧
      ∀ q, readWord t.mem q = if q = p then s.xr j else readWord s.mem q

/-! ## Arithmetic (`43_arith.md`) -/

/-- AMR, SMR, AIR, SIR: R[r] takes the sum or difference with the operand or the zero-extended
immediate, and CC what the ALU leaves; memory is unchanged.
Rests on the choice: D20. -/
def Obligations.IntegerArithmeticWritesSumOrDifference : Prop :=
  ∀ (s : State) (r ix : BitVec 2) (i : Bool) (addr immed : BitVec 5) (ea w : Word),
    (OperandReady s true true { ix := ix, indirect := i, addr := addr } ea w →
      exec (.amr r ix i addr) s =
        .next { (((((s.latchRs1 r).operandRead ea w).setIrr (aluAdd (s.gpr r) w s.cc).1).setGpr r
          (aluAdd (s.gpr r) w s.cc).1).endCycle s.cyc.nextPc) with cc := (aluAdd (s.gpr r) w s.cc).2 } ∧
      exec (.smr r ix i addr) s =
        .next { (((((s.latchRs1 r).operandRead ea w).setIrr (aluSubtract (s.gpr r) w s.cc).1).setGpr r
          (aluSubtract (s.gpr r) w s.cc).1).endCycle s.cyc.nextPc) with
            cc := (aluSubtract (s.gpr r) w s.cc).2 }) ∧
    (OperandReady s false false (plainFields immed) ea w →
      exec (.air r immed) s =
        .next { (((((s.latchRs1 r).operandRead ea w).setIrr
          (aluAdd (s.gpr r) (immed.setWidth 16) s.cc).1).setGpr r
          (aluAdd (s.gpr r) (immed.setWidth 16) s.cc).1).endCycle s.cyc.nextPc) with
            cc := (aluAdd (s.gpr r) (immed.setWidth 16) s.cc).2 } ∧
      exec (.sir r immed) s =
        .next { (((((s.latchRs1 r).operandRead ea w).setIrr
          (aluSubtract (s.gpr r) (immed.setWidth 16) s.cc).1).setGpr r
          (aluSubtract (s.gpr r) (immed.setWidth 16) s.cc).1).endCycle s.cyc.nextPc) with
            cc := (aluSubtract (s.gpr r) (immed.setWidth 16) s.cc).2 })

/-- R252: add. The result is the sum reduced to 16 bits; OVERFLOW is set exactly when both operands are
non-negative and the result negative, which is when the exact sum exceeds 32767; UNDERFLOW exactly when
both are negative and the result is not, which is when the sum is below −32768; no bit is cleared and no
other bit written. -/
def Obligations.AddSetsOverflowAndUnderflow : Prop :=
  ∀ (a b : Word) (c : CC),
    (aluAdd a b c).1 = wrap16 (sval a + sval b) ∧
    (aluAdd a b c).2.divzero = c.divzero ∧ (aluAdd a b c).2.equal = c.equal ∧
    ((aluAdd a b c).2.overflow = true ↔ c.overflow = true ∨ 32767 < sval a + sval b) ∧
    ((aluAdd a b c).2.underflow = true ↔ c.underflow = true ∨ sval a + sval b < -32768) ∧
    ((0 ≤ sval a ∧ 0 ≤ sval b ∧ sval (aluAdd a b c).1 < 0) ↔ 32767 < sval a + sval b) ∧
    ((sval a < 0 ∧ sval b < 0 ∧ 0 ≤ sval (aluAdd a b c).1) ↔ sval a + sval b < -32768)

/-- R253: subtract, with its strict comparisons: OVERFLOW exactly when the exact difference exceeds 32767
and a is not 0; UNDERFLOW exactly when it is below −32768; no bit is cleared and no other bit written.
Rests on the choice: D48. -/
def Obligations.SubtractFlagsAreStrict : Prop :=
  ∀ (a b : Word) (c : CC),
    (aluSubtract a b c).1 = wrap16 (sval a - sval b) ∧
    (aluSubtract a b c).2.divzero = c.divzero ∧ (aluSubtract a b c).2.equal = c.equal ∧
    ((aluSubtract a b c).2.overflow = true ↔
      c.overflow = true ∨ (0 < sval a ∧ sval b < 0 ∧ sval (aluSubtract a b c).1 < 0)) ∧
    ((aluSubtract a b c).2.underflow = true ↔
      c.underflow = true ∨ (sval a < 0 ∧ 0 < sval b ∧ 0 < sval (aluSubtract a b c).1)) ∧
    ((0 < sval a ∧ sval b < 0 ∧ sval (aluSubtract a b c).1 < 0) ↔
      32767 < sval a - sval b ∧ sval a ≠ 0) ∧
    ((sval a < 0 ∧ 0 < sval b ∧ 0 < sval (aluSubtract a b c).1) ↔ sval a - sval b < -32768)

/-! ## Control transfer (`44_transfer.md`) -/

/-- JZ, JNE, JGE, JCC: the PC takes EA + BIAS when the condition holds, else next_pc; no register but the
internal ones, no flag and no memory changes.
Rests on the choice: D9, D21, D23. -/
def Obligations.ConditionalJumpsTakeTheTarget : Prop :=
  ∀ (s : State) (r ix : BitVec 2) (i : Bool) (addr : BitVec 5) (ea w : Word),
    OperandReady s true true { ix := ix, indirect := i, addr := addr } ea w →
    ∀ target : Word, target = wrap16 (sval ea + (if s.cfg.branchBias then s.bias else 0)) →
    exec (.jz r ix i addr) s = .next (((s.latchRs1 r).operandRead ea w).endCycle
      (if sval (s.gpr r) = 0 then target else s.cyc.nextPc)) ∧
    exec (.jne r ix i addr) s = .next (((s.latchRs1 r).operandRead ea w).endCycle
      (if sval (s.gpr r) ≠ 0 then target else s.cyc.nextPc)) ∧
    exec (.jge r ix i addr) s = .next (((s.latchRs1 r).operandRead ea w).endCycle
      (if 0 ≤ sval (s.gpr r) then target else s.cyc.nextPc)) ∧
    exec (.jcc r ix i addr) s = .next (((s.latchRs1 r).operandRead ea w).endCycle
      (if s.cc.get r = true then target else s.cyc.nextPc))

/-- JMA goes to EA + BIAS; JSR also saves next_pc in R3; RFS puts the zero-extended immediate in R0 and
goes to the value of R3, without a bias; nothing else changes but the internal registers. PC keeps the low
PC_WIDTH bits of a target: with the default of 16 bits signed the target itself.
Rests on the choice: D9, D22, log 26 for other widths than the default. -/
def Obligations.JmaJsrRfsTransferControl : Prop :=
  ∀ (s : State) (ix : BitVec 2) (i : Bool) (addr immed : BitVec 5) (ea w : Word),
    (OperandReady s true true { ix := ix, indirect := i, addr := addr } ea w →
      ∀ target : Word, target = wrap16 (sval ea + (if s.cfg.branchBias then s.bias else 0)) →
      exec (.jma ix i addr) s = .next ((s.operandRead ea w).endCycle target) ∧
      exec (.jsr ix i addr) s = .next (((s.operandRead ea w).setGpr 3 s.cyc.nextPc).endCycle target)) ∧
    (OperandReady s false false (plainFields immed) ea w →
      exec (.rfs immed) s =
        .next (((s.operandRead ea w).setGpr 0 (immed.setWidth 16)).endCycle (s.gpr 3))) ∧
    (∀ target : Word, (s.endCycle target).pc = s.pcOf target ∧
      (s.cfg.pcWidth = .signed 16 → s.pcOf target = target) ∧
      ∀ n, s.cfg.pcWidth = .unsigned n → sval (s.pcOf target) = sval target % 2 ^ n.val)

/-- SOB: R[r] is decremented through the ALU's subtract, with its flags, and the jump is taken while the
result is greater than 0; UNDERFLOW is set exactly when R[r] was −32768, and no other flag is written.
Rests on the choice: D19. -/
def Obligations.SobDecrementsAndBranches : Prop :=
  ∀ (s : State) (r ix : BitVec 2) (i : Bool) (addr : BitVec 5) (ea w : Word),
    OperandReady s true true { ix := ix, indirect := i, addr := addr } ea w →
    exec (.sob r ix i addr) s =
      .next { ((((s.latchRs1 r).operandRead ea w).setGpr r (wrap16 (sval (s.gpr r) - 1))).endCycle
        (if 0 < sval (wrap16 (sval (s.gpr r) - 1))
          then wrap16 (sval ea + (if s.cfg.branchBias then s.bias else 0)) else s.cyc.nextPc)) with
        cc := { s.cc with underflow := s.cc.underflow || decide (sval (s.gpr r) = -32768) } }

/-! ## Register to register (`45_reg_reg.md`) -/

/-- MLT with MLT_HALF = 16: the pair R[rx], R[rx+1] holds the exact signed product, high half first, and
no flag is set. With MLT_HALF = 8 the two low bytes hold the product modulo 2^16, zero-extended, and the
flags follow the sign rule of R254. Nothing else changes but the internal registers.
Rests on the choice: D16, D17. -/
def Obligations.MltWritesTheProductPair : Prop :=
  ∀ (s : State) (rx ry : BitVec 2) (ea w : Word), OperandReady s false false (plainFields s.irAddr) ea w →
    checkPair rx ry = true →
    ∃ (hi lo : Word) (c : CC),
      exec (.mlt rx ry) s =
        .next { ((((s.latchRs1 rx).operandRead ea w).setGpr rx hi).setGpr (rx + 1) lo).endCycle
          s.cyc.nextPc with cc := c } ∧
      (s.cfg.mltHalf = .sixteen →
        c = s.cc ∧ sval hi * 65536 + uval lo = sval (s.gpr rx) * sval (s.gpr ry)) ∧
      (s.cfg.mltHalf = .eight →
        uval hi < 256 ∧ uval lo < 256 ∧
        ((uval hi * 256 + uval lo : Nat) : Int) = (sval (s.gpr rx) * sval (s.gpr ry)) % 65536 ∧
        c = { s.cc with
          overflow := s.cc.overflow || decide
            ((0 ≤ sval (s.gpr rx) ↔ 0 ≤ sval (s.gpr ry)) ∧
              sval (wrap16 (sval (s.gpr rx) * sval (s.gpr ry))) < 0)
          underflow := s.cc.underflow || decide
            (¬ (0 ≤ sval (s.gpr rx) ↔ 0 ≤ sval (s.gpr ry)) ∧
              0 < sval (wrap16 (sval (s.gpr rx) * sval (s.gpr ry)))) })

/-- DVD: with a nonzero divisor R[rx] takes the quotient toward zero and R[rx+1] the remainder with the
sign of the dividend, reduced to 16 bits, and no flag changes; with divisor 0 only DIVZERO is set and no
general register is written.
Rests on the choice: D17, D18. -/
def Obligations.DvdWritesQuotientAndRemainder : Prop :=
  ∀ (s : State) (rx ry : BitVec 2) (ea w : Word), OperandReady s false false (plainFields s.irAddr) ea w →
    checkPair rx ry = true →
    (sval (s.gpr ry) ≠ 0 →
      ∃ q r : Int, sval (s.gpr rx) = sval (s.gpr ry) * q + r ∧ |r| < |sval (s.gpr ry)| ∧
        (0 ≤ sval (s.gpr rx) → 0 ≤ r) ∧ (sval (s.gpr rx) ≤ 0 → r ≤ 0) ∧
        exec (.dvd rx ry) s =
          .next (((((s.latchRs1 rx).operandRead ea w).setGpr rx (wrap16 q)).setGpr (rx + 1)
            (wrap16 r)).endCycle s.cyc.nextPc)) ∧
    (sval (s.gpr ry) = 0 →
      exec (.dvd rx ry) s =
        .next { ((s.latchRs1 rx).operandRead ea w).endCycle s.cyc.nextPc with
          cc := { s.cc with divzero := true } })

/-- TRR writes EQUAL only, to 1 or to 0; AND, ORR, NOT write R[rx] only and no flag. -/
def Obligations.TestAndLogicWriteTheirResult : Prop :=
  ∀ (s : State) (rx ry : BitVec 2) (ea w : Word), OperandReady s false false (plainFields s.irAddr) ea w →
    exec (.trr rx ry) s = .next { ((s.latchRs1 rx).operandRead ea w).endCycle s.cyc.nextPc with
      cc := { s.cc with equal := decide (s.gpr rx = s.gpr ry) } } ∧
    exec (.andr rx ry) s = .next ((((s.latchRs1 rx).operandRead ea w).setGpr rx
      (s.gpr rx &&& s.gpr ry)).endCycle s.cyc.nextPc) ∧
    exec (.orr rx ry) s = .next ((((s.latchRs1 rx).operandRead ea w).setGpr rx
      (s.gpr rx ||| s.gpr ry)).endCycle s.cyc.nextPc) ∧
    exec (.notr rx) s = .next ((((s.latchRs1 rx).operandRead ea w).setGpr rx
      (wrap16 (-sval (s.gpr rx) - 1))).endCycle s.cyc.nextPc)

/-! ## Shift and rotate (`46_shift_rotate.md`) -/

/-- SRC: a left shift multiplies by 2^n modulo 2^16, an arithmetic right shift is the floor of the signed
value over 2^n, a logical one of the unsigned value; bits lost set OVERFLOW on an arithmetic left shift
and UNDERFLOW on an arithmetic right shift, and nothing else is written. Count 0 changes nothing.
Rests on the choice: D4, D5, D49. -/
def Obligations.SrcShiftsTheRegister : Prop :=
  ∀ (s : State) (r : BitVec 2) (al lr : Bool) (count : BitVec 4) (ea w : Word),
    OperandReady s false false (plainFields s.irAddr) ea w →
    ∀ left arith : Bool, left = (if s.cfg.shiftFlagSwap then al else lr) →
      (arith = true ↔ (if s.cfg.shiftFlagSwap then lr else al) = s.cfg.alArithValue) →
    ∃ (v : Word) (c : CC),
      exec (.src r al lr count) s = .next { (((s.latchRs1 r).operandRead ea w).setGpr r v).endCycle
        s.cyc.nextPc with cc := c } ∧
      (count = 0 → v = s.gpr r) ∧
      (left = true → v = wrap16 (sval (s.gpr r) * 2 ^ count.toNat) ∧
        c = { s.cc with overflow :=
          s.cc.overflow || (arith && decide (65536 ≤ uval (s.gpr r) * 2 ^ count.toNat)) }) ∧
      (left = false → arith = true → v = wrap16 (sval (s.gpr r) / 2 ^ count.toNat) ∧
        c = { s.cc with underflow :=
          s.cc.underflow || decide (¬ 2 ^ count.toNat ∣ uval (s.gpr r)) }) ∧
      (left = false → arith = false → uval v = uval (s.gpr r) / 2 ^ count.toNat ∧ c = s.cc)

/-- RRC: with A/L = AL_ARITH_VALUE the 16 bits move circularly by the count, left or right; otherwise
R[r] is unchanged; no flag is written.
Rests on the choice: D4, D5. -/
def Obligations.RrcRotatesTheRegister : Prop :=
  ∀ (s : State) (r : BitVec 2) (al lr : Bool) (count : BitVec 4) (ea w : Word),
    OperandReady s false false (plainFields s.irAddr) ea w →
    ∀ left rotates : Bool, left = (if s.cfg.shiftFlagSwap then al else lr) →
      (rotates = true ↔ (if s.cfg.shiftFlagSwap then lr else al) = s.cfg.alArithValue) →
    ∃ v : Word,
      exec (.rrc r al lr count) s =
        .next ((((s.latchRs1 r).operandRead ea w).setGpr r v).endCycle s.cyc.nextPc) ∧
      (rotates = false → v = s.gpr r) ∧
      (rotates = true → left = true →
        ∀ k < 16, v.getLsbD ((k + count.toNat) % 16) = (s.gpr r).getLsbD k) ∧
      (rotates = true → left = false →
        ∀ k < 16, v.getLsbD k = (s.gpr r).getLsbD ((k + count.toNat) % 16))

/-! ## Floating point and vector (`47_float_vector.md`) -/

/-- LDFR: FR[fr] takes the pattern of the two words at EA and EA + 1, no flag; IRR takes the operand word.
Rests on the choice: D27. -/
def Obligations.LdfrLoadsThePair : Prop :=
  ∀ (s : State) (fr ix : BitVec 2) (j : FReg) (i : Bool) (addr : BitVec 5) (ea w hi lo : Word),
    OperandReady s true true { ix := ix, indirect := i, addr := addr } ea w → fReg fr = some j →
    s.peek ea = .ok hi → s.peek (nextWord ea) = .ok lo →
    exec (.ldfr fr ix i addr) s = .next (((((s.latchRs1 fr).operandRead ea w).setIrr w).setFr j
      (fpFromWords hi lo)).endCycle s.cyc.nextPc)

/-- STFR: the two words of FR[fr] go to EA and EA + 1 past the cache, and no other word of memory
changes. When EA + 1 is out of range the first word stays written and the fault is taken (R614).
Rests on the choice: D7, D12, D27, log 26 for other widths than the default. -/
def Obligations.StfrStoresThePair : Prop :=
  ∀ (s : State) (fr ix : BitVec 2) (j : FReg) (i : Bool) (addr : BitVec 5) (ea w : Word) (p : Nat),
    OperandReady s true true { ix := ix, indirect := i, addr := addr } ea w → fReg fr = some j →
    boundsCheck (s.phys (s.marOf ea)) = .ok p →
    (∀ q, boundsCheck (s.phys (nextWord (s.marOf ea))) = .ok q →
      ∃ t : State, exec (.stfr fr ix i addr) s = .next t ∧
        t = { ((((s.latchRs1 fr).operandRead ea w).setIrr (s.fr j)).endCycle s.cyc.nextPc) with
              mem := t.mem } ∧
        ∀ a, readWord t.mem a = if a = q then (fpToWords (s.fr j)).2
          else if a = p then (fpToWords (s.fr j)).1 else readWord s.mem a) ∧
    (∀ k, boundsCheck (s.phys (nextWord (s.marOf ea))) = .error k →
      ∃ u : State, exec (.stfr fr ix i addr) s = .next (faultEntry k (u.memfault k)) ∧
        u = { (((s.latchRs1 fr).operandRead ea w).setIrr (s.fr j)) with mem := u.mem } ∧
        ∀ a, readWord u.mem a = if a = p then (fpToWords (s.fr j)).1 else readWord s.mem a)

/-- R280: the two-word memory form of a FloatRegister.
Rests on the choice: D27. -/
def Obligations.FloatWordsAreTheTwoBytes : Prop :=
  (∀ hi lo : Word, uval (fpFromWords hi lo) = uval hi % 256 * 256 + uval lo % 256) ∧
  (∀ f : Word, uval (fpToWords f).1 = uval f / 256 ∧ uval (fpToWords f).2 = uval f % 256) ∧
  (∀ f : Word, fpFromWords (fpToWords f).1 (fpToWords f).2 = f)

/-- FADD and FSUB: FR[fr] takes the encoding, by FP_ENCODE, of the exact sum or difference with the pair at
EA, and CC what the encoder leaves; memory is unchanged. With the default FP_ENCODE the encoder is that of
R281; another one may set OVERFLOW and UNDERFLOW and no other flag, and clears none (log 27).
Rests on the choice: D28, D30, log 27. -/
def Obligations.FloatArithmeticEncodesTheExactResult : Prop :=
  ∀ (s : State) (fr ix : BitVec 2) (j : FReg) (i : Bool) (addr : BitVec 5) (ea hi lo : Word),
    OperandReady s true true { ix := ix, indirect := i, addr := addr } ea hi → fReg fr = some j →
    s.peek (nextWord ea) = .ok lo →
    ∀ encode : ExactReal → CC → Word × CC, encode = encodeReal s.cfg.fpEncoder →
    (∃ x : ExactReal, x.value = (fpValue (s.fr j)).value + (fpValue (fpFromWords hi lo)).value ∧
      exec (.fadd fr ix i addr) s =
        .next { (((s.latchRs1 fr).operandRead ea hi).setFr j (encode x s.cc).1).endCycle s.cyc.nextPc with
          cc := (encode x s.cc).2 }) ∧
    (∃ x : ExactReal, x.value = (fpValue (s.fr j)).value - (fpValue (fpFromWords hi lo)).value ∧
      exec (.fsub fr ix i addr) s =
        .next { (((s.latchRs1 fr).operandRead ea hi).setFr j (encode x s.cc).1).endCycle s.cyc.nextPc with
          cc := (encode x s.cc).2 }) ∧
    (s.cfg.fpEncoder = .standard → encode = fpEncode) ∧
    (∀ x y : ExactReal, x.value = y.value → s.cfg.fpEncoder ≠ .standard → encode x s.cc = encode y s.cc) ∧
    (∀ (x : ExactReal) (c : CC), (encode x c).2.divzero = c.divzero ∧ (encode x c).2.equal = c.equal ∧
      (c.overflow = true → (encode x c).2.overflow = true) ∧
      (c.underflow = true → (encode x c).2.underflow = true))

/-- R46: the value of a FloatRegister pattern f, with sign f[15], exponent f[14:8] in two's complement and
mantissa f[7:0]; a mantissa of 0 has the value 0 with either sign; and the pattern of a given sign,
exponent and mantissa.
Rests on the choice: D26. -/
def Obligations.FloatRegisterValue : Prop :=
  (∀ f : Word, (fpValue f).value =
    (if 32768 ≤ uval f then -1 else 1) * ((uval f % 256 : Nat) : ℚ) *
      (2 : ℚ) ^ (Int.bmod (uval f / 256) 128)) ∧
  (∀ f : Word, uval f % 256 = 0 → (fpValue f).value = 0) ∧
  (∀ (neg : Bool) (e : Int) (m : Nat), -64 ≤ e → e ≤ 63 → m < 256 →
    uval (fpPack neg e m) = (if neg then 32768 else 0) + (e % 128).toNat * 256 + m ∧
    (fpValue (fpPack neg e m)).value = (if neg then -1 else 1) * (m : ℚ) * (2 : ℚ) ^ e)

/-- R281: the encoder. 0 gives +0; with e the exponent that puts the mantissa in 128…255, an e above 63
saturates with OVERFLOW, an e in range gives the mantissa truncated toward zero and no flag, and below
−64 the denormal fallback truncates at 2^−64, setting UNDERFLOW and giving +0 when nothing is left.
Rests on the choice: D28. -/
def Obligations.FpEncodeNormalisesAndTruncates : Prop :=
  ∀ (x : ExactReal) (c : CC),
    (x.value = 0 → fpEncode x c = (0, c)) ∧
    (∀ e : Int, 128 * (2 : ℚ) ^ e ≤ |x.value| → |x.value| < 256 * (2 : ℚ) ^ e →
      (63 < e → fpEncode x c = (fpPack (decide (x.value < 0)) 63 255, { c with overflow := true })) ∧
      (-64 ≤ e → e ≤ 63 → ∃ m : Nat, 128 ≤ m ∧ m < 256 ∧
        (m : ℚ) * (2 : ℚ) ^ e ≤ |x.value| ∧ |x.value| < ((m : ℚ) + 1) * (2 : ℚ) ^ e ∧
        fpEncode x c = (fpPack (decide (x.value < 0)) e m, c)) ∧
      (e < -64 → ∃ m : Nat, m < 128 ∧
        (m : ℚ) * (2 : ℚ) ^ (-64 : Int) ≤ |x.value| ∧ |x.value| < ((m : ℚ) + 1) * (2 : ℚ) ^ (-64 : Int) ∧
        fpEncode x c =
          if m = 0 then (0, { c with underflow := true })
          else (fpPack (decide (x.value < 0)) (-64) m, c)))

/-- R282: the encoder is exact on every ±m·2^e with 0 < m ≤ 255 whose normalised form has an exponent in
range, so on every integer of magnitude at most 255; an integer of magnitude 256…32767 keeps its top 8
significant bits.
Rests on the choice: D28; the spec marks the rule as its own inference. -/
def Obligations.FpEncodeIsExactOnShortMantissas : Prop :=
  (∀ (x : ExactReal) (c : CC) (m : Nat) (e d : Int), 0 < m → m ≤ 255 →
    |x.value| = (m : ℚ) * (2 : ℚ) ^ e → -64 ≤ d → d ≤ 63 →
    128 * (2 : ℚ) ^ d ≤ |x.value| → |x.value| < 256 * (2 : ℚ) ^ d →
    (fpValue (fpEncode x c).1).value = x.value ∧ (fpEncode x c).2 = c) ∧
  (∀ (v : Int) (c : CC), |v| ≤ 255 →
    (fpValue (fpEncode (ExactReal.ofInt v) c).1).value = (v : ℚ) ∧ (fpEncode (ExactReal.ofInt v) c).2 = c) ∧
  (∀ (v : Int) (c : CC) (d : Nat), 128 * 2 ^ d ≤ |v| → |v| < 256 * 2 ^ d → |v| ≤ 32767 →
    (fpValue (fpEncode (ExactReal.ofInt v) c).1).value = ((Int.tdiv v (2 ^ d) * 2 ^ d : Int) : ℚ) ∧
    (fpEncode (ExactReal.ofInt v) c).2 = c)

/-- R283: fpToInt rounds the value toward zero and reduces it to 16 bits.
Rests on the choice: D32. -/
def Obligations.FpToIntRoundsTowardZero : Prop :=
  ∀ f : Word, ∃ q : Int, fpToInt f = wrap16 q ∧ |(q : ℚ)| ≤ |(fpValue f).value| ∧
    |(fpValue f).value| < |(q : ℚ)| + 1 ∧
    (0 ≤ (fpValue f).value → 0 ≤ q) ∧ ((fpValue f).value ≤ 0 → q ≤ 0)

/-- VADD and VSUB, when every element of both vectors can be read: the instruction completes, element by
element in increasing order, both reads of an element before its cached store (`VectorRun`), whether the
vectors overlap or not and under either write-buffer policy; what one store does to memory, cache and buffer
under each policy is said by FlushEachReachesMemoryAtOnce and FifoFlushesTheOldest. Only the internal
registers, CC, memory, the cache and the buffer change; OVERFLOW and UNDERFLOW are sticky, the other two
flags are unchanged; with length 0 nothing is stored. Under FLUSH_EACH no word outside the first vector
changes, and if the second vector does not overlap the first, each element of the first becomes the sum or
difference, and OVERFLOW and UNDERFLOW are set exactly when they were or some element sets them.
Rests on the choice: D6, D7, D12, D31 (length from FR[fr], bases at EA and EA + 1), D48 for VSUB. -/
def Obligations.VectorArithmeticReplacesTheFirstVector : Prop :=
  ∀ (s : State) (fr ix : BitVec 2) (j : FReg) (i : Bool) (addr : BitVec 5) (ea b1 b2 : Word),
    OperandReady s true true { ix := ix, indirect := i, addr := addr } ea b1 → fReg fr = some j →
    s.peek (nextWord ea) = .ok b2 →
    ∀ (x y : Nat → Word),
      (∀ k < vectorLength s j, s.peek (vectorAddress b1 k) = .ok (x k)) →
      (∀ k < vectorLength s j, s.peek (vectorAddress b2 k) = .ok (y k)) →
    ∀ (instr : Instr) (op : Word → Word → CC → Word × CC),
      (instr = .vadd fr ix i addr ∧ op = aluAdd) ∨ (instr = .vsub fr ix i addr ∧ op = aluSubtract) →
    ∃ (run : Nat → State) (t : State),
      run 0 = ((s.latchRs1 fr).setFlags rowFloat false).operandRead ea b1 ∧
      VectorRun op b1 b2 (vectorLength s j) run ∧
      exec instr s = .next t ∧ t = (run (vectorLength s j)).endCycle s.cyc.nextPc ∧
      t = { (((s.latchRs1 fr).operandRead ea b1).endCycle s.cyc.nextPc) with
            mem := t.mem, cache := t.cache, writeBuffer := t.writeBuffer, cc := t.cc } ∧
      t.cc.divzero = s.cc.divzero ∧ t.cc.equal = s.cc.equal ∧
      (s.cc.overflow = true → t.cc.overflow = true) ∧ (s.cc.underflow = true → t.cc.underflow = true) ∧
      (vectorLength s j = 0 →
        t.mem = s.mem ∧ t.cache = s.cache ∧ t.writeBuffer = s.writeBuffer ∧ t.cc = s.cc) ∧
      (s.cfg.wbPolicy = .flushEach →
        (∀ q : Nat, (∀ k < vectorLength s j, s.phys (vectorAddress b1 k) ≠ q) →
          readWord t.mem q = readWord s.mem q ∧ cacheLookup t.cache q = cacheLookup s.cache q) ∧
        ((∀ k < vectorLength s j, ∀ l < vectorLength s j,
            s.phys (vectorAddress b1 k) ≠ s.phys (vectorAddress b2 l)) →
          (∀ k < vectorLength s j,
            t.peek (vectorAddress b1 k) = .ok (op (x k) (y k) s.cc).1 ∧
            t.cacheGet (s.phys (vectorAddress b1 k)) = some (op (x k) (y k) s.cc).1) ∧
          (t.cc.overflow = true ↔ s.cc.overflow = true ∨
            ∃ k < vectorLength s j, (op (x k) (y k) CC.clear).2.overflow = true) ∧
          (t.cc.underflow = true ↔ s.cc.underflow = true ∨
            ∃ k < vectorLength s j, (op (x k) (y k) CC.clear).2.underflow = true)))

/-- VADD and VSUB, when element m of the first or the second vector cannot be read and every element before
it can: the fault is taken in the state that the m elements before it leave, in increasing order, whether
the vectors overlap or not and under either write-buffer policy (R614). Apart from the internal registers
only memory, cache, buffer and the flags of those m elements have changed: DIVZERO and EQUAL are unchanged,
OVERFLOW and UNDERFLOW sticky. Under FLUSH_EACH no word outside the first m elements of the first vector has
changed, and, without overlap, each of those m holds its result, and OVERFLOW and UNDERFLOW are set exactly
when they were or one of those m sets them.
Rests on the choice: D6, D7, D12, D31 (length from FR[fr], bases at EA and EA + 1), D48 for VSUB. -/
def Obligations.VectorFaultKeepsEarlierElements : Prop :=
  ∀ (s : State) (fr ix : BitVec 2) (j : FReg) (i : Bool) (addr : BitVec 5) (ea b1 b2 : Word) (m : Nat)
    (k : FaultKind),
    OperandReady s true true { ix := ix, indirect := i, addr := addr } ea b1 → fReg fr = some j →
    s.peek (nextWord ea) = .ok b2 → m < vectorLength s j →
    ∀ (x y : Nat → Word),
      (∀ l < m, s.peek (vectorAddress b1 l) = .ok (x l)) →
      (∀ l < m, s.peek (vectorAddress b2 l) = .ok (y l)) →
      (s.peek (vectorAddress b1 m) = .error k ∨
        (s.peek (vectorAddress b1 m) = .ok (x m) ∧ s.peek (vectorAddress b2 m) = .error k)) →
    ∀ (instr : Instr) (op : Word → Word → CC → Word × CC),
      (instr = .vadd fr ix i addr ∧ op = aluAdd) ∨ (instr = .vsub fr ix i addr ∧ op = aluSubtract) →
    ∃ (run : Nat → State) (u : State),
      run 0 = ((s.latchRs1 fr).setFlags rowFloat false).operandRead ea b1 ∧
      VectorRun op b1 b2 m run ∧ u = run m ∧
      exec instr s = .next (faultEntry k (u.memfault k)) ∧
      u = { ((s.latchRs1 fr).setFlags rowFloat false).operandRead ea b1 with
            mem := u.mem, cache := u.cache, writeBuffer := u.writeBuffer, cc := u.cc } ∧
      u.cc.divzero = s.cc.divzero ∧ u.cc.equal = s.cc.equal ∧
      (s.cc.overflow = true → u.cc.overflow = true) ∧ (s.cc.underflow = true → u.cc.underflow = true) ∧
      (m = 0 → u.mem = s.mem ∧ u.cache = s.cache ∧ u.writeBuffer = s.writeBuffer ∧ u.cc = s.cc) ∧
      (s.cfg.wbPolicy = .flushEach →
        (∀ q : Nat, (∀ l < m, s.phys (vectorAddress b1 l) ≠ q) →
          readWord u.mem q = readWord s.mem q ∧ cacheLookup u.cache q = cacheLookup s.cache q) ∧
        ((∀ l < m, ∀ n < m, s.phys (vectorAddress b1 l) ≠ s.phys (vectorAddress b2 n)) →
          (∀ l < m, u.peek (vectorAddress b1 l) = .ok (op (x l) (y l) s.cc).1) ∧
          (u.cc.overflow = true ↔ s.cc.overflow = true ∨
            ∃ l < m, (op (x l) (y l) CC.clear).2.overflow = true) ∧
          (u.cc.underflow = true ↔ s.cc.underflow = true ∨
            ∃ l < m, (op (x l) (y l) CC.clear).2.underflow = true)))

/-- CNVRT: F = R[r] = 0 converts the pair at EA to an integer in R[r], without a flag; F = 1 encodes the
integer at EA into FR0 by FP_ENCODE, and CC takes what the encoder leaves, which with the default encoder is
CC as it was; any other F raises ILLEGAL_OPERATION_CODE in EXECUTE with R[r] unchanged.
Rests on the choice: D28, D32, log 27. -/
def Obligations.CnvrtConvertsByTheFValue : Prop :=
  ∀ (s : State) (r ix : BitVec 2) (i : Bool) (addr : BitVec 5) (ea w : Word),
    OperandReady s true true { ix := ix, indirect := i, addr := addr } ea w →
    (∀ lo, sval (s.gpr r) = 0 → s.peek (nextWord ea) = .ok lo →
      exec (.cnvrt r ix i addr) s = .next ((((s.latchRs1 r).operandRead ea w).setGpr r
        (fpToInt (fpFromWords w lo))).endCycle s.cyc.nextPc)) ∧
    (sval (s.gpr r) = 1 →
      exec (.cnvrt r ix i addr) s = .next { (((s.latchRs1 r).operandRead ea w).setFr .fr0
        (encodeReal s.cfg.fpEncoder (ExactReal.ofInt (sval w)) s.cc).1).endCycle s.cyc.nextPc with
          cc := (encodeReal s.cfg.fpEncoder (ExactReal.ofInt (sval w)) s.cc).2 }) ∧
    (s.cfg.fpEncoder = .standard → encodeReal s.cfg.fpEncoder (ExactReal.ofInt (sval w)) s.cc =
      ((fpEncode (ExactReal.ofInt (sval w)) s.cc).1, s.cc)) ∧
    (sval (s.gpr r) ≠ 0 → sval (s.gpr r) ≠ 1 →
      exec (.cnvrt r ix i addr) s =
        .next (faultEntry .illegalOperationCode ((s.latchRs1 r).operandRead ea w)))

/-! ## Input and output (`48_io.md`) -/

/-- IN from the keyboard with an answer at hand: R[r] takes the answer, an integer by its 16 bits, a
character by its code, an empty response as 10; nothing else changes but the internal registers.
Rests on the choice: D46; the list of answers is the model's choice, log 9. -/
def Obligations.InTakesTheHostsAnswer : Prop :=
  ∀ (s : State) (r : BitVec 2) (ea w : Word) (a : Answer) (rest : List Answer) (v : Word),
    OperandReady s false false (plainFields 0) ea w → s.consoleInput = a :: rest →
    ((∃ n : Int, a = .integer n ∧ -32768 ≤ n ∧ n ≤ 32767 ∧ v = wrap16 n) ∨
      (∃ c : Nat, a = .char c ∧ c ≤ 127 ∧ uval v = c) ∨ (a = .empty ∧ v = 10)) →
    exec (.inp r 0) s =
      .next { (((s.latchRs1 r).operandRead ea w).setGpr r v).endCycle s.cyc.nextPc with
        consoleInput := rest, inputWait := none }

/-- IN from the keyboard without an answer: the core holds inside the cycle with `input_wait` = r, takes
no step of its own, and finishes the cycle once the host has answered (R545).
Rests on the choice: the list of answers and the stop `awaitingInput` are the model's choice, log 9. -/
def Obligations.InWaitsForTheHost : Prop :=
  ∀ (s : State) (w : Word) (r : BitVec 2) (x : Word), s.Starts → s.FetchReads w →
    decodeWord s.cfg.opcodeMap w = .ok (.inp r 0) → s.peek (s.marOf 0) = .ok x → s.consoleInput = [] →
    ∃ t : State, step s = .next t ∧ t.inputWait = some r ∧ t.pc = s.pc ∧ t.mem = s.mem ∧
      t.cache = s.cache ∧ t.cc = s.cc ∧ (∀ g, t.gpr g = s.gpr g) ∧
      step t = .fault .awaitingInput ∧
      ∀ (a : Answer) (v : Word), answerWord a = some v →
        step (supplyAnswer a t) =
          .next { (((s.fetched w).operandRead 0 x).setGpr r v).endCycle (wrap16 (sval s.pc + 1)) with
            consoleInput := [], inputWait := none }

/-- OUT to the printer appends R[r] to the output sequence and changes nothing in the core; IN and OUT
of the card reader do nothing; CHK gives the device's status word.
Rests on the choice: D33, D34; the output list is the model's choice, log 10. -/
def Obligations.OutAndChkActOnTheirDevice : Prop :=
  ∀ (s : State) (r : BitVec 2) (devid : BitVec 5) (ea w : Word),
    OperandReady s false false (plainFields devid) ea w →
    (devid = 1 → exec (.out r devid) s =
      .next { ((s.latchRs1 r).operandRead ea w).endCycle s.cyc.nextPc with
        output := s.output ++ [s.gpr r] }) ∧
    (devid = 2 → exec (.out r devid) s = .next (((s.latchRs1 r).operandRead ea w).endCycle s.cyc.nextPc)) ∧
    (devid = 2 → exec (.inp r devid) s = .next (((s.latchRs1 r).operandRead ea w).endCycle s.cyc.nextPc)) ∧
    (devid = 0 → exec (.chk r devid) s = .next ((((s.latchRs1 r).operandRead ea w).setGpr r
      s.cfg.chkKeyboard).endCycle s.cyc.nextPc)) ∧
    (devid = 1 → exec (.chk r devid) s = .next ((((s.latchRs1 r).operandRead ea w).setGpr r
      s.cfg.chkPrinter).endCycle s.cyc.nextPc)) ∧
    (devid = 2 → exec (.chk r devid) s = .next ((((s.latchRs1 r).operandRead ea w).setGpr r
      s.cfg.chkCardReader).endCycle s.cyc.nextPc))

/-- The combinations of `48_io.md` section 1 without meaning are refused; the step that runs one sets
`refused` and changes nothing else, and the run makes no step from there on, which reset does not
change (log 7).
Rests on the choice: D33; how a refused run ends is deduced, log 7; log 26 for other widths than the
default. -/
def Obligations.UndefinedDevicesAreRefused : Prop :=
  (∀ (s : State) (w : Word) (i : Instr) (r : BitVec 2) (devid : BitVec 5) (x : Word),
    (i = .inp r devid ∧ devid ≠ 0 ∧ devid ≠ 2) ∨ (i = .out r devid ∧ devid ≠ 1 ∧ devid ≠ 2) ∨
      (i = .chk r devid ∧ 3 ≤ devid.toNat) →
    s.peek (s.marOf (devid.setWidth 16)) = .ok x →
    exec i s = .refused .undefinedDevice ∧
    (s.Starts → s.FetchReads w → decodeWord s.cfg.opcodeMap w = .ok i →
      step s = .next { s with refused := true })) ∧
  (∀ u : State, u.refused = true → step u = .refused .runRefused ∧ (applyReset u).refused = true)

/-! ## System (`49_system.md`) -/

/-- HLT sets `halted` and skips DEPOSIT and ADVANCE_PC: the PC keeps its address and the cycle-scoped
flags are not cleared (R220).
Rests on the choice: D25. -/
def Obligations.HltHaltsInPlace : Prop :=
  ∀ (s : State) (ea w : Word), OperandReady s false false (plainFields s.irAddr) ea w →
    exec .hlt s = .next { (s.setFlags rowPlain false).operandRead ea w with halted := true }

/-- TRAP: a code up to 15 saves next_pc at logical 2 past the cache and continues there, through the
saved word; when that location lies outside memory the save's fault is taken and nothing is written; a code
above 15 takes the ILLEGAL_TRAP_CODE fault and saves nothing at 2.
Rests on the choice: D24. -/
def Obligations.TrapSavesTheReturnAddress : Prop :=
  ∀ (s : State) (code : BitVec 5) (ea w : Word),
    OperandReady s false false (plainFields code) ea w →
    (∀ p, code.toNat ≤ 15 → boundsCheck (s.phys 2) = .ok p →
      ∃ t : State, exec (.trap code) s = .next t ∧
        t = { (s.operandRead ea w).endCycle s.cyc.nextPc with mem := t.mem } ∧
        ∀ q, readWord t.mem q = if q = p then s.cyc.nextPc else readWord s.mem q) ∧
    (∀ k, code.toNat ≤ 15 → boundsCheck (s.phys 2) = .error k →
      exec (.trap code) s = .next (faultEntry k ((s.operandRead ea w).memfault k))) ∧
    (15 < code.toNat → exec (.trap code) s = .next (faultEntry .illegalTrapCode (s.operandRead ea w)))

/-! ## Machine faults (`60_exceptions.md`) -/

/-- R610: what fault entry saves, where it goes for each of the three values of FAULT_VECTOR_BIAS, and that
it changes nothing else. MFR is 2 to the power FAULT_ID of the fault, with the default ids 1, 2, 4 and 8.
ALWAYS adds OFF in user mode only (log 14).
Rests on the choice: D10, D11, log 14, log 26 for other widths than the default. -/
def Obligations.FaultEntrySavesAndVectors : Prop :=
  ∀ (s : State) (k : FaultKind),
    (faultEntry k s).mfr.toNat = 2 ^ (faultId s.cfg k).toNat ∧
    (s.cfg.faultId = Params.default.faultId → (faultEntry k s).mfr = (match k with
      | .reserved => 1
      | .illegalTrapCode => 2
      | .illegalOperationCode => 4
      | .outOfBounds => 8)) ∧
    (∀ q, readWord (faultEntry k s).mem q = if q = 5 then s.pc else readWord s.mem q) ∧
    (faultEntry k s).pc = s.pcOf (wrap16 (sval (readWord s.mem 1) + (match s.cfg.faultVectorBias with
      | .latchClear => if s.runningUserProgram = true ∧ s.memoryFault = .none then (s.off : Int) else 0
      | .always => if s.runningUserProgram = true then (s.off : Int) else 0
      | .never => 0))) ∧
    (faultEntry k s).memoryFault = .none ∧ (faultEntry k s).cyc = CycleFlags.cleared ∧
    faultEntry k s = { s with
      mfr := (faultEntry k s).mfr, mem := (faultEntry k s).mem, memoryFault := .none,
      pc := (faultEntry k s).pc, cyc := CycleFlags.cleared }

/-- A pointer or an effective address that cannot be read is a fault of FETCH_OPERAND for every
instruction with a memory operand, loads, stores and jumps alike, before EXECUTE does anything
(`40_cycle.md` R212, `44_transfer.md` R370 (d)). That IAR and MAR then hold the pointer's or the effective
address and MBR still the instruction word is read from R222 (log 13).
Rests on the choice: D12, D13, log 13, log 26 for other widths than the default. -/
def Obligations.UnreadableOperandsFaultBeforeExecute : Prop :=
  ∀ (s : State) (r ix fr x : BitVec 2) (i : Bool) (addr : BitVec 5) (k : FaultKind) (iar mar : Word),
    (OperandFaults s true true { ix := ix, indirect := i, addr := addr } k iar mar →
      (∀ instr ∈ [Instr.ldr r ix i addr, .str r ix i addr, .lda r ix i addr, .amr r ix i addr,
          .smr r ix i addr, .jz r ix i addr, .jne r ix i addr, .jcc r ix i addr, .sob r ix i addr,
          .jge r ix i addr, .cnvrt r ix i addr],
        exec instr s = .next (faultEntry k ({ s.latchRs1 r with iar := iar, mar := mar }.memfault k))) ∧
      (∀ instr ∈ [Instr.jma ix i addr, .jsr ix i addr],
        exec instr s = .next (faultEntry k ({ s with iar := iar, mar := mar }.memfault k))) ∧
      (checkFloat fr = true →
        ∀ instr ∈ [Instr.fadd fr ix i addr, .fsub fr ix i addr, .vadd fr ix i addr, .vsub fr ix i addr,
            .ldfr fr ix i addr, .stfr fr ix i addr],
          exec instr s = .next (faultEntry k ({ s.latchRs1 fr with iar := iar, mar := mar }.memfault k)))) ∧
    (OperandFaults s false true { ix := x, indirect := i, addr := addr } k iar mar → checkIndex x = true →
      ∀ instr ∈ [Instr.ldx x i addr, .stx x i addr],
        exec instr s = .next (faultEntry k ({ s with iar := iar, mar := mar }.memfault k)))

/-- The kept operand read of the instructions without a memory operand, at the ADDR field of their word,
faults in FETCH_OPERAND too, before EXECUTE does anything: HLT does not halt, TRAP saves nothing, IN asks
for nothing (`40_cycle.md` R212, `70_reset_and_hazards.md` R725). That IAR and MAR then hold the address read
and MBR still the instruction word is read from R222 (log 13).
Rests on the choice: D12, D13, log 13, log 26 for other widths than the default. -/
def Obligations.KeptReadsFaultBeforeExecute : Prop :=
  ∀ (s : State) (r rx ry : BitVec 2) (al lr : Bool) (count : BitVec 4) (a : BitVec 5) (k : FaultKind)
    (iar mar : Word),
    (OperandFaults s false false (plainFields a) k iar mar →
      (∀ instr ∈ [Instr.air r a, .sir r a, .inp r a, .out r a, .chk r a],
        exec instr s = .next (faultEntry k ({ s.latchRs1 r with iar := iar, mar := mar }.memfault k))) ∧
      (∀ instr ∈ [Instr.rfs a, .trap a],
        exec instr s = .next (faultEntry k ({ s with iar := iar, mar := mar }.memfault k)))) ∧
    (OperandFaults s false false (plainFields s.irAddr) k iar mar →
      exec .hlt s = .next (faultEntry k ({ s with iar := iar, mar := mar }.memfault k)) ∧
      (∀ instr ∈ [Instr.trr rx ry, .andr rx ry, .orr rx ry, .notr rx, .src rx al lr count,
          .rrc rx al lr count],
        exec instr s = .next (faultEntry k ({ s.latchRs1 rx with iar := iar, mar := mar }.memfault k))) ∧
      (checkPair rx ry = true → ∀ instr ∈ [Instr.mlt rx ry, .dvd rx ry],
        exec instr s = .next (faultEntry k ({ s.latchRs1 rx with iar := iar, mar := mar }.memfault k))))

/-- When the word at EA + 1 cannot be read, FADD, FSUB, VADD, VSUB, LDFR and CNVRT with F = R[r] = 0, which
read it, take the fault with no register, flag or memory written but the internal ones (`47_float_vector.md`
R480, R482, R486). STFR, which writes there, is in StfrStoresThePair; CNVRT with F = 1 does not read it.
Rests on the choice: D12, log 13. -/
def Obligations.SecondWordReadFaultsWriteNothing : Prop :=
  ∀ (s : State) (r fr ix : BitVec 2) (i : Bool) (addr : BitVec 5) (ea w : Word) (k : FaultKind),
    OperandReady s true true { ix := ix, indirect := i, addr := addr } ea w →
    s.peek (nextWord ea) = .error k →
    (checkFloat fr = true →
      (∀ instr ∈ [Instr.fadd fr ix i addr, .fsub fr ix i addr, .vadd fr ix i addr, .vsub fr ix i addr],
        exec instr s = .next (faultEntry k (((s.latchRs1 fr).operandRead ea w).memfault k))) ∧
      (∀ hi, s.peek ea = .ok hi → exec (.ldfr fr ix i addr) s =
        .next (faultEntry k ((((s.latchRs1 fr).operandRead ea w).setIrr w).memfault k)))) ∧
    (sval (s.gpr r) = 0 →
      exec (.cnvrt r ix i addr) s =
        .next (faultEntry k (((s.latchRs1 r).operandRead ea w).memfault k)))

/-- Faults are precise (R614): an instruction either leaves MFR as it is, whatever MFR held, or takes a fault
in a state `u` that differs from the one it started in only by the internal registers and by the writes the
rule lets survive: STFR's first word, and the elements and flags of VADD and VSUB, which StfrStoresThePair
and VectorFaultKeepsEarlierElements say. The fault saves the instruction's own PC at location 5, makes MFR
one-hot, and goes to the vector of location 1.
Rests on the choice: D12, log 26 for other widths than the default. -/
def Obligations.FaultsArePrecise : Prop :=
  ∀ (i : Instr) (s : State),
    (∀ (m : BitVec 4) (t : State), exec i { s with mfr := m } = .next t → t.mfr = m) ∨
    ∃ (k : FaultKind) (u t : State), exec i s = .next t ∧ t = faultEntry k u ∧
      u = { s with
        rs1 := u.rs1, mar := u.mar, mbr := u.mbr, iar := u.iar, irr := u.irr, cyc := u.cyc,
        memoryFault := u.memoryFault, mem := u.mem, cache := u.cache, writeBuffer := u.writeBuffer,
        cc := u.cc } ∧
      ((∀ fr ix ind a, i ≠ .stfr fr ix ind a ∧ i ≠ .vadd fr ix ind a ∧ i ≠ .vsub fr ix ind a) →
        u.mem = s.mem) ∧
      ((∀ fr ix ind a, i ≠ .vadd fr ix ind a ∧ i ≠ .vsub fr ix ind a) →
        u.cache = s.cache ∧ u.writeBuffer = s.writeBuffer ∧ u.cc = s.cc) ∧
      t.mfr = mfrCode s.cfg k ∧ readWord t.mem 5 = s.pc ∧ t.cyc = CycleFlags.cleared ∧
      t.memoryFault = .none ∧
      (t.pc = s.pcOf (readWord t.mem 1) ∨ t.pc = s.pcOf (wrap16 (sval (readWord t.mem 1) + s.off)))

/-! ## Memory, cache and write buffer (`20_memory.md`) -/

/-- R102: each of the five primitives judges its physical address first: RESERVED below 0, OUT_OF_BOUNDS
from 2048 on, with memory untouched and the latch set; otherwise it proceeds. -/
def Obligations.EveryPrimitiveChecksItsBounds : Prop :=
  ∀ (s : State) (p : Int) (a v : Word) (k : FaultKind),
    (boundsCheck p = .error k ↔ (p < 0 ∧ k = .reserved) ∨ (2048 ≤ p ∧ k = .outOfBounds)) ∧
    (∀ q, boundsCheck p = .ok q ↔ 0 ≤ p ∧ p < 2048 ∧ q = p.toNat) ∧
    (boundsCheck p = .error k →
      loadWord p s = .fault k (s.memfault k) ∧ storeWord p v s = .fault k (s.memfault k)) ∧
    (boundsCheck (s.phys a) = .error k →
      getWord a s = .fault k (s.memfault k) ∧ insertWord a v s = .fault k (s.memfault k) ∧
      cachedInsert a v s = .fault k (s.memfault k)) ∧
    ((s.memfault k).mem = s.mem ∧ (s.memfault k).cache = s.cache ∧
      (s.memfault k).writeBuffer = s.writeBuffer) ∧
    (s.memfault .reserved).memoryFault = .reserved ∧ (s.memfault .outOfBounds).memoryFault = .outOfBounds ∧
    (∀ q, boundsCheck p = .ok q →
      loadWord p s = .ok (readWord s.mem q) s ∧
      storeWord p v s = .ok () { s with mem := writeWord s.mem q v }) ∧
    (∀ q, boundsCheck (s.phys a) = .ok q →
      getWord a s = .ok (readWord s.mem q) s ∧
      insertWord a v s = .ok () { s with mem := writeWord s.mem q v } ∧
      ∃ t, cachedInsert a v s = .ok () t ∧ t.cache = cacheSet s.cache q v)

/-- A word written by `Insert` is what `Get` reads there, and every other address reads as before
(R140). A write keeps the canonical form of memory.
Rests on the choice: the canonical form is the model's choice, log 1. -/
def Obligations.GetReadsTheLastInsert : Prop :=
  ∀ (s t : State) (a b v : Word), insertWord a v s = .ok () t →
    getWord b t = (if s.phys b = s.phys a then .ok v t
      else match s.peek b with
        | .ok w => .ok w t
        | .error k => .fault k (t.memfault k)) ∧
    (Memory.wf s.mem = true → Memory.wf t.mem = true)

/-- R122: under FLUSH_EACH a cached store reaches memory at once and leaves the buffer empty.
Rests on the choice: D6. -/
def Obligations.FlushEachReachesMemoryAtOnce : Prop :=
  ∀ (s : State) (a v : Word) (p : Nat), s.cfg.wbPolicy = .flushEach → boundsCheck (s.phys a) = .ok p →
    ∃ t : State, cachedInsert a v s = .ok () t ∧ t.writeBuffer = [] ∧
      (∀ q, readWord t.mem q = if q = p then v else readWord s.mem q) ∧
      (∀ q, cacheLookup t.cache q = if q = p then some v else cacheLookup s.cache q) ∧
      t = { s with mem := t.mem, cache := t.cache, writeBuffer := [] }

/-- R123 and R141: under FIFO a push on a buffer of 4 first flushes the oldest address with the cache's
current value; otherwise memory keeps the older word, which a data read still returns.
Rests on the choice: D6. -/
def Obligations.FifoFlushesTheOldest : Prop :=
  ∀ (s : State) (a v : Word) (p : Nat), s.cfg.wbPolicy = .fifo → boundsCheck (s.phys a) = .ok p →
    (s.writeBuffer.length ≠ 4 →
      ∃ t : State, cachedInsert a v s = .ok () t ∧ t.writeBuffer = s.writeBuffer ++ [p] ∧
        t.mem = s.mem ∧ getWord a t = .ok (readWord s.mem p) t) ∧
    (∀ (h : Nat) (rest : List Nat) (x : Word), s.writeBuffer = h :: rest → rest.length = 3 →
      cacheLookup (cacheSet s.cache p v) h = some x →
      ∃ t : State, cachedInsert a v s = .ok () t ∧ t.writeBuffer = rest ++ [p] ∧
        ∀ q, readWord t.mem q = if q = h then x else readWord s.mem q)

/-- R142: a fetch sees a cached store at its address under both policies; a bypass store only where the
address has no cache entry, and otherwise the older cached word.
Rests on the choice: D7. -/
def Obligations.FetchSeesCachedStoresOnly : Prop :=
  ∀ (s t : State) (a v : Word) (p : Nat), s.phys a = p → sval s.pc = p →
    (cachedInsert a v s = .ok () t → t.FetchReads v) ∧
    (insertWord a v s = .ok () t → cacheLookup s.cache p = none → t.FetchReads v) ∧
    (∀ old, insertWord a v s = .ok () t → cacheLookup s.cache p = some old → t.FetchReads old)

/-! ## Reset and load (`70_reset_and_hazards.md`) -/

/-- R701: two resets leave what one leaves. -/
def Obligations.ResetIsIdempotent : Prop := ∀ s : State, applyReset (applyReset s) = applyReset s

/-- R702: the state after reset, every piece of the table, and what R700 keeps: the mode, the model marks
`refused` and `input_wait`, the parameters and the run's console sequences. Memory changes only by the flush
of the buffered addresses; one without a cache entry, which no state with the invariant has, is flushed
without effect.
Rests on the choice: D37; what becomes of the console sequences and of a held core is the model's, log 10;
a flush without a cache entry, log 19; log 26 for other widths than the default. -/
def Obligations.ResetLeavesTheTableOfR702 : Prop :=
  ∀ s : State,
    (∀ g, (applyReset s).gpr g = 0) ∧ (∀ x, (applyReset s).xr x = 0) ∧ (∀ f, (applyReset s).fr f = 0) ∧
    (applyReset s).pc = s.pcOf (if s.runningUserProgram then wrap16 s.off else 0) ∧
    (∀ k, (applyReset s).cc.get k = false) ∧ (applyReset s).mfr = 0 ∧
    (applyReset s).mar = 0 ∧ (applyReset s).mbr = 0 ∧ (applyReset s).ir = 0 ∧ (applyReset s).iar = 0 ∧
    (applyReset s).irr = 0 ∧ (applyReset s).rs1 = 0 ∧ (applyReset s).cyc = CycleFlags.cleared ∧
    (applyReset s).halted = false ∧ (applyReset s).memoryFault = .none ∧
    (applyReset s).runningUserProgram = s.runningUserProgram ∧ (applyReset s).cache = [] ∧
    (applyReset s).writeBuffer = [] ∧ (s.writeBuffer = [] → (applyReset s).mem = s.mem) ∧
    (∀ q, readWord (applyReset s).mem q =
      if q ∈ s.writeBuffer then (cacheLookup s.cache q).getD (readWord s.mem q) else readWord s.mem q) ∧
    (applyReset s).refused = s.refused ∧ (applyReset s).inputWait = s.inputWait ∧
    (applyReset s).cfg = s.cfg ∧ (applyReset s).consoleInput = s.consoleInput ∧
    (applyReset s).output = s.output

/-- The launch state satisfies the launch premise of R704 and the invariant, and reset maps it to
itself. That it is in supervisor mode is the model's choice (log 6).
Rests on the choice: supervisor mode and empty memory are the model's choice, logs 2 and 6. -/
def Obligations.ResetStateIsALaunchState : Prop :=
  State.reset.Launch ∧ State.reset.Inv ∧ applyReset State.reset = State.reset

/-- R710: a load with a pair outside memory or a value out of range changes nothing but the mark
`refused`; an accepted load places each pair in order, past the cache, and changes memory only.
Rests on the choice: D40; the pair tags are deduced, log 24. -/
def Obligations.LoadIsCheckedWhole : Prop :=
  ∀ (s : State) (pairs : List LoadPair),
    ((∃ q ∈ pairs, q.phys s < 0 ∨ 2048 ≤ q.phys s ∨ q.value < -32768 ∨ 65535 < q.value) →
      loadProgram pairs s = { s with refused := true }) ∧
    ((∀ q ∈ pairs, 0 ≤ q.phys s ∧ q.phys s < 2048 ∧ -32768 ≤ q.value ∧ q.value ≤ 65535) →
      loadProgram pairs s = { s with mem := (loadProgram pairs s).mem } ∧
      ∀ p, readWord (loadProgram pairs s).mem p =
        match pairs.reverse.find? (fun q => decide ((q.phys s).toNat = p)) with
        | some q => wrap16 q.value
        | none => readWord s.mem p)

/-! ## Promises over all instructions -/

/-- Every step keeps the invariant, from every state that has it. Of its clauses the canonical forms of memory
and cache are the model's (log 1), and the clauses on a held core and on the flags of a halted or held one
rest on logs 9 and 17.
Rests on the choice: D2, D6, D10; logs 1, 9, 17, 26. -/
def Obligations.EveryStepKeepsTheInvariant : Prop :=
  ∀ s t : State, s.Inv → step s = .next t → t.Inv

/-- OVERFLOW, UNDERFLOW and DIVZERO are sticky: no step clears one (R250, R724).
Rests on the choice: log 27 for other encoders than that of R281. -/
def Obligations.NoStepClearsAStickyFlag : Prop :=
  ∀ s t : State, step s = .next t →
    (s.cc.overflow = true → t.cc.overflow = true) ∧ (s.cc.underflow = true → t.cc.underflow = true) ∧
    (s.cc.divzero = true → t.cc.divzero = true)

/-- No step enters or leaves user mode (R61, R625), and none changes a parameter, which stand in the state by
the model's choice (log 3), or takes back output (log 10).
Rests on the choice: D38 for the mode; logs 3, 10. -/
def Obligations.NoStepChangesTheMode : Prop :=
  ∀ s t : State, step s = .next t →
    t.runningUserProgram = s.runningUserProgram ∧ t.cfg = s.cfg ∧ s.output <+: t.output

/-- EQUAL is written by TRR alone, DIVZERO by DVD alone (R49); index registers by LDX alone; floating
registers by LDFR, FADD, FSUB and CNVRT alone (R44, R45); `halted` is set by HLT alone (R58).
Rests on the choice: log 27 for other encoders than that of R281. -/
def Obligations.WritersOfFlagsIndexAndFloatRegisters : Prop :=
  ∀ (i : Instr) (s t : State), exec i s = .next t →
    ((∀ rx ry, i ≠ .trr rx ry) → t.cc.equal = s.cc.equal) ∧
    ((∀ rx ry, i ≠ .dvd rx ry) → t.cc.divzero = s.cc.divzero) ∧
    ((∀ x ind a, i ≠ .ldx x ind a) → ∀ x, t.xr x = s.xr x) ∧
    ((∀ fr ix ind a, i ≠ .ldfr fr ix ind a ∧ i ≠ .fadd fr ix ind a ∧ i ≠ .fsub fr ix ind a ∧
        i ≠ .cnvrt fr ix ind a) → ∀ f, t.fr f = s.fr f) ∧
    (i ≠ .hlt → t.halted = s.halted)

/-- General registers are written only by the instructions of R43: every other instruction leaves all
four as they are. -/
def Obligations.OtherInstructionsKeepGeneralRegisters : Prop :=
  ∀ (i : Instr) (s t : State) (r ix cc fr x rx ry : BitVec 2) (ind : Bool) (a : BitVec 5),
    i ∈ [Instr.hlt, .str r ix ind a, .jz r ix ind a, .jne r ix ind a, .jcc cc ix ind a, .jma ix ind a,
      .jge r ix ind a, .trr rx ry, .trap a, .fadd fr ix ind a, .fsub fr ix ind a, .vadd fr ix ind a,
      .vsub fr ix ind a, .ldx x ind a, .stx x ind a, .ldfr fr ix ind a, .stfr fr ix ind a, .out r a] →
    exec i s = .next t → ∀ g, t.gpr g = s.gpr g

/-- Only STR, VADD and VSUB touch the cache and the write buffer (R125); and beside them only STX, STFR
and TRAP write memory, but for location 5, which a fault overwrites (R723).
Rests on the choice: D7. -/
def Obligations.WritersOfMemoryAndCache : Prop :=
  ∀ (i : Instr) (s t : State), exec i s = .next t →
    (∀ fr ix ind a, i ≠ .str fr ix ind a ∧ i ≠ .vadd fr ix ind a ∧ i ≠ .vsub fr ix ind a) →
    t.cache = s.cache ∧ t.writeBuffer = s.writeBuffer ∧
    ((∀ fr ix ind a, i ≠ .stfr fr ix ind a ∧ i ≠ .stx ix ind a ∧ i ≠ .trap a) →
      ∀ q, q ≠ 5 → readWord t.mem q = readWord s.mem q)
end

