-- ==== Sys2Proof/Laws/Memory.lean ====
section
/-! SUPPORT. Memory and the cache map as data: read after write, and every write keeps the form. -/

namespace Sys2Proof.Machine

/-! ## Byte cells -/

theorem readByte_insertCell (m : Memory) (a b : Nat) (v : Byte) (h : ∀ c ∈ m, c.1 ≠ a) :
    readByte (insertCell a v m) b = if b = a then v else readByte m b := by
  induction m with
  | nil =>
    by_cases hb : b = a
    · subst hb; simp [insertCell, readByte]
    · simp [insertCell, readByte, hb, Ne.symm hb]
  | cons c rest ih =>
    have hc : c.1 ≠ a := h c (by simp)
    have hr : ∀ d ∈ rest, d.1 ≠ a := fun d hd => h d (by simp [hd])
    by_cases hlt : a < c.1
    · by_cases hb : b = a
      · subst hb; simp [insertCell, hlt, readByte]
      · simp [insertCell, hlt, readByte, hb, Ne.symm hb]
    · by_cases hb : b = a
      · subst hb; simp [insertCell, hlt, readByte, hc, ih hr]
      · simp [insertCell, hlt, readByte, ih hr, hb]

theorem readByte_eraseCell (m : Memory) (a b : Nat) :
    readByte (eraseCell m a) b = if b = a then 0 else readByte m b := by
  induction m with
  | nil => simp [eraseCell, readByte]
  | cons c rest ih =>
    unfold eraseCell at ih ⊢
    by_cases hc : c.1 = a
    · have hf : List.filter (fun d => d.1 != a) (c :: rest) = List.filter (fun d => d.1 != a) rest := by
        simp [hc]
      rw [hf, ih]
      by_cases hb : b = a
      · simp [hb]
      · simp [hb, readByte, hc, Ne.symm hb]
    · have hf : List.filter (fun d => d.1 != a) (c :: rest) = c :: List.filter (fun d => d.1 != a) rest := by
        simp [hc]
      rw [hf, readByte, ih, readByte]
      by_cases hcb : c.1 = b
      · have hb : ¬ b = a := fun h => hc (hcb.trans h)
        simp [hcb, hb]
      · simp [hcb]

theorem mem_eraseCell_ne (m : Memory) (a : Nat) : ∀ c ∈ eraseCell m a, c.1 ≠ a := by
  intro c hc
  simpa using (List.mem_filter.mp hc).2

/-- What a byte write does to every byte. -/
theorem readByte_writeByte (m : Memory) (a b : Nat) (v : Byte) :
    readByte (writeByte m a v) b = if b = a then v else readByte m b := by
  unfold writeByte
  by_cases hv : v = 0
  · simp [hv, readByte_eraseCell]
  · rw [if_neg hv, readByte_insertCell _ _ _ _ (mem_eraseCell_ne m a), readByte_eraseCell]
    by_cases hb : b = a <;> simp [hb]

/-- A word is its two bytes, the high one first. -/
theorem word_of_bytes (w : Word) : (w.extractLsb' 8 8 ++ w.extractLsb' 0 8 : Word) = w := by
  apply BitVec.eq_of_getLsbD_eq
  intro k hk
  rw [BitVec.getLsbD_append]
  by_cases h : k < 8
  · simp [h]
  · have h8 : k - 8 < 8 := by omega
    have hs : 8 + (k - 8) = k := by omega
    simp [h, h8, hs]

/-- What a word write does to every word (`20_memory.md` R103, R106). -/
@[simp] theorem readWord_writeWord (m : Memory) (p q : Nat) (w : Word) :
    readWord (writeWord m p w) q = if q = p then w else readWord m q := by
  unfold readWord writeWord
  simp only [readByte_writeByte]
  by_cases h : q = p
  · subst h
    have h1 : ¬ 2 * q = 2 * q + 1 := by omega
    simp only [h1, if_true, if_false]
    exact word_of_bytes w
  · have h1 : ¬ 2 * q = 2 * p + 1 := by omega
    have h2 : ¬ 2 * q = 2 * p := by omega
    have h3 : ¬ 2 * q + 1 = 2 * p := by omega
    have h4 : ¬ 2 * q + 1 = 2 * p + 1 := by omega
    simp only [h1, h2, h3, h4, h, if_false]

/-! ## The canonical form -/

theorem mem_insertCell (m : Memory) (a : Nat) (v : Byte) (c : Host.Cell) :
    c ∈ insertCell a v m ↔ c = (a, v) ∨ c ∈ m := by
  induction m with
  | nil => simp [insertCell]
  | cons d rest ih =>
    by_cases h : a < d.1
    · simp [insertCell, h]
    · simp [insertCell, h, ih]; tauto

theorem rising_insertCell (m : Memory) (a : Nat) (v : Byte) (hm : risingCells m = true)
    (h : ∀ c ∈ m, c.1 ≠ a) : risingCells (insertCell a v m) = true := by
  induction m with
  | nil => simp [insertCell, risingCells]
  | cons d rest ih =>
    simp only [risingCells, Bool.and_eq_true, List.all_eq_true, decide_eq_true_eq] at hm
    by_cases hlt : a < d.1
    · simp only [insertCell, hlt, if_true, risingCells, Bool.and_eq_true, List.all_eq_true,
        decide_eq_true_eq, List.mem_cons]
      exact ⟨fun c hc => hc.elim (fun e => e ▸ hlt) (fun e => hlt.trans (hm.1 c e)), hm.1, hm.2⟩
    · have hd : d.1 ≠ a := h d (by simp)
      simp only [insertCell, hlt, if_false, risingCells, Bool.and_eq_true, List.all_eq_true,
        decide_eq_true_eq]
      refine ⟨fun c hc => ?_, ih hm.2 fun c hc => h c (by simp [hc])⟩
      rcases (mem_insertCell rest a v c).mp hc with rfl | hc
      · simp; omega
      · exact hm.1 c hc

theorem rising_eraseCell (m : Memory) (a : Nat) (hm : risingCells m = true) :
    risingCells (eraseCell m a) = true := by
  induction m with
  | nil => simp [eraseCell, risingCells]
  | cons d rest ih =>
    simp only [risingCells, Bool.and_eq_true, List.all_eq_true, decide_eq_true_eq] at hm
    unfold eraseCell at ih ⊢
    by_cases h : d.1 = a
    · simp [h, ih hm.2]
    · simp only [List.filter_cons, bne_iff_ne, ne_eq, h, not_false_eq_true, if_true, risingCells,
        Bool.and_eq_true, List.all_eq_true, decide_eq_true_eq]
      exact ⟨fun c hc => hm.1 c (List.mem_filter.mp hc).1, ih hm.2⟩

theorem memory_wf_iff (m : Memory) :
    Memory.wf m = true ↔ risingCells m = true ∧ ∀ c ∈ m, c.1 < 4096 ∧ c.2 ≠ 0 := by
  simp [Memory.wf, List.all_eq_true]

/-- A byte write inside memory keeps the canonical form. -/
theorem writeByte_wf (m : Memory) (a : Nat) (v : Byte) (hm : Memory.wf m = true) (ha : a < 4096) :
    Memory.wf (writeByte m a v) = true := by
  rw [memory_wf_iff] at hm ⊢
  have he : ∀ c ∈ eraseCell m a, c.1 < 4096 ∧ c.2 ≠ 0 := fun c hc => hm.2 c (List.mem_filter.mp hc).1
  unfold writeByte
  by_cases hv : v = 0
  · rw [if_pos hv]; exact ⟨rising_eraseCell m a hm.1, he⟩
  · rw [if_neg hv]
    refine ⟨rising_insertCell _ _ _ (rising_eraseCell m a hm.1) (mem_eraseCell_ne m a), fun c hc => ?_⟩
    rcases (mem_insertCell _ _ _ c).mp hc with rfl | hc
    · exact ⟨ha, hv⟩
    · exact he c hc

/-- A word write inside memory keeps the canonical form. -/
theorem writeWord_wf (m : Memory) (p : Nat) (w : Word) (hm : Memory.wf m = true) (hp : p < 2048) :
    Memory.wf (writeWord m p w) = true :=
  writeByte_wf _ _ _ (writeByte_wf _ _ _ hm (by omega)) (by omega)

/-! ## The cache map -/

theorem cacheLookup_cacheInsert (c : CacheMap) (p q : Nat) (w : Word) (h : ∀ e ∈ c, e.1 ≠ p) :
    cacheLookup (cacheInsert p w c) q = if q = p then some w else cacheLookup c q := by
  induction c with
  | nil =>
    by_cases hq : q = p
    · subst hq; simp [cacheInsert, cacheLookup]
    · simp [cacheInsert, cacheLookup, hq, Ne.symm hq]
  | cons e rest ih =>
    have he : e.1 ≠ p := h e (by simp)
    have hr : ∀ d ∈ rest, d.1 ≠ p := fun d hd => h d (by simp [hd])
    by_cases hlt : p < e.1
    · by_cases hq : q = p
      · subst hq; simp [cacheInsert, hlt, cacheLookup]
      · simp [cacheInsert, hlt, cacheLookup, hq, Ne.symm hq]
    · by_cases hq : q = p
      · subst hq; simp [cacheInsert, hlt, cacheLookup, he, ih hr]
      · simp [cacheInsert, hlt, cacheLookup, ih hr, hq]

theorem cacheLookup_filter (c : CacheMap) (p q : Nat) (h : q ≠ p) :
    cacheLookup (c.filter (fun e => e.1 != p)) q = cacheLookup c q := by
  induction c with
  | nil => simp [cacheLookup]
  | cons e rest ih =>
    by_cases he : e.1 = p
    · have : ¬ p = q := fun x => h x.symm
      simp [he, ih, cacheLookup, this]
    · have hf : List.filter (fun d => d.1 != p) (e :: rest) = e :: List.filter (fun d => d.1 != p) rest := by
        simp [he]
      rw [hf, cacheLookup, ih, cacheLookup]

/-- What `Cache[p] <- w` does to every entry (`20_memory.md` R121). -/
@[simp] theorem cacheLookup_cacheSet (c : CacheMap) (p q : Nat) (w : Word) :
    cacheLookup (cacheSet c p w) q = if q = p then some w else cacheLookup c q := by
  unfold cacheSet
  rw [cacheLookup_cacheInsert _ _ _ _ (fun e he => by simpa using (List.mem_filter.mp he).2)]
  by_cases h : q = p
  · simp [h]
  · simp [h, cacheLookup_filter _ _ _ h]

theorem mem_cacheInsert (c : CacheMap) (p : Nat) (w : Word) (e : Nat × Word) :
    e ∈ cacheInsert p w c ↔ e = (p, w) ∨ e ∈ c := by
  induction c with
  | nil => simp [cacheInsert]
  | cons d rest ih =>
    by_cases h : p < d.1
    · simp [cacheInsert, h]
    · simp [cacheInsert, h, ih]; tauto

theorem rising_cacheInsert (c : CacheMap) (p : Nat) (w : Word) (hc : risingEntries c = true)
    (h : ∀ e ∈ c, e.1 ≠ p) : risingEntries (cacheInsert p w c) = true := by
  induction c with
  | nil => simp [cacheInsert, risingEntries]
  | cons d rest ih =>
    simp only [risingEntries, Bool.and_eq_true, List.all_eq_true, decide_eq_true_eq] at hc
    by_cases hlt : p < d.1
    · simp only [cacheInsert, hlt, if_true, risingEntries, Bool.and_eq_true, List.all_eq_true,
        decide_eq_true_eq, List.mem_cons]
      exact ⟨fun e he => he.elim (fun x => x ▸ hlt) (fun x => hlt.trans (hc.1 e x)), hc.1, hc.2⟩
    · have hd : d.1 ≠ p := h d (by simp)
      simp only [cacheInsert, hlt, if_false, risingEntries, Bool.and_eq_true, List.all_eq_true,
        decide_eq_true_eq]
      refine ⟨fun e he => ?_, ih hc.2 fun e he => h e (by simp [he])⟩
      rcases (mem_cacheInsert rest p w e).mp he with rfl | he
      · simp; omega
      · exact hc.1 e he

theorem rising_filterEntries (c : CacheMap) (p : Nat) (hc : risingEntries c = true) :
    risingEntries (c.filter (fun e => e.1 != p)) = true := by
  induction c with
  | nil => simp [risingEntries]
  | cons d rest ih =>
    simp only [risingEntries, Bool.and_eq_true, List.all_eq_true, decide_eq_true_eq] at hc
    by_cases h : d.1 = p
    · simp [h, ih hc.2]
    · simp only [List.filter_cons, bne_iff_ne, ne_eq, h, not_false_eq_true, if_true, risingEntries,
        Bool.and_eq_true, List.all_eq_true, decide_eq_true_eq]
      exact ⟨fun e he => hc.1 e (List.mem_filter.mp he).1, ih hc.2⟩

theorem cacheMap_wf_iff (c : CacheMap) :
    CacheMap.wf c = true ↔ risingEntries c = true ∧ ∀ e ∈ c, e.1 < 2048 := by
  simp [CacheMap.wf, List.all_eq_true]

/-- A cache write inside memory keeps the form of the map. -/
theorem cacheSet_wf (c : CacheMap) (p : Nat) (w : Word) (hc : CacheMap.wf c = true) (hp : p < 2048) :
    CacheMap.wf (cacheSet c p w) = true := by
  rw [cacheMap_wf_iff] at hc ⊢
  refine ⟨rising_cacheInsert _ _ _ (rising_filterEntries c p hc.1)
    (fun e he => by simpa using (List.mem_filter.mp he).2), fun e he => ?_⟩
  rcases (mem_cacheInsert _ _ _ e).mp he with rfl | he
  · exact hp
  · exact hc.2 e (List.mem_filter.mp he).1

/-- A cached address is an address of memory. -/
theorem cacheLookup_lt (c : CacheMap) (p : Nat) (w : Word) (hc : CacheMap.wf c = true)
    (h : cacheLookup c p = some w) : p < 2048 := by
  rw [cacheMap_wf_iff] at hc
  have : ∃ e ∈ c, e.1 = p := by
    clear hc
    induction c with
    | nil => simp [cacheLookup] at h
    | cons e rest ih =>
      by_cases he : e.1 = p
      · exact ⟨e, by simp, he⟩
      · simp only [cacheLookup, he, if_false] at h
        obtain ⟨d, hd, hp⟩ := ih h
        exact ⟨d, by simp [hd], hp⟩
  obtain ⟨e, he, rfl⟩ := this
  exact hc.2 e he

end Sys2Proof.Machine
end

