-- ==== Sys2Proof/Laws/State.lean ====
section
/-! SUPPORT. One lemma for each field and each named update of the state, true by rfl and tagged for
simp, so that no proof unfolds a record update; and what the derived readings see of an update. -/

namespace Sys2Proof.Machine

@[simp] theorem setGpr_r0 (s : State) (r : BitVec 2) (v : Word) :
    (s.setGpr r v).r0 = if r = 0 then v else s.r0 := rfl

@[simp] theorem setGpr_r1 (s : State) (r : BitVec 2) (v : Word) :
    (s.setGpr r v).r1 = if r = 1 then v else s.r1 := rfl

@[simp] theorem setGpr_r2 (s : State) (r : BitVec 2) (v : Word) :
    (s.setGpr r v).r2 = if r = 2 then v else s.r2 := rfl

@[simp] theorem setGpr_r3 (s : State) (r : BitVec 2) (v : Word) :
    (s.setGpr r v).r3 = if r = 3 then v else s.r3 := rfl

@[simp] theorem setGpr_x1 (s : State) (r : BitVec 2) (v : Word) :
    (s.setGpr r v).x1 = s.x1 := rfl

@[simp] theorem setGpr_x2 (s : State) (r : BitVec 2) (v : Word) :
    (s.setGpr r v).x2 = s.x2 := rfl

@[simp] theorem setGpr_x3 (s : State) (r : BitVec 2) (v : Word) :
    (s.setGpr r v).x3 = s.x3 := rfl

@[simp] theorem setGpr_fr0 (s : State) (r : BitVec 2) (v : Word) :
    (s.setGpr r v).fr0 = s.fr0 := rfl

@[simp] theorem setGpr_fr1 (s : State) (r : BitVec 2) (v : Word) :
    (s.setGpr r v).fr1 = s.fr1 := rfl

@[simp] theorem setGpr_pc (s : State) (r : BitVec 2) (v : Word) :
    (s.setGpr r v).pc = s.pc := rfl

@[simp] theorem setGpr_mar (s : State) (r : BitVec 2) (v : Word) :
    (s.setGpr r v).mar = s.mar := rfl

@[simp] theorem setGpr_mbr (s : State) (r : BitVec 2) (v : Word) :
    (s.setGpr r v).mbr = s.mbr := rfl

@[simp] theorem setGpr_ir (s : State) (r : BitVec 2) (v : Word) :
    (s.setGpr r v).ir = s.ir := rfl

@[simp] theorem setGpr_iar (s : State) (r : BitVec 2) (v : Word) :
    (s.setGpr r v).iar = s.iar := rfl

@[simp] theorem setGpr_irr (s : State) (r : BitVec 2) (v : Word) :
    (s.setGpr r v).irr = s.irr := rfl

@[simp] theorem setGpr_rs1 (s : State) (r : BitVec 2) (v : Word) :
    (s.setGpr r v).rs1 = s.rs1 := rfl

@[simp] theorem setGpr_mfr (s : State) (r : BitVec 2) (v : Word) :
    (s.setGpr r v).mfr = s.mfr := rfl

@[simp] theorem setGpr_cc (s : State) (r : BitVec 2) (v : Word) :
    (s.setGpr r v).cc = s.cc := rfl

@[simp] theorem setGpr_cyc (s : State) (r : BitVec 2) (v : Word) :
    (s.setGpr r v).cyc = s.cyc := rfl

@[simp] theorem setGpr_halted (s : State) (r : BitVec 2) (v : Word) :
    (s.setGpr r v).halted = s.halted := rfl

@[simp] theorem setGpr_memoryFault (s : State) (r : BitVec 2) (v : Word) :
    (s.setGpr r v).memoryFault = s.memoryFault := rfl

@[simp] theorem setGpr_runningUserProgram (s : State) (r : BitVec 2) (v : Word) :
    (s.setGpr r v).runningUserProgram = s.runningUserProgram := rfl

@[simp] theorem setGpr_mem (s : State) (r : BitVec 2) (v : Word) :
    (s.setGpr r v).mem = s.mem := rfl

@[simp] theorem setGpr_cache (s : State) (r : BitVec 2) (v : Word) :
    (s.setGpr r v).cache = s.cache := rfl

@[simp] theorem setGpr_writeBuffer (s : State) (r : BitVec 2) (v : Word) :
    (s.setGpr r v).writeBuffer = s.writeBuffer := rfl

@[simp] theorem setGpr_refused (s : State) (r : BitVec 2) (v : Word) :
    (s.setGpr r v).refused = s.refused := rfl

@[simp] theorem setGpr_inputWait (s : State) (r : BitVec 2) (v : Word) :
    (s.setGpr r v).inputWait = s.inputWait := rfl

@[simp] theorem setGpr_consoleInput (s : State) (r : BitVec 2) (v : Word) :
    (s.setGpr r v).consoleInput = s.consoleInput := rfl

@[simp] theorem setGpr_output (s : State) (r : BitVec 2) (v : Word) :
    (s.setGpr r v).output = s.output := rfl

@[simp] theorem setGpr_cfg (s : State) (r : BitVec 2) (v : Word) :
    (s.setGpr r v).cfg = s.cfg := rfl

@[simp] theorem setGpr_off (s : State) (r : BitVec 2) (v : Word) :
    (s.setGpr r v).off = s.off := rfl

@[simp] theorem setGpr_pcOf (s : State) (r : BitVec 2) (v : Word) (a : Word) :
    (s.setGpr r v).pcOf a = s.pcOf a := rfl

@[simp] theorem setGpr_marOf (s : State) (r : BitVec 2) (v : Word) (a : Word) :
    (s.setGpr r v).marOf a = s.marOf a := rfl

@[simp] theorem setGpr_bias (s : State) (r : BitVec 2) (v : Word) :
    (s.setGpr r v).bias = s.bias := rfl

@[simp] theorem setGpr_phys (s : State) (r : BitVec 2) (v : Word) (a : Word) :
    (s.setGpr r v).phys a = s.phys a := rfl

@[simp] theorem setGpr_peek (s : State) (r : BitVec 2) (v : Word) (a : Word) :
    (s.setGpr r v).peek a = s.peek a := rfl

@[simp] theorem setGpr_xr (s : State) (r : BitVec 2) (v : Word) (j : IxReg) :
    (s.setGpr r v).xr j = s.xr j := by cases j <;> rfl

@[simp] theorem setGpr_fr (s : State) (r : BitVec 2) (v : Word) (h : FReg) :
    (s.setGpr r v).fr h = s.fr h := by cases h <;> rfl

@[simp] theorem setGpr_irAddr (s : State) (r : BitVec 2) (v : Word) :
    (s.setGpr r v).irAddr = s.irAddr := rfl

@[simp] theorem setGpr_cacheGet (s : State) (r : BitVec 2) (v : Word) (p : Int) :
    (s.setGpr r v).cacheGet p = s.cacheGet p := rfl

@[simp] theorem setGpr_indexedAddress (s : State) (r : BitVec 2) (v : Word) (b : Bool) (o : OperandFields) :
    (s.setGpr r v).indexedAddress b o = s.indexedAddress b o := rfl

@[simp] theorem setGpr_effectiveAddress (s : State) (r : BitVec 2) (v : Word) (b c : Bool) (o : OperandFields) :
    (s.setGpr r v).effectiveAddress b c o = s.effectiveAddress b c o := rfl

@[simp] theorem setXr_r0 (s : State) (x : IxReg) (v : Word) :
    (s.setXr x v).r0 = s.r0 := rfl

@[simp] theorem setXr_r1 (s : State) (x : IxReg) (v : Word) :
    (s.setXr x v).r1 = s.r1 := rfl

@[simp] theorem setXr_r2 (s : State) (x : IxReg) (v : Word) :
    (s.setXr x v).r2 = s.r2 := rfl

@[simp] theorem setXr_r3 (s : State) (x : IxReg) (v : Word) :
    (s.setXr x v).r3 = s.r3 := rfl

@[simp] theorem setXr_x1 (s : State) (x : IxReg) (v : Word) :
    (s.setXr x v).x1 = if x = .x1 then v else s.x1 := rfl

@[simp] theorem setXr_x2 (s : State) (x : IxReg) (v : Word) :
    (s.setXr x v).x2 = if x = .x2 then v else s.x2 := rfl

@[simp] theorem setXr_x3 (s : State) (x : IxReg) (v : Word) :
    (s.setXr x v).x3 = if x = .x3 then v else s.x3 := rfl

@[simp] theorem setXr_fr0 (s : State) (x : IxReg) (v : Word) :
    (s.setXr x v).fr0 = s.fr0 := rfl

@[simp] theorem setXr_fr1 (s : State) (x : IxReg) (v : Word) :
    (s.setXr x v).fr1 = s.fr1 := rfl

@[simp] theorem setXr_pc (s : State) (x : IxReg) (v : Word) :
    (s.setXr x v).pc = s.pc := rfl

@[simp] theorem setXr_mar (s : State) (x : IxReg) (v : Word) :
    (s.setXr x v).mar = s.mar := rfl

@[simp] theorem setXr_mbr (s : State) (x : IxReg) (v : Word) :
    (s.setXr x v).mbr = s.mbr := rfl

@[simp] theorem setXr_ir (s : State) (x : IxReg) (v : Word) :
    (s.setXr x v).ir = s.ir := rfl

@[simp] theorem setXr_iar (s : State) (x : IxReg) (v : Word) :
    (s.setXr x v).iar = s.iar := rfl

@[simp] theorem setXr_irr (s : State) (x : IxReg) (v : Word) :
    (s.setXr x v).irr = s.irr := rfl

@[simp] theorem setXr_rs1 (s : State) (x : IxReg) (v : Word) :
    (s.setXr x v).rs1 = s.rs1 := rfl

@[simp] theorem setXr_mfr (s : State) (x : IxReg) (v : Word) :
    (s.setXr x v).mfr = s.mfr := rfl

@[simp] theorem setXr_cc (s : State) (x : IxReg) (v : Word) :
    (s.setXr x v).cc = s.cc := rfl

@[simp] theorem setXr_cyc (s : State) (x : IxReg) (v : Word) :
    (s.setXr x v).cyc = s.cyc := rfl

@[simp] theorem setXr_halted (s : State) (x : IxReg) (v : Word) :
    (s.setXr x v).halted = s.halted := rfl

@[simp] theorem setXr_memoryFault (s : State) (x : IxReg) (v : Word) :
    (s.setXr x v).memoryFault = s.memoryFault := rfl

@[simp] theorem setXr_runningUserProgram (s : State) (x : IxReg) (v : Word) :
    (s.setXr x v).runningUserProgram = s.runningUserProgram := rfl

@[simp] theorem setXr_mem (s : State) (x : IxReg) (v : Word) :
    (s.setXr x v).mem = s.mem := rfl

@[simp] theorem setXr_cache (s : State) (x : IxReg) (v : Word) :
    (s.setXr x v).cache = s.cache := rfl

@[simp] theorem setXr_writeBuffer (s : State) (x : IxReg) (v : Word) :
    (s.setXr x v).writeBuffer = s.writeBuffer := rfl

@[simp] theorem setXr_refused (s : State) (x : IxReg) (v : Word) :
    (s.setXr x v).refused = s.refused := rfl

@[simp] theorem setXr_inputWait (s : State) (x : IxReg) (v : Word) :
    (s.setXr x v).inputWait = s.inputWait := rfl

@[simp] theorem setXr_consoleInput (s : State) (x : IxReg) (v : Word) :
    (s.setXr x v).consoleInput = s.consoleInput := rfl

@[simp] theorem setXr_output (s : State) (x : IxReg) (v : Word) :
    (s.setXr x v).output = s.output := rfl

@[simp] theorem setXr_cfg (s : State) (x : IxReg) (v : Word) :
    (s.setXr x v).cfg = s.cfg := rfl

@[simp] theorem setXr_off (s : State) (x : IxReg) (v : Word) :
    (s.setXr x v).off = s.off := rfl

@[simp] theorem setXr_pcOf (s : State) (x : IxReg) (v : Word) (a : Word) :
    (s.setXr x v).pcOf a = s.pcOf a := rfl

@[simp] theorem setXr_marOf (s : State) (x : IxReg) (v : Word) (a : Word) :
    (s.setXr x v).marOf a = s.marOf a := rfl

@[simp] theorem setXr_bias (s : State) (x : IxReg) (v : Word) :
    (s.setXr x v).bias = s.bias := rfl

@[simp] theorem setXr_phys (s : State) (x : IxReg) (v : Word) (a : Word) :
    (s.setXr x v).phys a = s.phys a := rfl

@[simp] theorem setXr_peek (s : State) (x : IxReg) (v : Word) (a : Word) :
    (s.setXr x v).peek a = s.peek a := rfl

@[simp] theorem setXr_gpr (s : State) (x : IxReg) (v : Word) (g : BitVec 2) :
    (s.setXr x v).gpr g = s.gpr g := rfl

@[simp] theorem setXr_fr (s : State) (x : IxReg) (v : Word) (h : FReg) :
    (s.setXr x v).fr h = s.fr h := by cases h <;> rfl

@[simp] theorem setXr_irAddr (s : State) (x : IxReg) (v : Word) :
    (s.setXr x v).irAddr = s.irAddr := rfl

@[simp] theorem setXr_cacheGet (s : State) (x : IxReg) (v : Word) (p : Int) :
    (s.setXr x v).cacheGet p = s.cacheGet p := rfl

@[simp] theorem setFr_r0 (s : State) (f : FReg) (v : Word) :
    (s.setFr f v).r0 = s.r0 := rfl

@[simp] theorem setFr_r1 (s : State) (f : FReg) (v : Word) :
    (s.setFr f v).r1 = s.r1 := rfl

@[simp] theorem setFr_r2 (s : State) (f : FReg) (v : Word) :
    (s.setFr f v).r2 = s.r2 := rfl

@[simp] theorem setFr_r3 (s : State) (f : FReg) (v : Word) :
    (s.setFr f v).r3 = s.r3 := rfl

@[simp] theorem setFr_x1 (s : State) (f : FReg) (v : Word) :
    (s.setFr f v).x1 = s.x1 := rfl

@[simp] theorem setFr_x2 (s : State) (f : FReg) (v : Word) :
    (s.setFr f v).x2 = s.x2 := rfl

@[simp] theorem setFr_x3 (s : State) (f : FReg) (v : Word) :
    (s.setFr f v).x3 = s.x3 := rfl

@[simp] theorem setFr_fr0 (s : State) (f : FReg) (v : Word) :
    (s.setFr f v).fr0 = if f = .fr0 then v else s.fr0 := rfl

@[simp] theorem setFr_fr1 (s : State) (f : FReg) (v : Word) :
    (s.setFr f v).fr1 = if f = .fr1 then v else s.fr1 := rfl

@[simp] theorem setFr_pc (s : State) (f : FReg) (v : Word) :
    (s.setFr f v).pc = s.pc := rfl

@[simp] theorem setFr_mar (s : State) (f : FReg) (v : Word) :
    (s.setFr f v).mar = s.mar := rfl

@[simp] theorem setFr_mbr (s : State) (f : FReg) (v : Word) :
    (s.setFr f v).mbr = s.mbr := rfl

@[simp] theorem setFr_ir (s : State) (f : FReg) (v : Word) :
    (s.setFr f v).ir = s.ir := rfl

@[simp] theorem setFr_iar (s : State) (f : FReg) (v : Word) :
    (s.setFr f v).iar = s.iar := rfl

@[simp] theorem setFr_irr (s : State) (f : FReg) (v : Word) :
    (s.setFr f v).irr = s.irr := rfl

@[simp] theorem setFr_rs1 (s : State) (f : FReg) (v : Word) :
    (s.setFr f v).rs1 = s.rs1 := rfl

@[simp] theorem setFr_mfr (s : State) (f : FReg) (v : Word) :
    (s.setFr f v).mfr = s.mfr := rfl

@[simp] theorem setFr_cc (s : State) (f : FReg) (v : Word) :
    (s.setFr f v).cc = s.cc := rfl

@[simp] theorem setFr_cyc (s : State) (f : FReg) (v : Word) :
    (s.setFr f v).cyc = s.cyc := rfl

@[simp] theorem setFr_halted (s : State) (f : FReg) (v : Word) :
    (s.setFr f v).halted = s.halted := rfl

@[simp] theorem setFr_memoryFault (s : State) (f : FReg) (v : Word) :
    (s.setFr f v).memoryFault = s.memoryFault := rfl

@[simp] theorem setFr_runningUserProgram (s : State) (f : FReg) (v : Word) :
    (s.setFr f v).runningUserProgram = s.runningUserProgram := rfl

@[simp] theorem setFr_mem (s : State) (f : FReg) (v : Word) :
    (s.setFr f v).mem = s.mem := rfl

@[simp] theorem setFr_cache (s : State) (f : FReg) (v : Word) :
    (s.setFr f v).cache = s.cache := rfl

@[simp] theorem setFr_writeBuffer (s : State) (f : FReg) (v : Word) :
    (s.setFr f v).writeBuffer = s.writeBuffer := rfl

@[simp] theorem setFr_refused (s : State) (f : FReg) (v : Word) :
    (s.setFr f v).refused = s.refused := rfl

@[simp] theorem setFr_inputWait (s : State) (f : FReg) (v : Word) :
    (s.setFr f v).inputWait = s.inputWait := rfl

@[simp] theorem setFr_consoleInput (s : State) (f : FReg) (v : Word) :
    (s.setFr f v).consoleInput = s.consoleInput := rfl

@[simp] theorem setFr_output (s : State) (f : FReg) (v : Word) :
    (s.setFr f v).output = s.output := rfl

@[simp] theorem setFr_cfg (s : State) (f : FReg) (v : Word) :
    (s.setFr f v).cfg = s.cfg := rfl

@[simp] theorem setFr_off (s : State) (f : FReg) (v : Word) :
    (s.setFr f v).off = s.off := rfl

@[simp] theorem setFr_pcOf (s : State) (f : FReg) (v : Word) (a : Word) :
    (s.setFr f v).pcOf a = s.pcOf a := rfl

@[simp] theorem setFr_marOf (s : State) (f : FReg) (v : Word) (a : Word) :
    (s.setFr f v).marOf a = s.marOf a := rfl

@[simp] theorem setFr_bias (s : State) (f : FReg) (v : Word) :
    (s.setFr f v).bias = s.bias := rfl

@[simp] theorem setFr_phys (s : State) (f : FReg) (v : Word) (a : Word) :
    (s.setFr f v).phys a = s.phys a := rfl

@[simp] theorem setFr_peek (s : State) (f : FReg) (v : Word) (a : Word) :
    (s.setFr f v).peek a = s.peek a := rfl

@[simp] theorem setFr_gpr (s : State) (f : FReg) (v : Word) (g : BitVec 2) :
    (s.setFr f v).gpr g = s.gpr g := rfl

@[simp] theorem setFr_xr (s : State) (f : FReg) (v : Word) (j : IxReg) :
    (s.setFr f v).xr j = s.xr j := by cases j <;> rfl

@[simp] theorem setFr_irAddr (s : State) (f : FReg) (v : Word) :
    (s.setFr f v).irAddr = s.irAddr := rfl

@[simp] theorem setFr_cacheGet (s : State) (f : FReg) (v : Word) (p : Int) :
    (s.setFr f v).cacheGet p = s.cacheGet p := rfl

@[simp] theorem setFr_indexedAddress (s : State) (f : FReg) (v : Word) (b : Bool) (o : OperandFields) :
    (s.setFr f v).indexedAddress b o = s.indexedAddress b o := rfl

@[simp] theorem setFr_effectiveAddress (s : State) (f : FReg) (v : Word) (b c : Bool) (o : OperandFields) :
    (s.setFr f v).effectiveAddress b c o = s.effectiveAddress b c o := rfl

@[simp] theorem memfault_r0 (s : State) (k : FaultKind) :
    (s.memfault k).r0 = s.r0 := rfl

@[simp] theorem memfault_r1 (s : State) (k : FaultKind) :
    (s.memfault k).r1 = s.r1 := rfl

@[simp] theorem memfault_r2 (s : State) (k : FaultKind) :
    (s.memfault k).r2 = s.r2 := rfl

@[simp] theorem memfault_r3 (s : State) (k : FaultKind) :
    (s.memfault k).r3 = s.r3 := rfl

@[simp] theorem memfault_x1 (s : State) (k : FaultKind) :
    (s.memfault k).x1 = s.x1 := rfl

@[simp] theorem memfault_x2 (s : State) (k : FaultKind) :
    (s.memfault k).x2 = s.x2 := rfl

@[simp] theorem memfault_x3 (s : State) (k : FaultKind) :
    (s.memfault k).x3 = s.x3 := rfl

@[simp] theorem memfault_fr0 (s : State) (k : FaultKind) :
    (s.memfault k).fr0 = s.fr0 := rfl

@[simp] theorem memfault_fr1 (s : State) (k : FaultKind) :
    (s.memfault k).fr1 = s.fr1 := rfl

@[simp] theorem memfault_pc (s : State) (k : FaultKind) :
    (s.memfault k).pc = s.pc := rfl

@[simp] theorem memfault_mar (s : State) (k : FaultKind) :
    (s.memfault k).mar = s.mar := rfl

@[simp] theorem memfault_mbr (s : State) (k : FaultKind) :
    (s.memfault k).mbr = s.mbr := rfl

@[simp] theorem memfault_ir (s : State) (k : FaultKind) :
    (s.memfault k).ir = s.ir := rfl

@[simp] theorem memfault_iar (s : State) (k : FaultKind) :
    (s.memfault k).iar = s.iar := rfl

@[simp] theorem memfault_irr (s : State) (k : FaultKind) :
    (s.memfault k).irr = s.irr := rfl

@[simp] theorem memfault_rs1 (s : State) (k : FaultKind) :
    (s.memfault k).rs1 = s.rs1 := rfl

@[simp] theorem memfault_mfr (s : State) (k : FaultKind) :
    (s.memfault k).mfr = s.mfr := rfl

@[simp] theorem memfault_cc (s : State) (k : FaultKind) :
    (s.memfault k).cc = s.cc := rfl

@[simp] theorem memfault_cyc (s : State) (k : FaultKind) :
    (s.memfault k).cyc = { s.cyc with pendingFault := some k } := rfl

@[simp] theorem memfault_halted (s : State) (k : FaultKind) :
    (s.memfault k).halted = s.halted := rfl

@[simp] theorem memfault_memoryFault (s : State) (k : FaultKind) :
    (s.memfault k).memoryFault = latchOf k s.memoryFault := rfl

@[simp] theorem memfault_runningUserProgram (s : State) (k : FaultKind) :
    (s.memfault k).runningUserProgram = s.runningUserProgram := rfl

@[simp] theorem memfault_mem (s : State) (k : FaultKind) :
    (s.memfault k).mem = s.mem := rfl

@[simp] theorem memfault_cache (s : State) (k : FaultKind) :
    (s.memfault k).cache = s.cache := rfl

@[simp] theorem memfault_writeBuffer (s : State) (k : FaultKind) :
    (s.memfault k).writeBuffer = s.writeBuffer := rfl

@[simp] theorem memfault_refused (s : State) (k : FaultKind) :
    (s.memfault k).refused = s.refused := rfl

@[simp] theorem memfault_inputWait (s : State) (k : FaultKind) :
    (s.memfault k).inputWait = s.inputWait := rfl

@[simp] theorem memfault_consoleInput (s : State) (k : FaultKind) :
    (s.memfault k).consoleInput = s.consoleInput := rfl

@[simp] theorem memfault_output (s : State) (k : FaultKind) :
    (s.memfault k).output = s.output := rfl

@[simp] theorem memfault_cfg (s : State) (k : FaultKind) :
    (s.memfault k).cfg = s.cfg := rfl

@[simp] theorem memfault_off (s : State) (k : FaultKind) :
    (s.memfault k).off = s.off := rfl

@[simp] theorem memfault_pcOf (s : State) (k : FaultKind) (a : Word) :
    (s.memfault k).pcOf a = s.pcOf a := rfl

@[simp] theorem memfault_marOf (s : State) (k : FaultKind) (a : Word) :
    (s.memfault k).marOf a = s.marOf a := rfl

@[simp] theorem memfault_bias (s : State) (k : FaultKind) :
    (s.memfault k).bias = s.bias := rfl

@[simp] theorem memfault_phys (s : State) (k : FaultKind) (a : Word) :
    (s.memfault k).phys a = s.phys a := rfl

@[simp] theorem memfault_peek (s : State) (k : FaultKind) (a : Word) :
    (s.memfault k).peek a = s.peek a := rfl

@[simp] theorem memfault_gpr (s : State) (k : FaultKind) (g : BitVec 2) :
    (s.memfault k).gpr g = s.gpr g := rfl

@[simp] theorem memfault_xr (s : State) (k : FaultKind) (j : IxReg) :
    (s.memfault k).xr j = s.xr j := by cases j <;> rfl

@[simp] theorem memfault_fr (s : State) (k : FaultKind) (h : FReg) :
    (s.memfault k).fr h = s.fr h := by cases h <;> rfl

@[simp] theorem memfault_irAddr (s : State) (k : FaultKind) :
    (s.memfault k).irAddr = s.irAddr := rfl

@[simp] theorem memfault_cacheGet (s : State) (k : FaultKind) (p : Int) :
    (s.memfault k).cacheGet p = s.cacheGet p := rfl

@[simp] theorem memfault_indexedAddress (s : State) (k : FaultKind) (b : Bool) (o : OperandFields) :
    (s.memfault k).indexedAddress b o = s.indexedAddress b o := rfl

@[simp] theorem memfault_effectiveAddress (s : State) (k : FaultKind) (b c : Bool) (o : OperandFields) :
    (s.memfault k).effectiveAddress b c o = s.effectiveAddress b c o := rfl

@[simp] theorem endCycle_r0 (s : State) (next : Word) :
    (s.endCycle next).r0 = s.r0 := rfl

@[simp] theorem endCycle_r1 (s : State) (next : Word) :
    (s.endCycle next).r1 = s.r1 := rfl

@[simp] theorem endCycle_r2 (s : State) (next : Word) :
    (s.endCycle next).r2 = s.r2 := rfl

@[simp] theorem endCycle_r3 (s : State) (next : Word) :
    (s.endCycle next).r3 = s.r3 := rfl

@[simp] theorem endCycle_x1 (s : State) (next : Word) :
    (s.endCycle next).x1 = s.x1 := rfl

@[simp] theorem endCycle_x2 (s : State) (next : Word) :
    (s.endCycle next).x2 = s.x2 := rfl

@[simp] theorem endCycle_x3 (s : State) (next : Word) :
    (s.endCycle next).x3 = s.x3 := rfl

@[simp] theorem endCycle_fr0 (s : State) (next : Word) :
    (s.endCycle next).fr0 = s.fr0 := rfl

@[simp] theorem endCycle_fr1 (s : State) (next : Word) :
    (s.endCycle next).fr1 = s.fr1 := rfl

@[simp] theorem endCycle_pc (s : State) (next : Word) :
    (s.endCycle next).pc = s.pcOf next := rfl

@[simp] theorem endCycle_mar (s : State) (next : Word) :
    (s.endCycle next).mar = s.mar := rfl

@[simp] theorem endCycle_mbr (s : State) (next : Word) :
    (s.endCycle next).mbr = s.mbr := rfl

@[simp] theorem endCycle_ir (s : State) (next : Word) :
    (s.endCycle next).ir = s.ir := rfl

@[simp] theorem endCycle_iar (s : State) (next : Word) :
    (s.endCycle next).iar = s.iar := rfl

@[simp] theorem endCycle_irr (s : State) (next : Word) :
    (s.endCycle next).irr = s.irr := rfl

@[simp] theorem endCycle_rs1 (s : State) (next : Word) :
    (s.endCycle next).rs1 = s.rs1 := rfl

@[simp] theorem endCycle_mfr (s : State) (next : Word) :
    (s.endCycle next).mfr = s.mfr := rfl

@[simp] theorem endCycle_cc (s : State) (next : Word) :
    (s.endCycle next).cc = s.cc := rfl

@[simp] theorem endCycle_cyc (s : State) (next : Word) :
    (s.endCycle next).cyc = CycleFlags.cleared := rfl

@[simp] theorem endCycle_halted (s : State) (next : Word) :
    (s.endCycle next).halted = s.halted := rfl

@[simp] theorem endCycle_memoryFault (s : State) (next : Word) :
    (s.endCycle next).memoryFault = s.memoryFault := rfl

@[simp] theorem endCycle_runningUserProgram (s : State) (next : Word) :
    (s.endCycle next).runningUserProgram = s.runningUserProgram := rfl

@[simp] theorem endCycle_mem (s : State) (next : Word) :
    (s.endCycle next).mem = s.mem := rfl

@[simp] theorem endCycle_cache (s : State) (next : Word) :
    (s.endCycle next).cache = s.cache := rfl

@[simp] theorem endCycle_writeBuffer (s : State) (next : Word) :
    (s.endCycle next).writeBuffer = s.writeBuffer := rfl

@[simp] theorem endCycle_refused (s : State) (next : Word) :
    (s.endCycle next).refused = s.refused := rfl

@[simp] theorem endCycle_inputWait (s : State) (next : Word) :
    (s.endCycle next).inputWait = s.inputWait := rfl

@[simp] theorem endCycle_consoleInput (s : State) (next : Word) :
    (s.endCycle next).consoleInput = s.consoleInput := rfl

@[simp] theorem endCycle_output (s : State) (next : Word) :
    (s.endCycle next).output = s.output := rfl

@[simp] theorem endCycle_cfg (s : State) (next : Word) :
    (s.endCycle next).cfg = s.cfg := rfl

@[simp] theorem endCycle_off (s : State) (next : Word) :
    (s.endCycle next).off = s.off := rfl

@[simp] theorem endCycle_pcOf (s : State) (next : Word) (a : Word) :
    (s.endCycle next).pcOf a = s.pcOf a := rfl

@[simp] theorem endCycle_marOf (s : State) (next : Word) (a : Word) :
    (s.endCycle next).marOf a = s.marOf a := rfl

@[simp] theorem endCycle_bias (s : State) (next : Word) :
    (s.endCycle next).bias = s.bias := rfl

@[simp] theorem endCycle_phys (s : State) (next : Word) (a : Word) :
    (s.endCycle next).phys a = s.phys a := rfl

@[simp] theorem endCycle_peek (s : State) (next : Word) (a : Word) :
    (s.endCycle next).peek a = s.peek a := rfl

@[simp] theorem endCycle_gpr (s : State) (next : Word) (g : BitVec 2) :
    (s.endCycle next).gpr g = s.gpr g := rfl

@[simp] theorem endCycle_xr (s : State) (next : Word) (j : IxReg) :
    (s.endCycle next).xr j = s.xr j := by cases j <;> rfl

@[simp] theorem endCycle_fr (s : State) (next : Word) (h : FReg) :
    (s.endCycle next).fr h = s.fr h := by cases h <;> rfl

@[simp] theorem endCycle_irAddr (s : State) (next : Word) :
    (s.endCycle next).irAddr = s.irAddr := rfl

@[simp] theorem endCycle_cacheGet (s : State) (next : Word) (p : Int) :
    (s.endCycle next).cacheGet p = s.cacheGet p := rfl

@[simp] theorem endCycle_indexedAddress (s : State) (next : Word) (b : Bool) (o : OperandFields) :
    (s.endCycle next).indexedAddress b o = s.indexedAddress b o := rfl

@[simp] theorem endCycle_effectiveAddress (s : State) (next : Word) (b c : Bool) (o : OperandFields) :
    (s.endCycle next).effectiveAddress b c o = s.effectiveAddress b c o := rfl

@[simp] theorem latchRs1_r0 (s : State) (r : BitVec 2) :
    (s.latchRs1 r).r0 = s.r0 := rfl

@[simp] theorem latchRs1_r1 (s : State) (r : BitVec 2) :
    (s.latchRs1 r).r1 = s.r1 := rfl

@[simp] theorem latchRs1_r2 (s : State) (r : BitVec 2) :
    (s.latchRs1 r).r2 = s.r2 := rfl

@[simp] theorem latchRs1_r3 (s : State) (r : BitVec 2) :
    (s.latchRs1 r).r3 = s.r3 := rfl

@[simp] theorem latchRs1_x1 (s : State) (r : BitVec 2) :
    (s.latchRs1 r).x1 = s.x1 := rfl

@[simp] theorem latchRs1_x2 (s : State) (r : BitVec 2) :
    (s.latchRs1 r).x2 = s.x2 := rfl

@[simp] theorem latchRs1_x3 (s : State) (r : BitVec 2) :
    (s.latchRs1 r).x3 = s.x3 := rfl

@[simp] theorem latchRs1_fr0 (s : State) (r : BitVec 2) :
    (s.latchRs1 r).fr0 = s.fr0 := rfl

@[simp] theorem latchRs1_fr1 (s : State) (r : BitVec 2) :
    (s.latchRs1 r).fr1 = s.fr1 := rfl

@[simp] theorem latchRs1_pc (s : State) (r : BitVec 2) :
    (s.latchRs1 r).pc = s.pc := rfl

@[simp] theorem latchRs1_mar (s : State) (r : BitVec 2) :
    (s.latchRs1 r).mar = s.mar := rfl

@[simp] theorem latchRs1_mbr (s : State) (r : BitVec 2) :
    (s.latchRs1 r).mbr = s.mbr := rfl

@[simp] theorem latchRs1_ir (s : State) (r : BitVec 2) :
    (s.latchRs1 r).ir = s.ir := rfl

@[simp] theorem latchRs1_iar (s : State) (r : BitVec 2) :
    (s.latchRs1 r).iar = s.iar := rfl

@[simp] theorem latchRs1_irr (s : State) (r : BitVec 2) :
    (s.latchRs1 r).irr = s.irr := rfl

@[simp] theorem latchRs1_rs1 (s : State) (r : BitVec 2) :
    (s.latchRs1 r).rs1 = r := rfl

@[simp] theorem latchRs1_mfr (s : State) (r : BitVec 2) :
    (s.latchRs1 r).mfr = s.mfr := rfl

@[simp] theorem latchRs1_cc (s : State) (r : BitVec 2) :
    (s.latchRs1 r).cc = s.cc := rfl

@[simp] theorem latchRs1_cyc (s : State) (r : BitVec 2) :
    (s.latchRs1 r).cyc = s.cyc := rfl

@[simp] theorem latchRs1_halted (s : State) (r : BitVec 2) :
    (s.latchRs1 r).halted = s.halted := rfl

@[simp] theorem latchRs1_memoryFault (s : State) (r : BitVec 2) :
    (s.latchRs1 r).memoryFault = s.memoryFault := rfl

@[simp] theorem latchRs1_runningUserProgram (s : State) (r : BitVec 2) :
    (s.latchRs1 r).runningUserProgram = s.runningUserProgram := rfl

@[simp] theorem latchRs1_mem (s : State) (r : BitVec 2) :
    (s.latchRs1 r).mem = s.mem := rfl

@[simp] theorem latchRs1_cache (s : State) (r : BitVec 2) :
    (s.latchRs1 r).cache = s.cache := rfl

@[simp] theorem latchRs1_writeBuffer (s : State) (r : BitVec 2) :
    (s.latchRs1 r).writeBuffer = s.writeBuffer := rfl

@[simp] theorem latchRs1_refused (s : State) (r : BitVec 2) :
    (s.latchRs1 r).refused = s.refused := rfl

@[simp] theorem latchRs1_inputWait (s : State) (r : BitVec 2) :
    (s.latchRs1 r).inputWait = s.inputWait := rfl

@[simp] theorem latchRs1_consoleInput (s : State) (r : BitVec 2) :
    (s.latchRs1 r).consoleInput = s.consoleInput := rfl

@[simp] theorem latchRs1_output (s : State) (r : BitVec 2) :
    (s.latchRs1 r).output = s.output := rfl

@[simp] theorem latchRs1_cfg (s : State) (r : BitVec 2) :
    (s.latchRs1 r).cfg = s.cfg := rfl

@[simp] theorem latchRs1_off (s : State) (r : BitVec 2) :
    (s.latchRs1 r).off = s.off := rfl

@[simp] theorem latchRs1_pcOf (s : State) (r : BitVec 2) (a : Word) :
    (s.latchRs1 r).pcOf a = s.pcOf a := rfl

@[simp] theorem latchRs1_marOf (s : State) (r : BitVec 2) (a : Word) :
    (s.latchRs1 r).marOf a = s.marOf a := rfl

@[simp] theorem latchRs1_bias (s : State) (r : BitVec 2) :
    (s.latchRs1 r).bias = s.bias := rfl

@[simp] theorem latchRs1_phys (s : State) (r : BitVec 2) (a : Word) :
    (s.latchRs1 r).phys a = s.phys a := rfl

@[simp] theorem latchRs1_peek (s : State) (r : BitVec 2) (a : Word) :
    (s.latchRs1 r).peek a = s.peek a := rfl

@[simp] theorem latchRs1_gpr (s : State) (r : BitVec 2) (g : BitVec 2) :
    (s.latchRs1 r).gpr g = s.gpr g := rfl

@[simp] theorem latchRs1_xr (s : State) (r : BitVec 2) (j : IxReg) :
    (s.latchRs1 r).xr j = s.xr j := by cases j <;> rfl

@[simp] theorem latchRs1_fr (s : State) (r : BitVec 2) (h : FReg) :
    (s.latchRs1 r).fr h = s.fr h := by cases h <;> rfl

@[simp] theorem latchRs1_irAddr (s : State) (r : BitVec 2) :
    (s.latchRs1 r).irAddr = s.irAddr := rfl

@[simp] theorem latchRs1_cacheGet (s : State) (r : BitVec 2) (p : Int) :
    (s.latchRs1 r).cacheGet p = s.cacheGet p := rfl

@[simp] theorem latchRs1_indexedAddress (s : State) (r : BitVec 2) (b : Bool) (o : OperandFields) :
    (s.latchRs1 r).indexedAddress b o = s.indexedAddress b o := rfl

@[simp] theorem latchRs1_effectiveAddress (s : State) (r : BitVec 2) (b c : Bool) (o : OperandFields) :
    (s.latchRs1 r).effectiveAddress b c o = s.effectiveAddress b c o := rfl

@[simp] theorem setFlags_r0 (s : State) (row : DecodeRow) (trap : Bool) :
    (s.setFlags row trap).r0 = s.r0 := rfl

@[simp] theorem setFlags_r1 (s : State) (row : DecodeRow) (trap : Bool) :
    (s.setFlags row trap).r1 = s.r1 := rfl

@[simp] theorem setFlags_r2 (s : State) (row : DecodeRow) (trap : Bool) :
    (s.setFlags row trap).r2 = s.r2 := rfl

@[simp] theorem setFlags_r3 (s : State) (row : DecodeRow) (trap : Bool) :
    (s.setFlags row trap).r3 = s.r3 := rfl

@[simp] theorem setFlags_x1 (s : State) (row : DecodeRow) (trap : Bool) :
    (s.setFlags row trap).x1 = s.x1 := rfl

@[simp] theorem setFlags_x2 (s : State) (row : DecodeRow) (trap : Bool) :
    (s.setFlags row trap).x2 = s.x2 := rfl

@[simp] theorem setFlags_x3 (s : State) (row : DecodeRow) (trap : Bool) :
    (s.setFlags row trap).x3 = s.x3 := rfl

@[simp] theorem setFlags_fr0 (s : State) (row : DecodeRow) (trap : Bool) :
    (s.setFlags row trap).fr0 = s.fr0 := rfl

@[simp] theorem setFlags_fr1 (s : State) (row : DecodeRow) (trap : Bool) :
    (s.setFlags row trap).fr1 = s.fr1 := rfl

@[simp] theorem setFlags_pc (s : State) (row : DecodeRow) (trap : Bool) :
    (s.setFlags row trap).pc = s.pc := rfl

@[simp] theorem setFlags_mar (s : State) (row : DecodeRow) (trap : Bool) :
    (s.setFlags row trap).mar = s.mar := rfl

@[simp] theorem setFlags_mbr (s : State) (row : DecodeRow) (trap : Bool) :
    (s.setFlags row trap).mbr = s.mbr := rfl

@[simp] theorem setFlags_ir (s : State) (row : DecodeRow) (trap : Bool) :
    (s.setFlags row trap).ir = s.ir := rfl

@[simp] theorem setFlags_iar (s : State) (row : DecodeRow) (trap : Bool) :
    (s.setFlags row trap).iar = s.iar := rfl

@[simp] theorem setFlags_irr (s : State) (row : DecodeRow) (trap : Bool) :
    (s.setFlags row trap).irr = s.irr := rfl

@[simp] theorem setFlags_rs1 (s : State) (row : DecodeRow) (trap : Bool) :
    (s.setFlags row trap).rs1 = s.rs1 := rfl

@[simp] theorem setFlags_mfr (s : State) (row : DecodeRow) (trap : Bool) :
    (s.setFlags row trap).mfr = s.mfr := rfl

@[simp] theorem setFlags_cc (s : State) (row : DecodeRow) (trap : Bool) :
    (s.setFlags row trap).cc = s.cc := rfl

@[simp] theorem setFlags_cyc (s : State) (row : DecodeRow) (trap : Bool) :
    (s.setFlags row trap).cyc = { s.cyc with
      target := row.target, kind := row.kind, indexEnabled := row.indexEnabled,
      indirectEnabled := row.indirectEnabled, trapTaken := trap } := rfl

@[simp] theorem setFlags_halted (s : State) (row : DecodeRow) (trap : Bool) :
    (s.setFlags row trap).halted = s.halted := rfl

@[simp] theorem setFlags_memoryFault (s : State) (row : DecodeRow) (trap : Bool) :
    (s.setFlags row trap).memoryFault = s.memoryFault := rfl

@[simp] theorem setFlags_runningUserProgram (s : State) (row : DecodeRow) (trap : Bool) :
    (s.setFlags row trap).runningUserProgram = s.runningUserProgram := rfl

@[simp] theorem setFlags_mem (s : State) (row : DecodeRow) (trap : Bool) :
    (s.setFlags row trap).mem = s.mem := rfl

@[simp] theorem setFlags_cache (s : State) (row : DecodeRow) (trap : Bool) :
    (s.setFlags row trap).cache = s.cache := rfl

@[simp] theorem setFlags_writeBuffer (s : State) (row : DecodeRow) (trap : Bool) :
    (s.setFlags row trap).writeBuffer = s.writeBuffer := rfl

@[simp] theorem setFlags_refused (s : State) (row : DecodeRow) (trap : Bool) :
    (s.setFlags row trap).refused = s.refused := rfl

@[simp] theorem setFlags_inputWait (s : State) (row : DecodeRow) (trap : Bool) :
    (s.setFlags row trap).inputWait = s.inputWait := rfl

@[simp] theorem setFlags_consoleInput (s : State) (row : DecodeRow) (trap : Bool) :
    (s.setFlags row trap).consoleInput = s.consoleInput := rfl

@[simp] theorem setFlags_output (s : State) (row : DecodeRow) (trap : Bool) :
    (s.setFlags row trap).output = s.output := rfl

@[simp] theorem setFlags_cfg (s : State) (row : DecodeRow) (trap : Bool) :
    (s.setFlags row trap).cfg = s.cfg := rfl

@[simp] theorem setFlags_off (s : State) (row : DecodeRow) (trap : Bool) :
    (s.setFlags row trap).off = s.off := rfl

@[simp] theorem setFlags_pcOf (s : State) (row : DecodeRow) (trap : Bool) (a : Word) :
    (s.setFlags row trap).pcOf a = s.pcOf a := rfl

@[simp] theorem setFlags_marOf (s : State) (row : DecodeRow) (trap : Bool) (a : Word) :
    (s.setFlags row trap).marOf a = s.marOf a := rfl

@[simp] theorem setFlags_bias (s : State) (row : DecodeRow) (trap : Bool) :
    (s.setFlags row trap).bias = s.bias := rfl

@[simp] theorem setFlags_phys (s : State) (row : DecodeRow) (trap : Bool) (a : Word) :
    (s.setFlags row trap).phys a = s.phys a := rfl

@[simp] theorem setFlags_peek (s : State) (row : DecodeRow) (trap : Bool) (a : Word) :
    (s.setFlags row trap).peek a = s.peek a := rfl

@[simp] theorem setFlags_gpr (s : State) (row : DecodeRow) (trap : Bool) (g : BitVec 2) :
    (s.setFlags row trap).gpr g = s.gpr g := rfl

@[simp] theorem setFlags_xr (s : State) (row : DecodeRow) (trap : Bool) (j : IxReg) :
    (s.setFlags row trap).xr j = s.xr j := by cases j <;> rfl

@[simp] theorem setFlags_fr (s : State) (row : DecodeRow) (trap : Bool) (h : FReg) :
    (s.setFlags row trap).fr h = s.fr h := by cases h <;> rfl

@[simp] theorem setFlags_irAddr (s : State) (row : DecodeRow) (trap : Bool) :
    (s.setFlags row trap).irAddr = s.irAddr := rfl

@[simp] theorem setFlags_cacheGet (s : State) (row : DecodeRow) (trap : Bool) (p : Int) :
    (s.setFlags row trap).cacheGet p = s.cacheGet p := rfl

@[simp] theorem setFlags_indexedAddress (s : State) (row : DecodeRow) (trap : Bool) (b : Bool) (o : OperandFields) :
    (s.setFlags row trap).indexedAddress b o = s.indexedAddress b o := rfl

@[simp] theorem setFlags_effectiveAddress (s : State) (row : DecodeRow) (trap : Bool) (b c : Bool) (o : OperandFields) :
    (s.setFlags row trap).effectiveAddress b c o = s.effectiveAddress b c o := rfl

@[simp] theorem operandRead_r0 (s : State) (ea w : Word) :
    (s.operandRead ea w).r0 = s.r0 := rfl

@[simp] theorem operandRead_r1 (s : State) (ea w : Word) :
    (s.operandRead ea w).r1 = s.r1 := rfl

@[simp] theorem operandRead_r2 (s : State) (ea w : Word) :
    (s.operandRead ea w).r2 = s.r2 := rfl

@[simp] theorem operandRead_r3 (s : State) (ea w : Word) :
    (s.operandRead ea w).r3 = s.r3 := rfl

@[simp] theorem operandRead_x1 (s : State) (ea w : Word) :
    (s.operandRead ea w).x1 = s.x1 := rfl

@[simp] theorem operandRead_x2 (s : State) (ea w : Word) :
    (s.operandRead ea w).x2 = s.x2 := rfl

@[simp] theorem operandRead_x3 (s : State) (ea w : Word) :
    (s.operandRead ea w).x3 = s.x3 := rfl

@[simp] theorem operandRead_fr0 (s : State) (ea w : Word) :
    (s.operandRead ea w).fr0 = s.fr0 := rfl

@[simp] theorem operandRead_fr1 (s : State) (ea w : Word) :
    (s.operandRead ea w).fr1 = s.fr1 := rfl

@[simp] theorem operandRead_pc (s : State) (ea w : Word) :
    (s.operandRead ea w).pc = s.pc := rfl

@[simp] theorem operandRead_mar (s : State) (ea w : Word) :
    (s.operandRead ea w).mar = s.marOf ea := rfl

@[simp] theorem operandRead_mbr (s : State) (ea w : Word) :
    (s.operandRead ea w).mbr = w := rfl

@[simp] theorem operandRead_ir (s : State) (ea w : Word) :
    (s.operandRead ea w).ir = s.ir := rfl

@[simp] theorem operandRead_iar (s : State) (ea w : Word) :
    (s.operandRead ea w).iar = ea := rfl

@[simp] theorem operandRead_irr (s : State) (ea w : Word) :
    (s.operandRead ea w).irr = s.irr := rfl

@[simp] theorem operandRead_rs1 (s : State) (ea w : Word) :
    (s.operandRead ea w).rs1 = s.rs1 := rfl

@[simp] theorem operandRead_mfr (s : State) (ea w : Word) :
    (s.operandRead ea w).mfr = s.mfr := rfl

@[simp] theorem operandRead_cc (s : State) (ea w : Word) :
    (s.operandRead ea w).cc = s.cc := rfl

@[simp] theorem operandRead_cyc (s : State) (ea w : Word) :
    (s.operandRead ea w).cyc = s.cyc := rfl

@[simp] theorem operandRead_halted (s : State) (ea w : Word) :
    (s.operandRead ea w).halted = s.halted := rfl

@[simp] theorem operandRead_memoryFault (s : State) (ea w : Word) :
    (s.operandRead ea w).memoryFault = s.memoryFault := rfl

@[simp] theorem operandRead_runningUserProgram (s : State) (ea w : Word) :
    (s.operandRead ea w).runningUserProgram = s.runningUserProgram := rfl

@[simp] theorem operandRead_mem (s : State) (ea w : Word) :
    (s.operandRead ea w).mem = s.mem := rfl

@[simp] theorem operandRead_cache (s : State) (ea w : Word) :
    (s.operandRead ea w).cache = s.cache := rfl

@[simp] theorem operandRead_writeBuffer (s : State) (ea w : Word) :
    (s.operandRead ea w).writeBuffer = s.writeBuffer := rfl

@[simp] theorem operandRead_refused (s : State) (ea w : Word) :
    (s.operandRead ea w).refused = s.refused := rfl

@[simp] theorem operandRead_inputWait (s : State) (ea w : Word) :
    (s.operandRead ea w).inputWait = s.inputWait := rfl

@[simp] theorem operandRead_consoleInput (s : State) (ea w : Word) :
    (s.operandRead ea w).consoleInput = s.consoleInput := rfl

@[simp] theorem operandRead_output (s : State) (ea w : Word) :
    (s.operandRead ea w).output = s.output := rfl

@[simp] theorem operandRead_cfg (s : State) (ea w : Word) :
    (s.operandRead ea w).cfg = s.cfg := rfl

@[simp] theorem operandRead_off (s : State) (ea w : Word) :
    (s.operandRead ea w).off = s.off := rfl

@[simp] theorem operandRead_pcOf (s : State) (ea w : Word) (a : Word) :
    (s.operandRead ea w).pcOf a = s.pcOf a := rfl

@[simp] theorem operandRead_marOf (s : State) (ea w : Word) (a : Word) :
    (s.operandRead ea w).marOf a = s.marOf a := rfl

@[simp] theorem operandRead_bias (s : State) (ea w : Word) :
    (s.operandRead ea w).bias = s.bias := rfl

@[simp] theorem operandRead_phys (s : State) (ea w : Word) (a : Word) :
    (s.operandRead ea w).phys a = s.phys a := rfl

@[simp] theorem operandRead_peek (s : State) (ea w : Word) (a : Word) :
    (s.operandRead ea w).peek a = s.peek a := rfl

@[simp] theorem operandRead_gpr (s : State) (ea w : Word) (g : BitVec 2) :
    (s.operandRead ea w).gpr g = s.gpr g := rfl

@[simp] theorem operandRead_xr (s : State) (ea w : Word) (j : IxReg) :
    (s.operandRead ea w).xr j = s.xr j := by cases j <;> rfl

@[simp] theorem operandRead_fr (s : State) (ea w : Word) (h : FReg) :
    (s.operandRead ea w).fr h = s.fr h := by cases h <;> rfl

@[simp] theorem operandRead_irAddr (s : State) (ea w : Word) :
    (s.operandRead ea w).irAddr = s.irAddr := rfl

@[simp] theorem operandRead_cacheGet (s : State) (ea w : Word) (p : Int) :
    (s.operandRead ea w).cacheGet p = s.cacheGet p := rfl

@[simp] theorem operandRead_indexedAddress (s : State) (ea w : Word) (b : Bool) (o : OperandFields) :
    (s.operandRead ea w).indexedAddress b o = s.indexedAddress b o := rfl

@[simp] theorem operandRead_effectiveAddress (s : State) (ea w : Word) (b c : Bool) (o : OperandFields) :
    (s.operandRead ea w).effectiveAddress b c o = s.effectiveAddress b c o := rfl

@[simp] theorem setIrr_r0 (s : State) (v : Word) :
    (s.setIrr v).r0 = s.r0 := rfl

@[simp] theorem setIrr_r1 (s : State) (v : Word) :
    (s.setIrr v).r1 = s.r1 := rfl

@[simp] theorem setIrr_r2 (s : State) (v : Word) :
    (s.setIrr v).r2 = s.r2 := rfl

@[simp] theorem setIrr_r3 (s : State) (v : Word) :
    (s.setIrr v).r3 = s.r3 := rfl

@[simp] theorem setIrr_x1 (s : State) (v : Word) :
    (s.setIrr v).x1 = s.x1 := rfl

@[simp] theorem setIrr_x2 (s : State) (v : Word) :
    (s.setIrr v).x2 = s.x2 := rfl

@[simp] theorem setIrr_x3 (s : State) (v : Word) :
    (s.setIrr v).x3 = s.x3 := rfl

@[simp] theorem setIrr_fr0 (s : State) (v : Word) :
    (s.setIrr v).fr0 = s.fr0 := rfl

@[simp] theorem setIrr_fr1 (s : State) (v : Word) :
    (s.setIrr v).fr1 = s.fr1 := rfl

@[simp] theorem setIrr_pc (s : State) (v : Word) :
    (s.setIrr v).pc = s.pc := rfl

@[simp] theorem setIrr_mar (s : State) (v : Word) :
    (s.setIrr v).mar = s.mar := rfl

@[simp] theorem setIrr_mbr (s : State) (v : Word) :
    (s.setIrr v).mbr = s.mbr := rfl

@[simp] theorem setIrr_ir (s : State) (v : Word) :
    (s.setIrr v).ir = s.ir := rfl

@[simp] theorem setIrr_iar (s : State) (v : Word) :
    (s.setIrr v).iar = s.iar := rfl

@[simp] theorem setIrr_irr (s : State) (v : Word) :
    (s.setIrr v).irr = v := rfl

@[simp] theorem setIrr_rs1 (s : State) (v : Word) :
    (s.setIrr v).rs1 = s.rs1 := rfl

@[simp] theorem setIrr_mfr (s : State) (v : Word) :
    (s.setIrr v).mfr = s.mfr := rfl

@[simp] theorem setIrr_cc (s : State) (v : Word) :
    (s.setIrr v).cc = s.cc := rfl

@[simp] theorem setIrr_cyc (s : State) (v : Word) :
    (s.setIrr v).cyc = s.cyc := rfl

@[simp] theorem setIrr_halted (s : State) (v : Word) :
    (s.setIrr v).halted = s.halted := rfl

@[simp] theorem setIrr_memoryFault (s : State) (v : Word) :
    (s.setIrr v).memoryFault = s.memoryFault := rfl

@[simp] theorem setIrr_runningUserProgram (s : State) (v : Word) :
    (s.setIrr v).runningUserProgram = s.runningUserProgram := rfl

@[simp] theorem setIrr_mem (s : State) (v : Word) :
    (s.setIrr v).mem = s.mem := rfl

@[simp] theorem setIrr_cache (s : State) (v : Word) :
    (s.setIrr v).cache = s.cache := rfl

@[simp] theorem setIrr_writeBuffer (s : State) (v : Word) :
    (s.setIrr v).writeBuffer = s.writeBuffer := rfl

@[simp] theorem setIrr_refused (s : State) (v : Word) :
    (s.setIrr v).refused = s.refused := rfl

@[simp] theorem setIrr_inputWait (s : State) (v : Word) :
    (s.setIrr v).inputWait = s.inputWait := rfl

@[simp] theorem setIrr_consoleInput (s : State) (v : Word) :
    (s.setIrr v).consoleInput = s.consoleInput := rfl

@[simp] theorem setIrr_output (s : State) (v : Word) :
    (s.setIrr v).output = s.output := rfl

@[simp] theorem setIrr_cfg (s : State) (v : Word) :
    (s.setIrr v).cfg = s.cfg := rfl

@[simp] theorem setIrr_off (s : State) (v : Word) :
    (s.setIrr v).off = s.off := rfl

@[simp] theorem setIrr_pcOf (s : State) (v : Word) (a : Word) :
    (s.setIrr v).pcOf a = s.pcOf a := rfl

@[simp] theorem setIrr_marOf (s : State) (v : Word) (a : Word) :
    (s.setIrr v).marOf a = s.marOf a := rfl

@[simp] theorem setIrr_bias (s : State) (v : Word) :
    (s.setIrr v).bias = s.bias := rfl

@[simp] theorem setIrr_phys (s : State) (v : Word) (a : Word) :
    (s.setIrr v).phys a = s.phys a := rfl

@[simp] theorem setIrr_peek (s : State) (v : Word) (a : Word) :
    (s.setIrr v).peek a = s.peek a := rfl

@[simp] theorem setIrr_gpr (s : State) (v : Word) (g : BitVec 2) :
    (s.setIrr v).gpr g = s.gpr g := rfl

@[simp] theorem setIrr_xr (s : State) (v : Word) (j : IxReg) :
    (s.setIrr v).xr j = s.xr j := by cases j <;> rfl

@[simp] theorem setIrr_fr (s : State) (v : Word) (h : FReg) :
    (s.setIrr v).fr h = s.fr h := by cases h <;> rfl

@[simp] theorem setIrr_irAddr (s : State) (v : Word) :
    (s.setIrr v).irAddr = s.irAddr := rfl

@[simp] theorem setIrr_cacheGet (s : State) (v : Word) (p : Int) :
    (s.setIrr v).cacheGet p = s.cacheGet p := rfl

@[simp] theorem setIrr_indexedAddress (s : State) (v : Word) (b : Bool) (o : OperandFields) :
    (s.setIrr v).indexedAddress b o = s.indexedAddress b o := rfl

@[simp] theorem setIrr_effectiveAddress (s : State) (v : Word) (b c : Bool) (o : OperandFields) :
    (s.setIrr v).effectiveAddress b c o = s.effectiveAddress b c o := rfl

@[simp] theorem setNextPc_r0 (s : State) (t : Word) :
    (s.setNextPc t).r0 = s.r0 := rfl

@[simp] theorem setNextPc_r1 (s : State) (t : Word) :
    (s.setNextPc t).r1 = s.r1 := rfl

@[simp] theorem setNextPc_r2 (s : State) (t : Word) :
    (s.setNextPc t).r2 = s.r2 := rfl

@[simp] theorem setNextPc_r3 (s : State) (t : Word) :
    (s.setNextPc t).r3 = s.r3 := rfl

@[simp] theorem setNextPc_x1 (s : State) (t : Word) :
    (s.setNextPc t).x1 = s.x1 := rfl

@[simp] theorem setNextPc_x2 (s : State) (t : Word) :
    (s.setNextPc t).x2 = s.x2 := rfl

@[simp] theorem setNextPc_x3 (s : State) (t : Word) :
    (s.setNextPc t).x3 = s.x3 := rfl

@[simp] theorem setNextPc_fr0 (s : State) (t : Word) :
    (s.setNextPc t).fr0 = s.fr0 := rfl

@[simp] theorem setNextPc_fr1 (s : State) (t : Word) :
    (s.setNextPc t).fr1 = s.fr1 := rfl

@[simp] theorem setNextPc_pc (s : State) (t : Word) :
    (s.setNextPc t).pc = s.pc := rfl

@[simp] theorem setNextPc_mar (s : State) (t : Word) :
    (s.setNextPc t).mar = s.mar := rfl

@[simp] theorem setNextPc_mbr (s : State) (t : Word) :
    (s.setNextPc t).mbr = s.mbr := rfl

@[simp] theorem setNextPc_ir (s : State) (t : Word) :
    (s.setNextPc t).ir = s.ir := rfl

@[simp] theorem setNextPc_iar (s : State) (t : Word) :
    (s.setNextPc t).iar = s.iar := rfl

@[simp] theorem setNextPc_irr (s : State) (t : Word) :
    (s.setNextPc t).irr = s.irr := rfl

@[simp] theorem setNextPc_rs1 (s : State) (t : Word) :
    (s.setNextPc t).rs1 = s.rs1 := rfl

@[simp] theorem setNextPc_mfr (s : State) (t : Word) :
    (s.setNextPc t).mfr = s.mfr := rfl

@[simp] theorem setNextPc_cc (s : State) (t : Word) :
    (s.setNextPc t).cc = s.cc := rfl

@[simp] theorem setNextPc_cyc (s : State) (t : Word) :
    (s.setNextPc t).cyc = { s.cyc with nextPc := t } := rfl

@[simp] theorem setNextPc_halted (s : State) (t : Word) :
    (s.setNextPc t).halted = s.halted := rfl

@[simp] theorem setNextPc_memoryFault (s : State) (t : Word) :
    (s.setNextPc t).memoryFault = s.memoryFault := rfl

@[simp] theorem setNextPc_runningUserProgram (s : State) (t : Word) :
    (s.setNextPc t).runningUserProgram = s.runningUserProgram := rfl

@[simp] theorem setNextPc_mem (s : State) (t : Word) :
    (s.setNextPc t).mem = s.mem := rfl

@[simp] theorem setNextPc_cache (s : State) (t : Word) :
    (s.setNextPc t).cache = s.cache := rfl

@[simp] theorem setNextPc_writeBuffer (s : State) (t : Word) :
    (s.setNextPc t).writeBuffer = s.writeBuffer := rfl

@[simp] theorem setNextPc_refused (s : State) (t : Word) :
    (s.setNextPc t).refused = s.refused := rfl

@[simp] theorem setNextPc_inputWait (s : State) (t : Word) :
    (s.setNextPc t).inputWait = s.inputWait := rfl

@[simp] theorem setNextPc_consoleInput (s : State) (t : Word) :
    (s.setNextPc t).consoleInput = s.consoleInput := rfl

@[simp] theorem setNextPc_output (s : State) (t : Word) :
    (s.setNextPc t).output = s.output := rfl

@[simp] theorem setNextPc_cfg (s : State) (t : Word) :
    (s.setNextPc t).cfg = s.cfg := rfl

@[simp] theorem setNextPc_off (s : State) (t : Word) :
    (s.setNextPc t).off = s.off := rfl

@[simp] theorem setNextPc_pcOf (s : State) (t : Word) (a : Word) :
    (s.setNextPc t).pcOf a = s.pcOf a := rfl

@[simp] theorem setNextPc_marOf (s : State) (t : Word) (a : Word) :
    (s.setNextPc t).marOf a = s.marOf a := rfl

@[simp] theorem setNextPc_bias (s : State) (t : Word) :
    (s.setNextPc t).bias = s.bias := rfl

@[simp] theorem setNextPc_phys (s : State) (t : Word) (a : Word) :
    (s.setNextPc t).phys a = s.phys a := rfl

@[simp] theorem setNextPc_peek (s : State) (t : Word) (a : Word) :
    (s.setNextPc t).peek a = s.peek a := rfl

@[simp] theorem setNextPc_gpr (s : State) (t : Word) (g : BitVec 2) :
    (s.setNextPc t).gpr g = s.gpr g := rfl

@[simp] theorem setNextPc_xr (s : State) (t : Word) (j : IxReg) :
    (s.setNextPc t).xr j = s.xr j := by cases j <;> rfl

@[simp] theorem setNextPc_fr (s : State) (t : Word) (h : FReg) :
    (s.setNextPc t).fr h = s.fr h := by cases h <;> rfl

@[simp] theorem setNextPc_irAddr (s : State) (t : Word) :
    (s.setNextPc t).irAddr = s.irAddr := rfl

@[simp] theorem setNextPc_cacheGet (s : State) (t : Word) (p : Int) :
    (s.setNextPc t).cacheGet p = s.cacheGet p := rfl

@[simp] theorem setNextPc_indexedAddress (s : State) (t : Word) (b : Bool) (o : OperandFields) :
    (s.setNextPc t).indexedAddress b o = s.indexedAddress b o := rfl

@[simp] theorem setNextPc_effectiveAddress (s : State) (t : Word) (b c : Bool) (o : OperandFields) :
    (s.setNextPc t).effectiveAddress b c o = s.effectiveAddress b c o := rfl

@[simp] theorem faultEntry_r0 (s : State) (k : FaultKind) :
    (faultEntry k s).r0 = s.r0 := rfl

@[simp] theorem faultEntry_r1 (s : State) (k : FaultKind) :
    (faultEntry k s).r1 = s.r1 := rfl

@[simp] theorem faultEntry_r2 (s : State) (k : FaultKind) :
    (faultEntry k s).r2 = s.r2 := rfl

@[simp] theorem faultEntry_r3 (s : State) (k : FaultKind) :
    (faultEntry k s).r3 = s.r3 := rfl

@[simp] theorem faultEntry_x1 (s : State) (k : FaultKind) :
    (faultEntry k s).x1 = s.x1 := rfl

@[simp] theorem faultEntry_x2 (s : State) (k : FaultKind) :
    (faultEntry k s).x2 = s.x2 := rfl

@[simp] theorem faultEntry_x3 (s : State) (k : FaultKind) :
    (faultEntry k s).x3 = s.x3 := rfl

@[simp] theorem faultEntry_fr0 (s : State) (k : FaultKind) :
    (faultEntry k s).fr0 = s.fr0 := rfl

@[simp] theorem faultEntry_fr1 (s : State) (k : FaultKind) :
    (faultEntry k s).fr1 = s.fr1 := rfl

@[simp] theorem faultEntry_pc (s : State) (k : FaultKind) :
    (faultEntry k s).pc =
      s.pcOf (wrap16 (sval (readWord (writeWord s.mem 5 s.pc) 1) + vectorBias s)) := rfl

@[simp] theorem faultEntry_mar (s : State) (k : FaultKind) :
    (faultEntry k s).mar = s.mar := rfl

@[simp] theorem faultEntry_mbr (s : State) (k : FaultKind) :
    (faultEntry k s).mbr = s.mbr := rfl

@[simp] theorem faultEntry_ir (s : State) (k : FaultKind) :
    (faultEntry k s).ir = s.ir := rfl

@[simp] theorem faultEntry_iar (s : State) (k : FaultKind) :
    (faultEntry k s).iar = s.iar := rfl

@[simp] theorem faultEntry_irr (s : State) (k : FaultKind) :
    (faultEntry k s).irr = s.irr := rfl

@[simp] theorem faultEntry_rs1 (s : State) (k : FaultKind) :
    (faultEntry k s).rs1 = s.rs1 := rfl

@[simp] theorem faultEntry_mfr (s : State) (k : FaultKind) :
    (faultEntry k s).mfr = mfrCode s.cfg k := rfl

@[simp] theorem faultEntry_cc (s : State) (k : FaultKind) :
    (faultEntry k s).cc = s.cc := rfl

@[simp] theorem faultEntry_cyc (s : State) (k : FaultKind) :
    (faultEntry k s).cyc = CycleFlags.cleared := rfl

@[simp] theorem faultEntry_halted (s : State) (k : FaultKind) :
    (faultEntry k s).halted = s.halted := rfl

@[simp] theorem faultEntry_memoryFault (s : State) (k : FaultKind) :
    (faultEntry k s).memoryFault = .none := rfl

@[simp] theorem faultEntry_runningUserProgram (s : State) (k : FaultKind) :
    (faultEntry k s).runningUserProgram = s.runningUserProgram := rfl

@[simp] theorem faultEntry_mem (s : State) (k : FaultKind) :
    (faultEntry k s).mem = writeWord s.mem 5 s.pc := rfl

@[simp] theorem faultEntry_cache (s : State) (k : FaultKind) :
    (faultEntry k s).cache = s.cache := rfl

@[simp] theorem faultEntry_writeBuffer (s : State) (k : FaultKind) :
    (faultEntry k s).writeBuffer = s.writeBuffer := rfl

@[simp] theorem faultEntry_refused (s : State) (k : FaultKind) :
    (faultEntry k s).refused = s.refused := rfl

@[simp] theorem faultEntry_inputWait (s : State) (k : FaultKind) :
    (faultEntry k s).inputWait = s.inputWait := rfl

@[simp] theorem faultEntry_consoleInput (s : State) (k : FaultKind) :
    (faultEntry k s).consoleInput = s.consoleInput := rfl

@[simp] theorem faultEntry_output (s : State) (k : FaultKind) :
    (faultEntry k s).output = s.output := rfl

@[simp] theorem faultEntry_cfg (s : State) (k : FaultKind) :
    (faultEntry k s).cfg = s.cfg := rfl

@[simp] theorem faultEntry_off (s : State) (k : FaultKind) :
    (faultEntry k s).off = s.off := rfl

@[simp] theorem faultEntry_pcOf (s : State) (k : FaultKind) (a : Word) :
    (faultEntry k s).pcOf a = s.pcOf a := rfl

@[simp] theorem faultEntry_marOf (s : State) (k : FaultKind) (a : Word) :
    (faultEntry k s).marOf a = s.marOf a := rfl

@[simp] theorem faultEntry_bias (s : State) (k : FaultKind) :
    (faultEntry k s).bias = s.bias := rfl

@[simp] theorem faultEntry_phys (s : State) (k : FaultKind) (a : Word) :
    (faultEntry k s).phys a = s.phys a := rfl

@[simp] theorem faultEntry_gpr (s : State) (k : FaultKind) (g : BitVec 2) :
    (faultEntry k s).gpr g = s.gpr g := rfl

@[simp] theorem faultEntry_xr (s : State) (k : FaultKind) (j : IxReg) :
    (faultEntry k s).xr j = s.xr j := by cases j <;> rfl

@[simp] theorem faultEntry_fr (s : State) (k : FaultKind) (h : FReg) :
    (faultEntry k s).fr h = s.fr h := by cases h <;> rfl

@[simp] theorem faultEntry_irAddr (s : State) (k : FaultKind) :
    (faultEntry k s).irAddr = s.irAddr := rfl

@[simp] theorem faultEntry_cacheGet (s : State) (k : FaultKind) (p : Int) :
    (faultEntry k s).cacheGet p = s.cacheGet p := rfl

@[simp] theorem faultEntry_indexedAddress (s : State) (k : FaultKind) (b : Bool) (o : OperandFields) :
    (faultEntry k s).indexedAddress b o = s.indexedAddress b o := rfl

/-! ## Reading a register back -/

@[simp] theorem gpr_setGpr (s : State) (r g : BitVec 2) (v : Word) :
    (s.setGpr r v).gpr g = if g = r then v else s.gpr g := by
  have h : ∀ q : BitVec 2, q = 0 ∨ q = 1 ∨ q = 2 ∨ q = 3 := by decide
  rcases h r with rfl | rfl | rfl | rfl <;> rcases h g with rfl | rfl | rfl | rfl <;>
    simp [State.gpr, State.setGpr]

@[simp] theorem xr_setXr (s : State) (x j : IxReg) (v : Word) :
    (s.setXr x v).xr j = if j = x then v else s.xr j := by
  cases x <;> cases j <;> simp [State.xr, State.setXr]

@[simp] theorem fr_setFr (s : State) (f h : FReg) (v : Word) :
    (s.setFr f v).fr h = if h = f then v else s.fr h := by
  cases f <;> cases h <;> simp [State.fr, State.setFr]

end Sys2Proof.Machine
end

