-- ==== Sys2Proof/Laws/Cycle.lean ====
section
/-! SUPPORT. What each shared operation can do, said once: sequencing, the memory primitives, the
cached store, fault entry, FETCH, FETCH_OPERAND, DEPOSIT, ADVANCE_PC, and the whole cycle. -/

namespace Sys2Proof.Machine

/-! ## Sequencing -/

@[simp] theorem andThen_ok {α β : Type} (v : α) (s : State) (f : α → State → Res β) :
    (Res.ok v s).andThen f = f v s := rfl

@[simp] theorem andThen_fault {α β : Type} (k : FaultKind) (s : State) (f : α → State → Res β) :
    (Res.fault k s : Res α).andThen f = .fault k s := rfl

@[simp] theorem finish_ok (s : State) : finish (.ok () s) = .next s := rfl

@[simp] theorem finish_fault (k : FaultKind) (s : State) : finish (.fault k s) = .next (faultEntry k s) := rfl

/-- A cycle that ends always ends in a next state. -/
theorem finish_next (r : Res Unit) : ∃ t, finish r = .next t := by
  cases r <;> exact ⟨_, rfl⟩

/-- Fault entry clears the cycle-scoped flags, so it does not see them. -/
@[simp] theorem faultEntry_cyc_update (k : FaultKind) (s : State) (c : CycleFlags) :
    faultEntry k { s with cyc := c } = faultEntry k s := rfl

/-! ## Memory primitives -/

theorem boundsCheck_ok {p : Int} {q : Nat} :
    boundsCheck p = .ok q ↔ 0 ≤ p ∧ p < 2048 ∧ q = p.toNat := by
  unfold boundsCheck
  split
  · simp; omega
  · split
    · simp; omega
    · simp; omega

theorem boundsCheck_error {p : Int} {k : FaultKind} :
    boundsCheck p = .error k ↔ (p < 0 ∧ k = .reserved) ∨ (2048 ≤ p ∧ k = .outOfBounds) := by
  unfold boundsCheck
  by_cases h : p < 0
  · have h2 : ¬ 2048 ≤ p := by omega
    simp [h, h2, eq_comm]
  · by_cases h2 : 2048 ≤ p
    · simp [h, h2, eq_comm]
    · simp [h, h2]

theorem boundsCheck_lt {p : Int} {q : Nat} (h : boundsCheck p = .ok q) : q < 2048 := by
  have := boundsCheck_ok.mp h
  omega

/-- Everything `Get` can do: it reads, or it faults and sets the latch (`20_memory.md` R102–R105). -/
theorem getWord_eq (a : Word) (s : State) :
    getWord a s = match s.peek a with
      | .ok w => .ok w s
      | .error k => .fault k (s.memfault k) := by
  unfold getWord loadWord State.peek
  cases boundsCheck (s.phys a) <;> rfl

theorem getWord_ok {a w : Word} {s : State} (h : s.peek a = .ok w) : getWord a s = .ok w s := by
  rw [getWord_eq, h]

theorem getWord_fault {a : Word} {k : FaultKind} {s : State} (h : s.peek a = .error k) :
    getWord a s = .fault k (s.memfault k) := by
  rw [getWord_eq, h]

/-- Everything `Insert` can do (`20_memory.md` R102–R105). -/
theorem insertWord_eq (a v : Word) (s : State) :
    insertWord a v s = match boundsCheck (s.phys a) with
      | .ok p => .ok () { s with mem := writeWord s.mem p v }
      | .error k => .fault k (s.memfault k) := rfl

theorem peek_ok_bounds {s : State} {a w : Word} (h : s.peek a = .ok w) :
    ∃ p, boundsCheck (s.phys a) = .ok p ∧ p < 2048 ∧ readWord s.mem p = w := by
  unfold State.peek at h
  cases hb : boundsCheck (s.phys a) with
  | error k => simp [hb] at h
  | ok p =>
    simp only [hb, Except.ok.injEq] at h
    exact ⟨p, rfl, boundsCheck_lt hb, h⟩

/-! ## The cached store -/

/-- A flush writes memory only. -/
theorem flushAddress_frame (s : State) (p : Nat) :
    flushAddress s p = { s with mem := (flushAddress s p).mem } := by
  unfold flushAddress
  cases cacheLookup s.cache p <;> rfl

/-- A push writes memory and the write buffer only. -/
theorem wbPush_frame (s : State) (p : Nat) :
    wbPush s p = { s with mem := (wbPush s p).mem, writeBuffer := (wbPush s p).writeBuffer } := by
  unfold wbPush
  split
  · unfold flushAddress
    cases cacheLookup s.cache p <;> rfl
  · split
    · split
      · unfold flushAddress
        split <;> rfl
      · rfl
    · rfl

/-- Under FLUSH_EACH a cached store reaches memory at once (`20_memory.md` R122). -/
theorem wbPush_flushEach (s : State) (p : Nat) (w : Word) (h : s.cfg.wbPolicy = .flushEach)
    (hc : cacheLookup s.cache p = some w) :
    wbPush s p = { s with mem := writeWord s.mem p w, writeBuffer := [] } := by
  unfold wbPush flushAddress
  simp [h, hc]

/-- Everything `CachedInsert` can do (`20_memory.md` R121). -/
theorem cachedInsert_eq (a v : Word) (s : State) :
    cachedInsert a v s = match boundsCheck (s.phys a) with
      | .ok p => .ok () (wbPush { s with cache := cacheSet s.cache p v } p)
      | .error k => .fault k (s.memfault k) := rfl

/-- A push leaves at most 4 buffered addresses if there were at most 4 (`10_state.md` R64). -/
theorem wbPush_length (s : State) (p : Nat) (h : s.writeBuffer.length ≤ 4) :
    (wbPush s p).writeBuffer.length ≤ 4 := by
  unfold wbPush
  split
  · simp
  · split
    · rename_i hd rest hb
      split
      · rename_i hl
        rw [hb] at hl
        simp at hl ⊢
        omega
      · simp
        omega
    · simp

/-- Every address in the buffer after a push was there before or is the pushed one. -/
theorem wbPush_members (s : State) (p q : Nat) (h : q ∈ (wbPush s p).writeBuffer) :
    q = p ∨ q ∈ s.writeBuffer := by
  unfold wbPush at h
  split at h
  · simp at h
  · split at h
    · rename_i hd rest hb
      split at h <;> simp [hb] at h ⊢ <;> tauto
    · simp at h
      exact .inl h

/-- A flush keeps the canonical form of memory. -/
theorem flushAddress_wf (s : State) (p : Nat) (hm : Memory.wf s.mem = true) (hc : CacheMap.wf s.cache = true) :
    Memory.wf (flushAddress s p).mem = true := by
  unfold flushAddress
  split
  · exact writeWord_wf _ _ _ hm (cacheLookup_lt _ _ _ hc (by assumption))
  · exact hm

/-- A push keeps the canonical form of memory. -/
theorem wbPush_wf (s : State) (p : Nat) (hm : Memory.wf s.mem = true) (hc : CacheMap.wf s.cache = true) :
    Memory.wf (wbPush s p).mem = true := by
  unfold wbPush
  split
  · exact flushAddress_wf s p hm hc
  · split
    · split
      · exact flushAddress_wf s _ hm hc
      · exact hm
    · exact hm

/-- What a cached store leaves in memory and cache under FLUSH_EACH (`20_memory.md` R121, R122). -/
theorem cachedStore_flushEach (s : State) (p : Nat) (v : Word) (h : s.cfg.wbPolicy = .flushEach) :
    (∀ q, readWord (wbPush { s with cache := cacheSet s.cache p v } p).mem q =
      if q = p then v else readWord s.mem q) ∧
    (∀ q, cacheLookup (wbPush { s with cache := cacheSet s.cache p v } p).cache q =
      if q = p then some v else cacheLookup s.cache q) := by
  rw [wbPush_flushEach { s with cache := cacheSet s.cache p v } p v h (by simp)]
  constructor <;> intro q <;> simp

/-! ## The phases -/

@[simp] theorem setFlags_indexApplies (s : State) (row : DecodeRow) (trap : Bool) :
    (s.setFlags row trap).indexApplies = (row.indexEnabled && decide (row.kind ≠ .ixr)) := rfl

/-- FETCH_OPERAND when both reads succeed (`40_cycle.md` R210). -/
theorem fetchOperand_ok {s : State} {f : OperandFields} {ea w : Word}
    (hea : s.effectiveAddress s.indexApplies s.cyc.indirectEnabled f = .ok ea)
    (hw : s.peek (s.marOf ea) = .ok w) :
    fetchOperand f s = .ok () (s.operandRead ea w) := by
  unfold fetchOperand
  simp [hea, hw]

/-- The decode step and FETCH_OPERAND of a word that passes its checks (`40_cycle.md` R202, R210). -/
theorem prepare_ok {s : State} {row : DecodeRow} {trap : Bool} {f : OperandFields} {ea w : Word}
    (hea : s.effectiveAddress (row.indexEnabled && decide (row.kind ≠ .ixr)) row.indirectEnabled f = .ok ea)
    (hw : s.peek (s.marOf ea) = .ok w) :
    prepare row trap true f s = .ok () ((s.setFlags row trap).operandRead ea w) := by
  unfold prepare decodeStep
  simp only [if_true, andThen_ok]
  apply fetchOperand_ok
  · simpa using hea
  · simpa using hw

/-- A word that fails its decode step's check (`30_encoding.md` R174). -/
theorem prepare_invalid (s : State) (row : DecodeRow) (trap : Bool) (f : OperandFields) :
    prepare row trap false f s =
      .fault .illegalOperationCode
        { s.setFlags row trap with cyc := { (s.setFlags row trap).cyc with
            pendingFault := some .illegalOperationCode } } := rfl

/-- A whole cycle whose operand can be read: EXECUTE, then DEPOSIT and ADVANCE_PC (`40_cycle.md`
R221). -/
theorem cycle_ok {s : State} {row : DecodeRow} {f : OperandFields} {ea w : Word}
    (execute : State → Res Unit)
    (hea : s.effectiveAddress (row.indexEnabled && decide (row.kind ≠ .ixr)) row.indirectEnabled f = .ok ea)
    (hw : s.peek (s.marOf ea) = .ok w) :
    cycle row true f execute s =
      finish ((execute ((s.setFlags row false).operandRead ea w)).andThen fun _ u => complete f.ix u) := by
  unfold cycle
  rw [prepare_ok hea hw, andThen_ok]

/-- A cycle whose decode step rejects the word ends in fault entry (`60_exceptions.md` R603). -/
theorem cycle_invalid (s : State) (row : DecodeRow) (f : OperandFields) (execute : State → Res Unit) :
    cycle row false f execute s = .next (faultEntry .illegalOperationCode s) := rfl

/-- A decode step passed, FETCH_OPERAND not (`40_cycle.md` R210, R222). -/
theorem prepare_fault {s : State} {row : DecodeRow} {trap : Bool} {f : OperandFields} {k : FaultKind}
    {iar mar : Word}
    (h : OperandFaults s (row.indexEnabled && decide (row.kind ≠ .ixr)) row.indirectEnabled f k iar mar) :
    prepare row trap true f s = .fault k ({ s.setFlags row trap with iar := iar, mar := mar }.memfault k) := by
  unfold prepare decodeStep fetchOperand
  simp only [if_true, andThen_ok]
  rcases h with ⟨h1, rfl, rfl⟩ | ⟨h1, rfl, h2⟩
  · have e1 : (s.setFlags row trap).effectiveAddress (s.setFlags row trap).indexApplies
        (s.setFlags row trap).cyc.indirectEnabled f = .error k := h1
    rw [e1]
    rfl
  · have e1 : (s.setFlags row trap).effectiveAddress (s.setFlags row trap).indexApplies
        (s.setFlags row trap).cyc.indirectEnabled f = .ok iar := h1
    have e2 : (s.setFlags row trap).peek ((s.setFlags row trap).marOf iar) = .error k := h2
    rw [e1]
    simp only [e2]
    rfl

/-- A cycle whose operand cannot be read ends in fault entry (`40_cycle.md` R221). -/
theorem cycle_fault {s : State} {row : DecodeRow} {f : OperandFields} {k : FaultKind} {iar mar : Word}
    (execute : State → Res Unit)
    (h : OperandFaults s (row.indexEnabled && decide (row.kind ≠ .ixr)) row.indirectEnabled f k iar mar) :
    cycle row true f execute s = .next (faultEntry k ({ s with iar := iar, mar := mar }.memfault k)) := by
  unfold cycle
  rw [prepare_fault h]
  rfl

/-- A device instruction whose kept operand read succeeds goes on to its EXECUTE. -/
theorem deviceCycle_ok {s : State} {d : BitVec 5} {w : Word}
    (execute : State → Host.Outcome State Fault Refusal) (hw : s.peek (s.marOf (d.setWidth 16)) = .ok w) :
    deviceCycle d execute s = execute ((s.setFlags rowPlain false).operandRead (d.setWidth 16) w) := by
  have h : prepare rowPlain false true (plainFields d) s =
      .ok () ((s.setFlags rowPlain false).operandRead (d.setWidth 16) w) :=
    prepare_ok (by simp [rowPlain, State.effectiveAddress, plainFields, State.indexedAddress, ixReg]) hw
  unfold deviceCycle
  rw [h]

/-- A device instruction whose kept operand read fails ends in fault entry. -/
theorem deviceCycle_fault {s : State} {d : BitVec 5} {k : FaultKind} {iar mar : Word}
    (execute : State → Host.Outcome State Fault Refusal)
    (h : OperandFaults s false false (plainFields d) k iar mar) :
    deviceCycle d execute s = .next (faultEntry k ({ s with iar := iar, mar := mar }.memfault k)) := by
  unfold deviceCycle
  rw [prepare_fault (row := rowPlain) h]
  rfl

/-- DEPOSIT of an instruction without a target (`40_cycle.md` R216). -/
theorem deposit_none {s : State} (ix : BitVec 2) (h : s.cyc.target = .none) : deposit ix s = .ok () s := by
  unfold deposit
  rw [h]

/-- ADVANCE_PC of every instruction but TRAP (`40_cycle.md` R219). -/
theorem advancePc_next {s : State} (h : s.cyc.trapTaken = false) :
    advancePc s = .ok () (s.endCycle s.cyc.nextPc) := by
  unfold advancePc
  simp [h]

/-- The rest of the cycle of an instruction without a target (`40_cycle.md` R216, R219). -/
theorem complete_none {s : State} (ix : BitVec 2) (hh : s.halted = false) (ht : s.cyc.target = .none)
    (hp : s.cyc.trapTaken = false) : complete ix s = .ok () (s.endCycle s.cyc.nextPc) := by
  unfold complete
  simp [hh, deposit_none ix ht, advancePc_next hp]

/-- The rest of the cycle when a general register is the target. -/
theorem complete_gpr {s : State} (ix : BitVec 2) (hh : s.halted = false) (ht : s.cyc.target = .register)
    (hk : s.cyc.kind = .gpr) (hp : s.cyc.trapTaken = false) :
    complete ix s = .ok () ((s.setGpr s.rs1 s.irr).endCycle s.cyc.nextPc) := by
  have hd : deposit ix s = .ok () (s.setGpr s.rs1 s.irr) := by
    unfold deposit
    rw [ht, hk]
  unfold complete
  simp [hh, hd, advancePc_next, hp]

/-- The rest of the cycle, given what DEPOSIT does (`40_cycle.md` R216, R219). -/
theorem complete_deposit {s t : State} {ix : BitVec 2} (hh : s.halted = false)
    (hd : deposit ix s = .ok () t) (hp : t.cyc.trapTaken = false) :
    complete ix s = .ok () (t.endCycle t.cyc.nextPc) := by
  unfold complete
  simp [hh, hd, advancePc_next hp]

/-- A fault of DEPOSIT ends the cycle (`40_cycle.md` R222). -/
theorem complete_fault {s t : State} {ix : BitVec 2} {k : FaultKind} (hh : s.halted = false)
    (hd : deposit ix s = .fault k t) : complete ix s = .fault k t := by
  unfold complete
  simp [hh, hd]

/-- An index selector that names a register passes its check (`30_encoding.md` R174). -/
theorem checkIndex_of_ixReg {x : BitVec 2} {j : IxReg} (h : ixReg x = some j) : checkIndex x = true := by
  have all : ∀ y : BitVec 2, (ixReg y).isSome = true → checkIndex y = true := by decide
  exact all x (by rw [h]; rfl)

/-- A selector that names a floating register passes its check (`30_encoding.md` R174). -/
theorem checkFloat_of_fReg {x : BitVec 2} {j : FReg} (h : fReg x = some j) : checkFloat x = true := by
  have all : ∀ y : BitVec 2, (fReg y).isSome = true → checkFloat y = true := by decide
  exact all x (by rw [h]; rfl)

/-- The checked selectors name a register (`30_encoding.md` R174). -/
theorem ixReg_of_checkIndex {x : BitVec 2} (h : checkIndex x = true) : ∃ j, ixReg x = some j := by
  have all : ∀ y : BitVec 2, checkIndex y = true → (ixReg y).isSome = true := by decide
  exact Option.isSome_iff_exists.mp (all x h)

/-- The checked selectors name a register (`30_encoding.md` R174). -/
theorem fReg_of_checkFloat {x : BitVec 2} (h : checkFloat x = true) : ∃ j, fReg x = some j := by
  have all : ∀ y : BitVec 2, checkFloat y = true → (fReg y).isSome = true := by decide
  exact Option.isSome_iff_exists.mp (all x h)

/-- FETCH when the word at PC can be read (`40_cycle.md` R200). -/
theorem fetch_ok {s : State} {w : Word}
    (h : fetchWord { s with mar := s.marOf s.pc } = .ok w { s with mar := s.marOf s.pc }) :
    (fetch s).andThen (fun _ t => .ok () (decodeLatch t)) = .ok () (s.fetched w) := by
  unfold fetch
  rw [h]
  rfl

end Sys2Proof.Machine
end

