-- ==== Sys2Proof/Laws/Encoding.lean ====
section
/-! SUPPORT. The fields of an encoded word, one lemma for each field and each of the two word shapes of
`30_encoding.md` R170, and the bit position of every field. -/

namespace Sys2Proof

theorem wordM_toNat (op : BitVec 6) (r ix : BitVec 2) (i : Bool) (addr : BitVec 5) :
    (wordM op r ix i addr).toNat =
      op.toNat * 1024 + r.toNat * 256 + ix.toNat * 64 + i.toNat * 32 + addr.toNat := by
  have h : (wordM op r ix i addr).toNat =
      ((((op.toNat <<< 2 ||| r.toNat) <<< 2 ||| ix.toNat) <<< 1 ||| i.toNat) <<< 5 ||| addr.toNat) := by
    unfold wordM
    simp only [BitVec.toNat_append, BitVec.toNat_ofBool]
  rw [h, ← Nat.shiftLeft_add_eq_or_of_lt r.isLt, ← Nat.shiftLeft_add_eq_or_of_lt ix.isLt,
    ← Nat.shiftLeft_add_eq_or_of_lt (show i.toNat < 2 ^ 1 by cases i <;> decide),
    ← Nat.shiftLeft_add_eq_or_of_lt addr.isLt]
  simp only [Nat.shiftLeft_eq]
  ring

theorem wordS_toNat (op : BitVec 6) (r : BitVec 2) (al lr : Bool) (count : BitVec 4) :
    (wordS op r al lr count).toNat =
      op.toNat * 1024 + r.toNat * 256 + al.toNat * 128 + lr.toNat * 64 + count.toNat := by
  have h : (wordS op r al lr count).toNat =
      (((((op.toNat <<< 2 ||| r.toNat) <<< 1 ||| al.toNat) <<< 1 ||| lr.toNat) <<< 2 ||| 0) <<< 4 |||
        count.toNat) := by
    unfold wordS
    simp only [BitVec.toNat_append, BitVec.toNat_ofBool]
    rfl
  rw [h, ← Nat.shiftLeft_add_eq_or_of_lt r.isLt,
    ← Nat.shiftLeft_add_eq_or_of_lt (show al.toNat < 2 ^ 1 by cases al <;> decide),
    ← Nat.shiftLeft_add_eq_or_of_lt (show lr.toNat < 2 ^ 1 by cases lr <;> decide), Nat.or_zero,
    ← Nat.shiftLeft_add_eq_or_of_lt count.isLt]
  simp only [Nat.shiftLeft_eq]
  ring

theorem testBit_toNat (n k : Nat) : n.testBit k = decide (n / 2 ^ k % 2 = 1) := by
  rw [Nat.testBit_eq_decide_div_mod_eq]

theorem opField_wordM (op : BitVec 6) (r ix : BitVec 2) (i : Bool) (addr : BitVec 5) :
    opField (wordM op r ix i addr) = op := by
  apply BitVec.eq_of_toNat_eq
  unfold opField
  rw [BitVec.extractLsb'_toNat, wordM_toNat, Nat.shiftRight_eq_div_pow]
  have := op.isLt; have := r.isLt; have := ix.isLt; have := addr.isLt
  have := Bool.toNat_le i
  omega

theorem rField_wordM (op : BitVec 6) (r ix : BitVec 2) (i : Bool) (addr : BitVec 5) :
    rField (wordM op r ix i addr) = r := by
  apply BitVec.eq_of_toNat_eq
  unfold rField
  rw [BitVec.extractLsb'_toNat, wordM_toNat, Nat.shiftRight_eq_div_pow]
  have := op.isLt; have := r.isLt; have := ix.isLt; have := addr.isLt
  have := Bool.toNat_le i
  omega

theorem ixField_wordM (op : BitVec 6) (r ix : BitVec 2) (i : Bool) (addr : BitVec 5) :
    ixField (wordM op r ix i addr) = ix := by
  apply BitVec.eq_of_toNat_eq
  unfold ixField
  rw [BitVec.extractLsb'_toNat, wordM_toNat, Nat.shiftRight_eq_div_pow]
  have := op.isLt; have := r.isLt; have := ix.isLt; have := addr.isLt
  have := Bool.toNat_le i
  omega

theorem iField_wordM (op : BitVec 6) (r ix : BitVec 2) (i : Bool) (addr : BitVec 5) :
    iField (wordM op r ix i addr) = i := by
  unfold iField BitVec.getLsbD
  rw [wordM_toNat, testBit_toNat]
  have := op.isLt; have := r.isLt; have := ix.isLt; have := addr.isLt
  cases i <;> simp only [Bool.toNat_true, Bool.toNat_false, decide_eq_true_eq, decide_eq_false_iff_not] <;>
    omega

theorem addrField_wordM (op : BitVec 6) (r ix : BitVec 2) (i : Bool) (addr : BitVec 5) :
    addrField (wordM op r ix i addr) = addr := by
  apply BitVec.eq_of_toNat_eq
  unfold addrField
  rw [BitVec.extractLsb'_toNat, wordM_toNat, Nat.shiftRight_eq_div_pow]
  have := op.isLt; have := r.isLt; have := ix.isLt; have := addr.isLt
  have := Bool.toNat_le i
  omega

theorem opField_wordS (op : BitVec 6) (r : BitVec 2) (al lr : Bool) (count : BitVec 4) :
    opField (wordS op r al lr count) = op := by
  apply BitVec.eq_of_toNat_eq
  unfold opField
  rw [BitVec.extractLsb'_toNat, wordS_toNat, Nat.shiftRight_eq_div_pow]
  have := op.isLt; have := r.isLt; have := count.isLt
  have := Bool.toNat_le al; have := Bool.toNat_le lr
  omega

theorem rField_wordS (op : BitVec 6) (r : BitVec 2) (al lr : Bool) (count : BitVec 4) :
    rField (wordS op r al lr count) = r := by
  apply BitVec.eq_of_toNat_eq
  unfold rField
  rw [BitVec.extractLsb'_toNat, wordS_toNat, Nat.shiftRight_eq_div_pow]
  have := op.isLt; have := r.isLt; have := count.isLt
  have := Bool.toNat_le al; have := Bool.toNat_le lr
  omega

theorem alField_wordS (op : BitVec 6) (r : BitVec 2) (al lr : Bool) (count : BitVec 4) :
    alField (wordS op r al lr count) = al := by
  unfold alField BitVec.getLsbD
  rw [wordS_toNat, testBit_toNat]
  have := op.isLt; have := r.isLt; have := count.isLt
  have := Bool.toNat_le lr
  cases al <;> simp only [Bool.toNat_true, Bool.toNat_false, decide_eq_true_eq, decide_eq_false_iff_not] <;>
    omega

theorem lrField_wordS (op : BitVec 6) (r : BitVec 2) (al lr : Bool) (count : BitVec 4) :
    lrField (wordS op r al lr count) = lr := by
  unfold lrField BitVec.getLsbD
  rw [wordS_toNat, testBit_toNat]
  have := op.isLt; have := r.isLt; have := count.isLt
  have := Bool.toNat_le al
  cases lr <;> simp only [Bool.toNat_true, Bool.toNat_false, decide_eq_true_eq, decide_eq_false_iff_not] <;>
    omega

theorem countField_wordS (op : BitVec 6) (r : BitVec 2) (al lr : Bool) (count : BitVec 4) :
    countField (wordS op r al lr count) = count := by
  apply BitVec.eq_of_toNat_eq
  unfold countField
  rw [BitVec.extractLsb'_toNat, wordS_toNat, Nat.shiftRight_eq_div_pow]
  have := op.isLt; have := r.isLt; have := count.isLt
  have := Bool.toNat_le al; have := Bool.toNat_le lr
  omega

end Sys2Proof
end

