-- ==== Sys2Proof/Laws/Ends.lean ====
section
/-! SUPPORT. How a phase ends, as a pair of predicates: one for the state it completes in, one for the
state a machine fault leaves. One lemma for each phase and each way to end a cycle, so that a promise
over all instructions is proved phase by phase, with no phase unfolded twice. -/

namespace Sys2Proof.Machine

/-- The phase completes in a state with `P`, or faults in a state with `F`. -/
def Res.Ends {α : Type} (r : Res α) (P F : State → Prop) : Prop :=
  match r with
  | .ok _ s => P s
  | .fault _ s => F s

/-- The outcome is no next state, or a next state with `Q`. -/
def NextHas (o : Host.Outcome State Fault Refusal) (Q : State → Prop) : Prop :=
  match o with
  | .next t => Q t
  | .fault _ => True
  | .refused _ => True

@[simp] theorem ends_ok {α : Type} (v : α) (s : State) (P F : State → Prop) :
    (Res.ok v s).Ends P F ↔ P s := Iff.rfl

@[simp] theorem ends_fault {α : Type} (k : FaultKind) (s : State) (P F : State → Prop) :
    (Res.fault k s : Res α).Ends P F ↔ F s := Iff.rfl

@[simp] theorem nextHas_next (s : State) (Q : State → Prop) : NextHas (.next s) Q ↔ Q s := Iff.rfl

@[simp] theorem nextHas_fault (f : Fault) (Q : State → Prop) : NextHas (.fault f) Q := trivial

@[simp] theorem nextHas_refused (r : Refusal) (Q : State → Prop) : NextHas (.refused r) Q := trivial

theorem NextHas.of_next {o : Host.Outcome State Fault Refusal} {Q : State → Prop} {t : State}
    (h : NextHas o Q) (ho : o = .next t) : Q t := by
  rw [ho] at h
  exact h

theorem andThen_ends {α β : Type} {r : Res α} {f : α → State → Res β} {P Q F : State → Prop}
    (hr : r.Ends P F) (hf : ∀ v t, P t → (f v t).Ends Q F) : (r.andThen f).Ends Q F := by
  cases r with
  | ok v s => exact hf v s hr
  | fault k s => exact hr

theorem finish_ends {r : Res Unit} {P F Q : State → Prop} (hr : r.Ends P F) (hP : ∀ t, P t → Q t)
    (hF : ∀ k t, F t → Q (faultEntry k t)) : NextHas (finish r) Q := by
  cases r with
  | ok v s => exact hP s hr
  | fault k s => exact hF k s hr

/-- The predicates do not see the internal registers and the cycle-scoped flags; a fault of a phase
leads from `P` to `F`. -/
structure Internal (P F : State → Prop) : Prop where
  flags   : ∀ s row trap, P s → P (State.setFlags s row trap)
  pointer : ∀ s a, P s → P { s with iar := a }
  address : ∀ s a b c, P s → P { s with iar := a, mar := State.marOf s b, mbr := c }
  rs1     : ∀ s r, P s → P (State.latchRs1 s r)
  fault   : ∀ s k, P s → F (State.memfault s k)
  raise   : ∀ s k, P s → F { s with cyc := { s.cyc with pendingFault := some k } }

theorem getWord_ends {P F : State → Prop} (h : Internal P F) (a : Word) (s : State) (hs : P s) :
    (getWord a s).Ends P F := by
  rw [getWord_eq]
  split
  · exact hs
  · exact h.fault _ _ hs

theorem fetchOperand_ends {P F : State → Prop} (h : Internal P F) (f : OperandFields) (s : State)
    (hs : P s) : (fetchOperand f s).Ends P F := by
  unfold fetchOperand
  split
  · exact h.fault _ _ (h.pointer _ _ hs)
  · split
    · exact h.fault _ _ (h.address _ _ _ s.mbr hs)
    · exact h.address _ _ _ _ hs

theorem prepare_ends {P F : State → Prop} (h : Internal P F) (row : DecodeRow) (trap valid : Bool)
    (f : OperandFields) (s : State) (hs : P s) : (prepare row trap valid f s).Ends P F := by
  unfold prepare decodeStep raiseFault
  refine andThen_ends (P := P) ?_ fun _ t ht => fetchOperand_ends h f t ht
  split
  · exact h.flags _ _ _ hs
  · exact h.raise _ _ (h.flags _ _ _ hs)

/-- The whole cycle: EXECUTE, DEPOSIT and ADVANCE_PC decide. -/
theorem cycle_ends {P F R Q : State → Prop} (h : Internal P F) {row : DecodeRow} {valid : Bool}
    {f : OperandFields} {execute : State → Res Unit} {s : State} (hs : P s)
    (hrest : ∀ t, P t → ((execute t).andThen fun _ u => complete f.ix u).Ends R F)
    (hR : ∀ t, R t → Q t) (hF : ∀ k t, F t → Q (faultEntry k t)) :
    NextHas (cycle row valid f execute s) Q :=
  finish_ends (andThen_ends (prepare_ends h row false valid f s hs) fun _ t ht => hrest t ht) hR hF

/-- The same, when EXECUTE keeps `P` and does not halt the core, and DEPOSIT keeps it too. -/
theorem cycle_keeps {P F Q : State → Prop} (h : Internal P F) {row : DecodeRow} {valid : Bool}
    {f : OperandFields} {execute : State → Res Unit} {s : State} (hs : P s)
    (hexec : ∀ t, P t → (execute t).Ends P F)
    (hdep : ∀ t, P t → (deposit f.ix t).Ends P F)
    (hend : ∀ t n, P t → Q (t.endCycle n)) (hhalt : ∀ t, P t → t.halted = true → Q t)
    (hF : ∀ k t, F t → Q (faultEntry k t)) : NextHas (cycle row valid f execute s) Q := by
  refine cycle_ends (R := Q) h hs (fun t ht => ?_) (fun _ => id) hF
  refine andThen_ends (hexec t ht) fun _ u hu => ?_
  unfold complete
  split
  · exact hhalt u hu (by assumption)
  · refine andThen_ends (hdep u hu) fun _ v hv => ?_
    unfold advancePc
    split
    · refine andThen_ends (getWord_ends h 2 v hv) fun w x hx => ?_
      exact hend x w hx
    · exact hend v _ hv

end Sys2Proof.Machine
end

