-- ==== Sys2Proof/Laws/Exec.lean ====
section
/-! SUPPORT. What any instruction can do, said once for all 37: a pair of predicates that every single
write of the core keeps is kept by the whole of `exec` and of `step`. -/

namespace Sys2Proof.Machine

/-- `c` has every sticky bit that `b` has (`41_alu.md` R250). -/
structure StickyLe (b c : CC) : Prop where
  overflow  : b.overflow = true → c.overflow = true
  underflow : b.underflow = true → c.underflow = true
  divzero   : b.divzero = true → c.divzero = true

theorem stickyLe_refl (c : CC) : StickyLe c c := ⟨id, id, id⟩

theorem aluAdd_sticky (a b : Word) (c : CC) : StickyLe c (aluAdd a b c).2 := by
  constructor <;> simp +contextual [aluAdd]

theorem aluSubtract_sticky (a b : Word) (c : CC) : StickyLe c (aluSubtract a b c).2 := by
  constructor <;> simp +contextual [aluSubtract]

theorem aluMultiply_sticky (m : MltHalf) (a b : Word) (c : CC) : StickyLe c (aluMultiply m a b c).2 := by
  cases m <;> constructor <;> simp +contextual [aluMultiply, multiplyFlags]

theorem aluDivide_sticky (a b : Word) (c : CC) : StickyLe c (aluDivide a b c).2 := by
  constructor <;> (unfold aluDivide; split <;> simp)

theorem aluTestEquality_sticky (a b : Word) (c : CC) : StickyLe c (aluTestEquality a b c) :=
  ⟨id, id, id⟩

theorem aluShift_sticky (v : Word) (n : BitVec 4) (l a : Bool) (c : CC) :
    StickyLe c (aluShift v n l a c).2 := by
  unfold aluShift
  constructor <;> (dsimp only; split <;> (try split) <;> (try split) <;> simp +contextual)

theorem fpEncode_sticky (x : ExactReal) (c : CC) : StickyLe c (fpEncode x c).2 := by
  unfold fpEncode
  constructor <;> (dsimp only; split <;> (try split) <;> (try split) <;> (try split) <;> simp)

theorem encodeReal_sticky (e : FpEncoder) (x : ExactReal) (c : CC) : StickyLe c (encodeReal e x c).2 := by
  cases e with
  | standard => exact fpEncode_sticky x c
  | other n => constructor <;> simp +contextual [encodeReal]

/-- Every single write of the core keeps `P`; a fault leads from `P` to `F`. -/
structure Writes (P F : State → Prop) : Prop extends Internal P F where
  gpr    : ∀ s r v, P s → P (State.setGpr s r v)
  xr     : ∀ s x v, P s → P (State.setXr s x v)
  fr     : ∀ s f v, P s → P (State.setFr s f v)
  irr    : ∀ s v, P s → P { s with irr := v }
  next   : ∀ s v, P s → P (State.setNextPc s v)
  cc     : ∀ s c, StickyLe s.cc c → P s → P { s with cc := c }
  store  : ∀ s p v, p < 2048 → P s → P { s with mem := writeWord s.mem p v }
  cached : ∀ s p v, p < 2048 → P s → P (wbPush { s with cache := cacheSet s.cache p v } p)
  halt   : ∀ s, P s → P { s with halted := true }
  print  : ∀ s v, P s → P { s with output := s.output ++ [v] }
  answer : ∀ s l, P s → P { s with consoleInput := l, inputWait := none }

theorem insertWord_ends {P F : State → Prop} (h : Writes P F) (a v : Word) (s : State) (hs : P s) :
    (insertWord a v s).Ends P F := by
  rw [insertWord_eq]
  split
  · exact h.store _ _ _ (boundsCheck_lt (by assumption)) hs
  · exact h.fault _ _ hs

theorem cachedInsert_ends {P F : State → Prop} (h : Writes P F) (a v : Word) (s : State) (hs : P s) :
    (cachedInsert a v s).Ends P F := by
  rw [cachedInsert_eq]
  split
  · exact h.cached _ _ _ (boundsCheck_lt (by assumption)) hs
  · exact h.fault _ _ hs

theorem deposit_ends {P F : State → Prop} (h : Writes P F) (ix : BitVec 2) (s : State) (hs : P s) :
    (deposit ix s).Ends P F := by
  unfold deposit
  split
  · exact h.gpr _ _ _ hs
  · split
    · exact h.xr _ _ _ hs
    · exact h.raise _ _ hs
  · split
    · exact andThen_ends (getWord_ends h.toInternal _ _ hs) fun _ t ht =>
        andThen_ends (getWord_ends h.toInternal _ _ ht) fun _ _ hu => h.fr _ _ _ hu
    · exact h.raise _ _ hs
  · exact cachedInsert_ends h _ _ _ hs
  · exact insertWord_ends h _ _ _ hs
  · split
    · exact andThen_ends (insertWord_ends h _ _ _ hs) fun _ t ht => insertWord_ends h _ _ _ ht
    · exact h.raise _ _ hs
  · exact hs

theorem complete_ends {P F Q : State → Prop} (h : Writes P F) (ix : BitVec 2) (s : State) (hs : P s)
    (hend : ∀ t n, P t → Q (t.endCycle n)) (hhalt : ∀ t, P t → t.halted = true → Q t) :
    (complete ix s).Ends Q F := by
  unfold complete
  split
  · exact hhalt s hs (by assumption)
  · refine andThen_ends (deposit_ends h ix s hs) fun _ t ht => ?_
    unfold advancePc
    split
    · exact andThen_ends (getWord_ends h.toInternal 2 t ht) fun w u hu => hend u w hu
    · exact hend t _ ht

theorem withFReg_ends {P F : State → Prop} (h : Writes P F) (fr : BitVec 2) {k : FReg → State → Res Unit}
    (hk : ∀ f t, P t → (k f t).Ends P F) (t : State) (ht : P t) : (withFReg fr k t).Ends P F := by
  unfold withFReg
  split
  · exact hk _ t ht
  · exact h.raise _ _ ht

theorem aluToIrr_ends {P F : State → Prop} (h : Writes P F) {op : Word → Word → CC → Word × CC}
    (hop : ∀ a b c, StickyLe c (op a b c).2) (b : State → Word) (t : State) (ht : P t) :
    (aluToIrr op b t).Ends P F :=
  h.cc { t with irr := (op (t.gpr t.rs1) (b t) t.cc).1 } (op (t.gpr t.rs1) (b t) t.cc).2 (hop _ _ _)
    (h.irr t _ ht)

theorem jumpIf_ends {P F : State → Prop} (h : Writes P F) (b : State → Bool) (t : State) (ht : P t) :
    (jumpIf b t).Ends P F := by
  unfold jumpIf
  split
  · exact h.next _ _ ht
  · exact ht

theorem floatArith_ends {P F : State → Prop} (h : Writes P F) (op : ExactReal → ExactReal → ExactReal)
    (f : FReg) (t : State) (ht : P t) : (floatArith op f t).Ends P F :=
  andThen_ends (getWord_ends h.toInternal _ _ ht) fun _ u hu =>
    h.cc (u.setFr f _) _ (encodeReal_sticky _ _ _) (h.fr u _ _ hu)

theorem vectorElement_ends {P F : State → Prop} (h : Writes P F) {op : Word → Word → CC → Word × CC}
    (hop : ∀ a b c, StickyLe c (op a b c).2) (a b : Word) (t : State) (ht : P t) :
    (vectorElement op a b t).Ends P F :=
  andThen_ends (getWord_ends h.toInternal _ _ ht) fun _ _ hu =>
    andThen_ends (getWord_ends h.toInternal _ _ hu) fun _ w hw =>
      cachedInsert_ends h _ _ _ (h.cc w _ (hop _ _ _) hw)

theorem vectorLoop_ends {P F : State → Prop} (h : Writes P F) {op : Word → Word → CC → Word × CC}
    (hop : ∀ a b c, StickyLe c (op a b c).2) (b1 b2 : Word) (n : Nat) :
    ∀ (i : Nat) (t : State), P t → (vectorLoop op b1 b2 n i t).Ends P F := by
  induction n with
  | zero => exact fun _ _ ht => ht
  | succ m ih =>
    exact fun i t ht => andThen_ends (vectorElement_ends h hop _ _ t ht) fun _ u hu => ih (i + 1) u hu

theorem vectorArith_ends {P F : State → Prop} (h : Writes P F) {op : Word → Word → CC → Word × CC}
    (hop : ∀ a b c, StickyLe c (op a b c).2) (f : FReg) (t : State) (ht : P t) :
    (vectorArith op f t).Ends P F :=
  andThen_ends (getWord_ends h.toInternal _ _ ht) fun _ u hu => vectorLoop_ends h hop _ _ _ 0 u hu

/-- What the ends of a cycle do with `P` and `F`: ADVANCE_PC, a halt, a wait for the host, fault entry. -/
structure EndsIn (P F Q : State → Prop) : Prop where
  finish : ∀ t n, P t → Q (t.endCycle n)
  halt   : ∀ t, P t → t.halted = true → Q t
  wait   : ∀ t r, P t → t.cyc.target = .none → t.cyc.trapTaken = false → t.consoleInput = [] →
    Q { t with inputWait := some r }
  entry  : ∀ k t, F t → Q (faultEntry k t)

theorem device_next {P F Q : State → Prop} (h : Writes P F) (e : EndsIn P F Q) (t : State) (ht : P t) :
    NextHas (finish (complete 0 t)) Q :=
  finish_ends (complete_ends h 0 t ht e.finish e.halt) (fun _ => id) e.entry

theorem deviceCycle_next {P F Q : State → Prop} (h : Writes P F) (e : EndsIn P F Q) (d : BitVec 5)
    {execute : State → Host.Outcome State Fault Refusal}
    (he : ∀ t, P t → t.cyc.target = .none → t.cyc.trapTaken = false → NextHas (execute t) Q)
    (s : State) (hs : P s) : NextHas (deviceCycle d execute s) Q := by
  have hp := prepare_ends h.toInternal rowPlain false true (plainFields d) s hs
  have hf : ∀ (v : Unit) (t : State), prepare rowPlain false true (plainFields d) s = .ok v t →
      t.cyc.target = .none ∧ t.cyc.trapTaken = false := by
    intro v t ht
    unfold prepare decodeStep fetchOperand at ht
    simp only [if_true, andThen_ok] at ht
    split at ht
    · cases ht
    · split at ht
      · cases ht
      · cases ht
        exact ⟨rfl, rfl⟩
  unfold deviceCycle
  cases hr : prepare rowPlain false true (plainFields d) s with
  | fault k t =>
    rw [hr] at hp
    exact e.entry k t hp
  | ok v t =>
    rw [hr] at hp
    exact he t hp (hf v t hr).1 (hf v t hr).2

theorem receiveInput_next {P F Q : State → Prop} (h : Writes P F) (e : EndsIn P F Q) (r : BitVec 2)
    (t : State) (ht : P t) (h1 : t.cyc.target = .none) (h2 : t.cyc.trapTaken = false) :
    NextHas (receiveInput r t) Q := by
  unfold receiveInput
  split
  · exact e.wait t r ht h1 h2 (by assumption)
  · split
    · exact device_next h e _ (h.gpr _ _ _ (h.answer _ _ ht))
    · trivial

/-- What every instruction does to a pair of predicates that the single writes keep. -/
theorem exec_next {P F Q : State → Prop} (h : Writes P F) (e : EndsIn P F Q) (i : Instr) (s : State)
    (hs : P s) : NextHas (exec i s) Q := by
  have keep : ∀ (row : DecodeRow) (valid : Bool) (f : OperandFields) (execute : State → Res Unit)
      (u : State), P u → (∀ t, P t → (execute t).Ends P F) → NextHas (cycle row valid f execute u) Q :=
    fun row valid f execute u hu hx =>
      cycle_keeps h.toInternal hu hx (deposit_ends h f.ix) e.finish e.halt e.entry
  cases i with
  | hlt => exact keep _ _ _ _ _ hs fun t ht => h.halt t ht
  | ldr r ix i a => exact keep _ _ _ _ _ (h.rs1 _ _ hs) fun t ht => h.irr t _ ht
  | str r ix i a => exact keep _ _ _ _ _ (h.rs1 _ _ hs) fun t ht => h.irr t _ ht
  | lda r ix i a => exact keep _ _ _ _ _ (h.rs1 _ _ hs) fun t ht => h.irr t _ ht
  | amr r ix i a => exact keep _ _ _ _ _ (h.rs1 _ _ hs) (aluToIrr_ends h aluAdd_sticky _)
  | smr r ix i a => exact keep _ _ _ _ _ (h.rs1 _ _ hs) (aluToIrr_ends h aluSubtract_sticky _)
  | air r v => exact keep _ _ _ _ _ (h.rs1 _ _ hs) (aluToIrr_ends h aluAdd_sticky _)
  | sir r v => exact keep _ _ _ _ _ (h.rs1 _ _ hs) (aluToIrr_ends h aluSubtract_sticky _)
  | jz r ix i a => exact keep _ _ _ _ _ (h.rs1 _ _ hs) (jumpIf_ends h _)
  | jne r ix i a => exact keep _ _ _ _ _ (h.rs1 _ _ hs) (jumpIf_ends h _)
  | jcc c ix i a => exact keep _ _ _ _ _ (h.rs1 _ _ hs) (jumpIf_ends h _)
  | jma ix i a => exact keep _ _ _ _ _ hs (jumpIf_ends h _)
  | jsr ix i a => exact keep _ _ _ _ _ hs fun t ht => h.next _ _ (h.gpr t _ _ ht)
  | rfs v => exact keep _ _ _ _ _ hs fun t ht => h.next _ _ (h.gpr t _ _ ht)
  | sob r ix i a =>
    exact keep _ _ _ _ _ (h.rs1 _ _ hs) fun t ht =>
      jumpIf_ends h _ _ (h.cc _ _ (aluSubtract_sticky _ _ _) (h.gpr t _ _ ht))
  | jge r ix i a => exact keep _ _ _ _ _ (h.rs1 _ _ hs) (jumpIf_ends h _)
  | mlt rx ry =>
    exact keep _ _ _ _ _ (h.rs1 _ _ hs) fun t ht =>
      h.cc _ _ (aluMultiply_sticky _ _ _ _) (h.gpr _ _ _ (h.gpr t _ _ ht))
  | dvd rx ry =>
    refine keep _ _ _ _ _ (h.rs1 _ _ hs) fun t ht => ?_
    have hst := aluDivide_sticky (t.gpr rx) (t.gpr ry) t.cc
    split <;> rename_i hd <;> rw [hd] at hst
    · exact h.cc _ _ hst (h.gpr _ _ _ (h.gpr t _ _ ht))
    · exact h.cc _ _ hst ht
  | trr rx ry =>
    exact keep _ _ _ _ _ (h.rs1 _ _ hs) fun t ht => h.cc _ _ (aluTestEquality_sticky _ _ _) ht
  | andr rx ry => exact keep _ _ _ _ _ (h.rs1 _ _ hs) fun t ht => h.gpr t _ _ ht
  | orr rx ry => exact keep _ _ _ _ _ (h.rs1 _ _ hs) fun t ht => h.gpr t _ _ ht
  | notr rx => exact keep _ _ _ _ _ (h.rs1 _ _ hs) fun t ht => h.gpr t _ _ ht
  | trap code =>
    refine finish_ends (P := Q) (andThen_ends (prepare_ends h.toInternal _ _ _ _ s hs) fun _ t ht => ?_)
      (fun _ => id) e.entry
    refine andThen_ends (P := P) ?_ fun _ u hu => complete_ends h 0 u hu e.finish e.halt
    split
    · exact h.raise _ _ ht
    · exact insertWord_ends h _ _ _ ht
  | src r al lr n =>
    exact keep _ _ _ _ _ (h.rs1 _ _ hs) fun t ht =>
      h.cc _ _ (aluShift_sticky _ _ _ _ _) (h.gpr t _ _ ht)
  | rrc r al lr n => exact keep _ _ _ _ _ (h.rs1 _ _ hs) fun t ht => h.gpr t _ _ ht
  | fadd fr ix i a =>
    exact keep _ _ _ _ _ (h.rs1 _ _ hs) (withFReg_ends h fr (floatArith_ends h ExactReal.add))
  | fsub fr ix i a =>
    exact keep _ _ _ _ _ (h.rs1 _ _ hs) (withFReg_ends h fr (floatArith_ends h ExactReal.sub))
  | vadd fr ix i a =>
    exact keep _ _ _ _ _ (h.rs1 _ _ hs) (withFReg_ends h fr (vectorArith_ends h aluAdd_sticky))
  | vsub fr ix i a =>
    exact keep _ _ _ _ _ (h.rs1 _ _ hs) (withFReg_ends h fr (vectorArith_ends h aluSubtract_sticky))
  | cnvrt r ix i a =>
    refine keep _ _ _ _ _ (h.rs1 _ _ hs) fun t ht => ?_
    split
    · exact andThen_ends (getWord_ends h.toInternal _ _ ht) fun _ u hu => h.gpr u _ _ hu
    · split
      · exact h.cc _ _ (encodeReal_sticky _ _ _) (h.fr t _ _ ht)
      · exact h.raise _ _ ht
  | ldx x i a => exact keep _ _ _ _ _ hs fun t ht => h.irr t _ ht
  | stx x i a =>
    refine keep _ _ _ _ _ hs fun t ht => ?_
    split
    · exact h.irr t _ ht
    · exact h.raise _ _ ht
  | ldfr fr ix i a => exact keep _ _ _ _ _ (h.rs1 _ _ hs) fun t ht => h.irr t _ ht
  | stfr fr ix i a =>
    exact keep _ _ _ _ _ (h.rs1 _ _ hs) (withFReg_ends h fr fun f t ht => h.irr t _ ht)
  | inp r d =>
    refine deviceCycle_next h e d (fun t ht h1 h2 => ?_) _ (h.rs1 _ _ hs)
    split
    · exact receiveInput_next h e r t ht h1 h2
    · split
      · exact device_next h e t ht
      · trivial
  | out r d =>
    refine deviceCycle_next h e d (fun t ht _ _ => ?_) _ (h.rs1 _ _ hs)
    split
    · exact device_next h e _ (h.print t _ ht)
    · split
      · exact device_next h e t ht
      · trivial
  | chk r d =>
    refine deviceCycle_next h e d (fun t ht _ _ => ?_) _ (h.rs1 _ _ hs)
    split
    · exact device_next h e _ (h.gpr t _ _ ht)
    · trivial

/-- Everything FETCH does: the latches, or a fault (`40_cycle.md` R200). -/
theorem fetch_ends {P F : State → Prop} (s : State)
    (hP : ∀ w, P { s with
      mar := s.marOf s.pc, mbr := w, cyc := { s.cyc with nextPc := wrap16 (sval s.pc + 1) } })
    (hF : ∀ k, F ({ s with mar := s.marOf s.pc }.memfault k)) : (fetch s).Ends P F := by
  unfold fetch fetchWord loadWord
  split
  · exact hP _
  · split
    · exact hP _
    · exact hF _

/-- What every step does to a pair of predicates that the single writes keep: the cycle from FETCH on,
the rest of a held cycle, or the mark `refused`. -/
theorem step_next {P F Q : State → Prop} (h : Writes P F) (e : EndsIn P F Q) (s : State)
    (hfetch : s.refused = false → s.halted = false → s.inputWait = none → ∀ w, P (s.fetched w))
    (hfault : s.refused = false → s.halted = false → s.inputWait = none →
      ∀ k, F ({ s with mar := s.marOf s.pc }.memfault k))
    (hheld : s.inputWait ≠ none → P { s with inputWait := none }) (hmark : Q { s with refused := true }) :
    NextHas (step s) Q := by
  have mark : ∀ o, NextHas o Q → NextHas (markRefused s o) Q := by
    intro o ho
    cases o with
    | next t => exact ho
    | fault f => trivial
    | refused r => exact hmark
  unfold step
  split
  · trivial
  split
  · trivial
  have h1 : s.refused = false := by simpa using ‹¬s.refused = true›
  have h2 : s.halted = false := by simpa using ‹¬s.halted = true›
  split
  · rename_i r hr
    refine mark _ ?_
    unfold resumeInput
    split
    · trivial
    unfold receiveInput
    split
    · exfalso
      simp_all
    split
    · exact device_next h e _ (h.gpr _ _ _ (h.answer { s with inputWait := none } _ (hheld (by simp [hr]))))
    · trivial
  · rename_i hn
    refine mark _ ?_
    have hf := fetch_ends (P := fun t => ∀ u, u = decodeLatch t → P u) (F := F) s
      (fun w u hu => by subst hu; exact hfetch h1 h2 hn w) (hfault h1 h2 hn)
    unfold cycleStep
    cases hr : fetch s with
    | fault k t =>
      rw [hr] at hf
      exact e.entry k t hf
    | ok w t =>
      rw [hr] at hf
      have hp := hf _ rfl
      show NextHas (runDecoded (decodeLatch t)) Q
      unfold runDecoded
      split
      · exact exec_next h e _ _ hp
      · exact e.entry _ _ (h.raise _ _ hp)

end Sys2Proof.Machine
end

