-- ==== Sys2Proof/Laws/Float.lean ====
section
/-! SUPPORT. What the operations on exact reals and the pieces of the floating codec compute, as
statements about rational values. -/

namespace Sys2Proof.Machine

theorem numAt_value (x : ExactReal) (e : Int) (h : e ≤ x.exp) :
    (x.numAt e : ℚ) * (2 : ℚ) ^ e = x.value := by
  unfold ExactReal.numAt ExactReal.value
  push_cast
  rw [mul_assoc, ← zpow_natCast, ← zpow_add₀ (by norm_num)]
  congr 2
  omega

/-- The sum is exact. -/
theorem add_value (x y : ExactReal) : (x.add y).value = x.value + y.value := by
  rw [← numAt_value x (min x.exp y.exp) (min_le_left _ _),
    ← numAt_value y (min x.exp y.exp) (min_le_right _ _)]
  unfold ExactReal.add ExactReal.value
  push_cast
  ring

/-- The difference is exact. -/
theorem sub_value (x y : ExactReal) : (x.sub y).value = x.value - y.value := by
  rw [← numAt_value x (min x.exp y.exp) (min_le_left _ _),
    ← numAt_value y (min x.exp y.exp) (min_le_right _ _)]
  unfold ExactReal.sub ExactReal.value
  push_cast
  ring

theorem ofInt_value (v : Int) : (ExactReal.ofInt v).value = (v : ℚ) := by
  simp [ExactReal.ofInt, ExactReal.value]

theorem value_eq_zero (x : ExactReal) : x.value = 0 ↔ x.num = 0 := by
  unfold ExactReal.value
  have : (2 : ℚ) ^ x.exp ≠ 0 := by positivity
  simp [this]

theorem value_neg (x : ExactReal) : x.value < 0 ↔ x.num < 0 := by
  unfold ExactReal.value
  have hp : (0 : ℚ) < 2 ^ x.exp := by positivity
  rw [mul_neg_iff]
  constructor
  · rintro (h | h)
    · linarith [h.2]
    · exact_mod_cast h.1
  · intro h
    exact .inr ⟨by exact_mod_cast h, hp⟩

theorem abs_value (x : ExactReal) : |x.value| = (x.num.natAbs : ℚ) * (2 : ℚ) ^ x.exp := by
  unfold ExactReal.value
  rw [abs_mul, abs_of_pos (show (0 : ℚ) < 2 ^ x.exp by positivity)]
  congr 1
  rw [← Int.cast_abs, Int.abs_eq_natAbs]
  simp

/-- The mantissa at an exponent is the floor of the magnitude over the power of two. -/
theorem mantissaAt_bounds (x : ExactReal) (e : Int) :
    (x.mantissaAt e : ℚ) * (2 : ℚ) ^ e ≤ |x.value| ∧
      |x.value| < ((x.mantissaAt e : ℚ) + 1) * (2 : ℚ) ^ e := by
  rw [abs_value]
  unfold ExactReal.mantissaAt
  split
  · rename_i h
    push_cast
    have h2 : (x.num.natAbs : ℚ) * 2 ^ (x.exp - e).toNat * 2 ^ e = (x.num.natAbs : ℚ) * 2 ^ x.exp := by
      rw [mul_assoc, ← zpow_natCast, ← zpow_add₀ (by norm_num)]
      congr 2
      omega
    rw [add_mul, h2]
    have : (0 : ℚ) < 2 ^ e := by positivity
    constructor <;> linarith
  · rename_i h
    set n := x.num.natAbs
    obtain ⟨d, hd⟩ : ∃ d : Nat, e = x.exp + d := ⟨(e - x.exp).toNat, by omega⟩
    have hd' : (e - x.exp).toNat = d := by omega
    rw [hd', hd, zpow_add₀ (by norm_num), zpow_natCast]
    have hp : (0 : ℚ) < 2 ^ x.exp := by positivity
    have k1 : n / 2 ^ d * 2 ^ d ≤ n := Nat.div_mul_le_self _ _
    have k2 : n < (n / 2 ^ d + 1) * 2 ^ d := by
      have := Nat.lt_div_mul_add (a := n) (b := 2 ^ d) (by positivity)
      linarith [this]
    have k1' : ((n / 2 ^ d : ℕ) : ℚ) * 2 ^ d ≤ n := by exact_mod_cast k1
    have k2' : (n : ℚ) < (((n / 2 ^ d : ℕ) : ℚ) + 1) * 2 ^ d := by exact_mod_cast k2
    constructor <;> nlinarith

/-- The exponent that puts the mantissa in 128…255 is `log2 - 7`. -/
theorem log2_of_bounds (x : ExactReal) (h : x.num ≠ 0) (e : Int)
    (h1 : 128 * (2 : ℚ) ^ e ≤ |x.value|) (h2 : |x.value| < 256 * (2 : ℚ) ^ e) : x.log2 - 7 = e := by
  rw [abs_value] at h1 h2
  unfold ExactReal.log2
  have hn : x.num.natAbs ≠ 0 := by omega
  set n := x.num.natAbs
  have l1 : 2 ^ n.log2 ≤ n := Nat.log2_self_le hn
  have l2 : n < 2 ^ (n.log2 + 1) := Nat.lt_log2_self
  have l1' : (2 : ℚ) ^ (n.log2 : ℤ) ≤ n := by
    rw [zpow_natCast]
    exact_mod_cast l1
  have l2' : (n : ℚ) < 2 ^ ((n.log2 : ℤ) + 1) := by
    have : (2 : ℚ) ^ ((n.log2 : ℤ) + 1) = ((2 ^ (n.log2 + 1) : ℕ) : ℚ) := by
      push_cast
      norm_cast
    rw [this]
    exact_mod_cast l2
  have hp : (0 : ℚ) < 2 ^ x.exp := by positivity
  have a1 : (2 : ℚ) ^ ((n.log2 : ℤ) + x.exp) ≤ n * 2 ^ x.exp := by
    rw [zpow_add₀ (by norm_num)]
    exact mul_le_mul_of_nonneg_right l1' hp.le
  have a2 : n * 2 ^ x.exp < (2 : ℚ) ^ ((n.log2 : ℤ) + 1 + x.exp) := by
    rw [zpow_add₀ (by norm_num) (_ + 1)]
    exact mul_lt_mul_of_pos_right l2' hp
  have b1 : (128 : ℚ) * 2 ^ e = 2 ^ (e + 7) := by
    rw [zpow_add₀ (by norm_num)]
    norm_num
    ring
  have b2 : (256 : ℚ) * 2 ^ e = 2 ^ (e + 8) := by
    rw [zpow_add₀ (by norm_num)]
    norm_num
    ring
  rw [b1] at h1
  rw [b2] at h2
  have c1 := (zpow_lt_zpow_iff_right₀ (by norm_num : (1 : ℚ) < 2)).mp (lt_of_le_of_lt h1 a2)
  have c2 := (zpow_lt_zpow_iff_right₀ (by norm_num : (1 : ℚ) < 2)).mp (lt_of_le_of_lt a1 h2)
  omega

/-- The pattern of a sign, an exponent and a mantissa, as a number. -/
theorem fpPack_toNat (neg : Bool) (e : Int) (m : Nat) :
    (fpPack neg e m).toNat = neg.toNat * 32768 + (e % 128).toNat * 256 + m % 256 := by
  have h : (fpPack neg e m).toNat =
      ((neg.toNat <<< 7 ||| (BitVec.ofInt 7 e).toNat) <<< 8 ||| (BitVec.ofNat 8 m).toNat) := by
    unfold fpPack
    simp only [BitVec.toNat_append, BitVec.toNat_ofBool]
  rw [h, ← Nat.shiftLeft_add_eq_or_of_lt (BitVec.isLt _), ← Nat.shiftLeft_add_eq_or_of_lt (BitVec.isLt _)]
  simp [Nat.shiftLeft_eq]
  ring

end Sys2Proof.Machine
end

