-- ==== Sys2Proof/Laws/Mfr.lean ====
section
/-! SUPPORT. No instruction reads MFR: whether it completes, faults or is refused, and in which state, does
not depend on what MFR holds. Said phase by phase, then once for all 37 instructions. -/

namespace Sys2Proof.Machine

/-- What a phase answers, with another MFR in its state. -/
def Res.withMfr {α : Type} (r : Res α) (m : BitVec 4) : Res α :=
  match r with
  | .ok v t => .ok v { t with mfr := m }
  | .fault k t => .fault k { t with mfr := m }

/-- The phase does not read MFR and leaves it as it is. -/
def MfrBlind {α : Type} (f : State → Res α) : Prop :=
  ∀ (s : State) (m : BitVec 4), f { s with mfr := m } = (f s).withMfr m

theorem mfrBlind_andThen {α β : Type} {f : State → Res α} {g : α → State → Res β} (hf : MfrBlind f)
    (hg : ∀ v, MfrBlind (g v)) : MfrBlind fun s => (f s).andThen g := by
  intro s m
  show (f { s with mfr := m }).andThen g = ((f s).andThen g).withMfr m
  rw [hf s m]
  cases f s with
  | ok v t => exact hg v t m
  | fault k t => rfl

theorem mfrBlind_raise {α : Type} (k : FaultKind) : MfrBlind (raiseFault k : State → Res α) := fun _ _ => rfl

theorem mfrBlind_getWord (a : Word) : MfrBlind (getWord a) := by
  intro s m
  simp only [getWord_eq, show ({ s with mfr := m } : State).peek a = s.peek a from rfl]
  cases s.peek a <;> rfl

theorem mfrBlind_insertWord (a v : Word) : MfrBlind (insertWord a v) := by
  intro s m
  simp only [insertWord_eq, show ({ s with mfr := m } : State).phys a = s.phys a from rfl]
  cases boundsCheck (s.phys a) <;> rfl

theorem flushAddress_mfr (s : State) (p : Nat) (m : BitVec 4) :
    flushAddress { s with mfr := m } p = { flushAddress s p with mfr := m } := by
  cases h : cacheLookup s.cache p <;> simp only [flushAddress, h]

theorem wbPush_mfr (s : State) (p : Nat) (m : BitVec 4) :
    wbPush { s with mfr := m } p = { wbPush s p with mfr := m } := by
  unfold wbPush
  simp only [flushAddress_mfr]
  split
  · rfl
  · split
    · split <;> rfl
    · rfl

theorem mfrBlind_cachedInsert (a v : Word) : MfrBlind (cachedInsert a v) := by
  intro s m
  simp only [cachedInsert_eq, show ({ s with mfr := m } : State).phys a = s.phys a from rfl]
  cases boundsCheck (s.phys a) with
  | error k => rfl
  | ok p => exact congrArg (Res.ok ()) (wbPush_mfr { s with cache := cacheSet s.cache p v } p m)

theorem mfrBlind_prepare (row : DecodeRow) (trap valid : Bool) (f : OperandFields) :
    MfrBlind (prepare row trap valid f) := by
  refine mfrBlind_andThen (fun s m => ?_) fun _ s m => ?_
  · unfold decodeStep
    split <;> rfl
  · unfold fetchOperand
    rw [show ({ s with mfr := m } : State).effectiveAddress ({ s with mfr := m } : State).indexApplies
      ({ s with mfr := m } : State).cyc.indirectEnabled f =
      s.effectiveAddress s.indexApplies s.cyc.indirectEnabled f from rfl]
    cases s.effectiveAddress s.indexApplies s.cyc.indirectEnabled f with
    | error k => rfl
    | ok ea =>
      simp only [show ({ s with mfr := m } : State).peek (({ s with mfr := m } : State).marOf ea) =
        s.peek (s.marOf ea) from rfl]
      cases s.peek (s.marOf ea) <;> rfl

theorem mfrBlind_deposit (ix : BitVec 2) : MfrBlind (deposit ix) := by
  intro s m
  unfold deposit
  simp only
  split
  · rfl
  · split <;> rfl
  · split
    · exact mfrBlind_andThen (mfrBlind_getWord s.iar) (fun hi => mfrBlind_andThen (f := fun t =>
        getWord (wrap16 (sval t.iar + 1)) t) (fun t m => mfrBlind_getWord _ t m) fun lo _ _ => rfl) s m
    · rfl
  · exact mfrBlind_cachedInsert s.mar s.irr s m
  · exact mfrBlind_insertWord s.mar s.irr s m
  · split
    · rename_i f _
      exact mfrBlind_andThen (f := fun t => insertWord s.mar (fpToWords (s.fr f)).1 t)
        (mfrBlind_insertWord _ _) (fun _ t m => mfrBlind_insertWord _ (fpToWords (t.fr f)).2 t m) s m
    · rfl
  · rfl

theorem mfrBlind_complete (ix : BitVec 2) : MfrBlind (complete ix) := by
  intro s m
  unfold complete
  simp only
  split
  · rfl
  · refine mfrBlind_andThen (g := fun _ t => advancePc t) (mfrBlind_deposit ix) (fun _ t m => ?_) s m
    unfold advancePc
    simp only
    split
    · exact mfrBlind_andThen (mfrBlind_getWord 2) (fun v _ _ => rfl) t m
    · rfl

/-- What an instruction can do, whatever MFR holds: complete with MFR as it is, fault in one state, or be
refused. -/
def MfrFree (e : State → Host.Outcome State Fault Refusal) : Prop :=
  ∀ s : State, (∃ t : State, ∀ m : BitVec 4, e { s with mfr := m } = .next { t with mfr := m }) ∨
    (∃ (k : FaultKind) (u : State), ∀ m : BitVec 4, e { s with mfr := m } = .next (faultEntry k u)) ∨
    ∃ r : Refusal, ∀ m : BitVec 4, e { s with mfr := m } = .refused r

theorem mfrFree_finish {f : State → Res Unit} (h : MfrBlind f) : MfrFree fun s => finish (f s) := by
  intro s
  cases hr : f s with
  | ok v t =>
    refine .inl ⟨t, fun m => ?_⟩
    show finish (f { s with mfr := m }) = _
    rw [h s m, hr]
    rfl
  | fault k t =>
    refine .inr (.inl ⟨k, t, fun m => ?_⟩)
    show finish (f { s with mfr := m }) = _
    rw [h s m, hr]
    rfl

theorem mfrFree_cycle (row : DecodeRow) (valid : Bool) (f : OperandFields) {execute : State → Res Unit}
    (h : MfrBlind execute) : MfrFree (cycle row valid f execute) :=
  mfrFree_finish (mfrBlind_andThen (mfrBlind_prepare row false valid f) fun _ =>
    mfrBlind_andThen h fun _ => mfrBlind_complete f.ix)

theorem mfrFree_device (d : BitVec 5) {e : State → Host.Outcome State Fault Refusal} (h : MfrFree e) :
    MfrFree (deviceCycle d e) := by
  intro s
  have hp := mfrBlind_prepare rowPlain false true (plainFields d) s
  cases hr : prepare rowPlain false true (plainFields d) s with
  | ok v t =>
    have key : ∀ m, deviceCycle d e { s with mfr := m } = e { t with mfr := m } := by
      intro m
      unfold deviceCycle
      rw [hp m, hr]
      rfl
    rcases h t with ⟨u, hu⟩ | ⟨k, u, hu⟩ | ⟨r, hu⟩
    · exact .inl ⟨u, fun m => (key m).trans (hu m)⟩
    · exact .inr (.inl ⟨k, u, fun m => (key m).trans (hu m)⟩)
    · exact .inr (.inr ⟨r, fun m => (key m).trans (hu m)⟩)
  | fault k t =>
    refine .inr (.inl ⟨k, t, fun m => ?_⟩)
    unfold deviceCycle
    rw [hp m, hr]
    rfl

theorem mfrFree_refused (r : Refusal) : MfrFree fun _ => .refused r := fun _ => .inr (.inr ⟨r, fun _ => rfl⟩)

theorem mfrFree_receiveInput (r : BitVec 2) : MfrFree (receiveInput r) := by
  intro s
  cases hc : s.consoleInput with
  | nil =>
    refine .inl ⟨{ s with inputWait := some r }, fun m => ?_⟩
    unfold receiveInput
    simp only [hc]
  | cons a rest =>
    cases ha : answerWord a with
    | none =>
      refine .inr (.inr ⟨.answerOutOfRange, fun m => ?_⟩)
      unfold receiveInput
      simp only [ha]
    | some v =>
      have h := mfrFree_finish (f := fun t : State =>
        complete 0 ({ t with consoleInput := rest, inputWait := none }.setGpr r v))
        (fun t m => mfrBlind_complete 0 ({ t with consoleInput := rest, inputWait := none }.setGpr r v) m) s
      unfold receiveInput
      simp only [ha]
      simpa only [MfrFree] using h

theorem mfrBlind_withFReg (fr : BitVec 2) {k : FReg → State → Res Unit} (h : ∀ f, MfrBlind (k f)) :
    MfrBlind (withFReg fr k) := by
  intro s m
  unfold withFReg
  split
  · exact h _ s m
  · rfl

theorem mfrBlind_secondWord : MfrBlind secondWord := fun s m => mfrBlind_getWord (wrap16 (sval s.iar + 1)) s m

theorem mfrBlind_floatArith (op : ExactReal → ExactReal → ExactReal) (f : FReg) : MfrBlind (floatArith op f) :=
  mfrBlind_andThen mfrBlind_secondWord fun _ s m => by cases f <;> rfl

theorem mfrBlind_vectorElement (op : Word → Word → CC → Word × CC) (a b : Word) :
    MfrBlind (vectorElement op a b) :=
  mfrBlind_andThen (mfrBlind_getWord a) fun v => mfrBlind_andThen (mfrBlind_getWord b) fun w s m =>
    mfrBlind_cachedInsert a (op v w s.cc).1 { s with cc := (op v w s.cc).2 } m

theorem mfrBlind_vectorLoop (op : Word → Word → CC → Word × CC) (b1 b2 : Word) (n : Nat) :
    ∀ i : Nat, MfrBlind (vectorLoop op b1 b2 n i) := by
  induction n with
  | zero => exact fun _ _ _ => rfl
  | succ n ih => exact fun i => mfrBlind_andThen (mfrBlind_vectorElement op _ _) fun _ => ih (i + 1)

theorem mfrBlind_vectorArith (op : Word → Word → CC → Word × CC) (f : FReg) : MfrBlind (vectorArith op f) :=
  mfrBlind_andThen mfrBlind_secondWord fun b2 s m => by
    have e : vectorLength { s with mfr := m } f = vectorLength s f := by cases f <;> rfl
    rw [e]
    exact mfrBlind_vectorLoop op s.mbr b2 (vectorLength s f) 0 s m

theorem mfrBlind_jumpIf {b : State → Bool} (h : ∀ (s : State) (m : BitVec 4), b { s with mfr := m } = b s) :
    MfrBlind (jumpIf b) := by
  intro s m
  unfold jumpIf
  rw [h]
  split <;> rfl

/-- No instruction reads MFR. -/
theorem exec_mfrFree (i : Instr) : MfrFree (exec i) := by
  cases i with
  | hlt => exact fun s => mfrFree_cycle rowPlain true (plainFields s.irAddr) (fun _ _ => rfl) s
  | ldr r ix i a => exact fun s => mfrFree_cycle _ _ _ (fun _ _ => rfl) (s.latchRs1 r)
  | str r ix i a => exact fun s => mfrFree_cycle _ _ _ (fun _ _ => rfl) (s.latchRs1 r)
  | lda r ix i a => exact fun s => mfrFree_cycle _ _ _ (fun _ _ => rfl) (s.latchRs1 r)
  | amr r ix i a => exact fun s => mfrFree_cycle _ _ _ (fun _ _ => rfl) (s.latchRs1 r)
  | smr r ix i a => exact fun s => mfrFree_cycle _ _ _ (fun _ _ => rfl) (s.latchRs1 r)
  | air r v => exact fun s => mfrFree_cycle _ _ _ (fun _ _ => rfl) (s.latchRs1 r)
  | sir r v => exact fun s => mfrFree_cycle _ _ _ (fun _ _ => rfl) (s.latchRs1 r)
  | jz r ix i a => exact fun s => mfrFree_cycle _ _ _ (mfrBlind_jumpIf fun _ _ => rfl) (s.latchRs1 r)
  | jne r ix i a => exact fun s => mfrFree_cycle _ _ _ (mfrBlind_jumpIf fun _ _ => rfl) (s.latchRs1 r)
  | jcc c ix i a => exact fun s => mfrFree_cycle _ _ _ (mfrBlind_jumpIf fun _ _ => rfl) (s.latchRs1 c)
  | jma ix i a => exact mfrFree_cycle _ _ _ (mfrBlind_jumpIf fun _ _ => rfl)
  | jsr ix i a => exact mfrFree_cycle _ _ _ (fun _ _ => rfl)
  | rfs v => exact mfrFree_cycle _ _ _ (fun _ _ => rfl)
  | sob r ix i a =>
    exact fun s => mfrFree_cycle _ _ _ (fun t m =>
      mfrBlind_jumpIf (b := fun u => decide (0 < sval (u.gpr r))) (fun _ _ => rfl)
        { t.setGpr r (aluSubtract (t.gpr r) 1 t.cc).1 with cc := (aluSubtract (t.gpr r) 1 t.cc).2 } m)
      (s.latchRs1 r)
  | jge r ix i a => exact fun s => mfrFree_cycle _ _ _ (mfrBlind_jumpIf fun _ _ => rfl) (s.latchRs1 r)
  | mlt rx ry => exact fun s => mfrFree_cycle _ _ (plainFields s.irAddr) (fun _ _ => rfl) (s.latchRs1 rx)
  | dvd rx ry =>
    exact fun s => mfrFree_cycle _ _ (plainFields s.irAddr) (fun t m => by
      simp only [show ({ t with mfr := m } : State).gpr = t.gpr from rfl]
      split <;> rfl) (s.latchRs1 rx)
  | trr rx ry => exact fun s => mfrFree_cycle _ _ (plainFields s.irAddr) (fun _ _ => rfl) (s.latchRs1 rx)
  | andr rx ry => exact fun s => mfrFree_cycle _ _ (plainFields s.irAddr) (fun _ _ => rfl) (s.latchRs1 rx)
  | orr rx ry => exact fun s => mfrFree_cycle _ _ (plainFields s.irAddr) (fun _ _ => rfl) (s.latchRs1 rx)
  | notr rx => exact fun s => mfrFree_cycle _ _ (plainFields s.irAddr) (fun _ _ => rfl) (s.latchRs1 rx)
  | trap code =>
    refine mfrFree_finish (mfrBlind_andThen (mfrBlind_prepare _ _ _ _) fun _ => mfrBlind_andThen
      (fun t m => ?_) fun _ => mfrBlind_complete 0)
    split
    · rfl
    · exact mfrBlind_insertWord 2 t.cyc.nextPc t m
  | src r al lr n => exact fun s => mfrFree_cycle _ _ (plainFields s.irAddr) (fun _ _ => rfl) (s.latchRs1 r)
  | rrc r al lr n => exact fun s => mfrFree_cycle _ _ (plainFields s.irAddr) (fun _ _ => rfl) (s.latchRs1 r)
  | fadd fr ix i a =>
    exact fun s => mfrFree_cycle _ _ _ (mfrBlind_withFReg fr (mfrBlind_floatArith _)) (s.latchRs1 fr)
  | fsub fr ix i a =>
    exact fun s => mfrFree_cycle _ _ _ (mfrBlind_withFReg fr (mfrBlind_floatArith _)) (s.latchRs1 fr)
  | vadd fr ix i a =>
    exact fun s => mfrFree_cycle _ _ _ (mfrBlind_withFReg fr (mfrBlind_vectorArith _)) (s.latchRs1 fr)
  | vsub fr ix i a =>
    exact fun s => mfrFree_cycle _ _ _ (mfrBlind_withFReg fr (mfrBlind_vectorArith _)) (s.latchRs1 fr)
  | cnvrt r ix i a =>
    refine fun s => mfrFree_cycle _ _ _ (fun t m => ?_) (s.latchRs1 r)
    simp only [show ({ t with mfr := m } : State).gpr = t.gpr from rfl]
    split
    · exact mfrBlind_andThen mfrBlind_secondWord (fun _ _ _ => rfl) t m
    · split <;> rfl
  | ldx x i a => exact mfrFree_cycle _ _ _ (fun _ _ => rfl)
  | stx x i a =>
    refine mfrFree_cycle _ _ _ (fun t m => ?_)
    split
    · rename_i j _
      cases j <;> rfl
    · rfl
  | ldfr fr ix i a => exact fun s => mfrFree_cycle _ _ _ (fun _ _ => rfl) (s.latchRs1 fr)
  | stfr fr ix i a =>
    exact fun s => mfrFree_cycle _ _ _
      (mfrBlind_withFReg fr fun f _ _ => by cases f <;> rfl) (s.latchRs1 fr)
  | inp r d =>
    refine fun s => mfrFree_device d ?_ (s.latchRs1 r)
    split
    · exact mfrFree_receiveInput r
    · split
      · exact mfrFree_finish (mfrBlind_complete 0)
      · exact mfrFree_refused _
  | out r d =>
    refine fun s => mfrFree_device d ?_ (s.latchRs1 r)
    split
    · exact mfrFree_finish fun t m => mfrBlind_complete 0 { t with output := t.output ++ [t.gpr r] } m
    · split
      · exact mfrFree_finish (mfrBlind_complete 0)
      · exact mfrFree_refused _
  | chk r d =>
    refine fun s => mfrFree_device d (fun t => ?_) (s.latchRs1 r)
    cases hc : chkStatus t.cfg d with
    | none => exact .inr (.inr ⟨.undefinedDevice, fun m => by simp only [hc]⟩)
    | some v =>
      have h := mfrFree_finish (f := fun t => complete 0 (t.setGpr r v))
        (fun t m => mfrBlind_complete 0 (t.setGpr r v) m) t
      simp only [hc]
      exact h

end Sys2Proof.Machine
end

