-- ==== Sys2Proof/Laws/Params.lean ====
section
/-! SUPPORT. What the parameters do: OPCODE_MAP as a lookup both ways, and a register of a given width as
the values it holds. -/

namespace Sys2Proof

/-! ## OPCODE_MAP (`30_encoding.md` R171, D3) -/

theorem Mnemonic.mem_all (k : Mnemonic) : k ∈ Mnemonic.all := by
  cases k <;> decide

theorem OpcodeMap.default_distinct : OpcodeMap.default.Distinct := by decide

/-- What the lookup finds has the opcode. -/
theorem OpcodeMap.code_of_find {m : OpcodeMap} {op : BitVec 6} {k : Mnemonic} (h : m.find op = some k) :
    m.code k = op := by
  unfold OpcodeMap.find at h
  simpa using List.find?_some h

/-- The lookup fails exactly on an opcode that no mnemonic has (`30_encoding.md` R173). -/
theorem OpcodeMap.find_eq_none {m : OpcodeMap} {op : BitVec 6} : m.find op = none ↔ ∀ k, m.code k ≠ op := by
  unfold OpcodeMap.find
  rw [List.find?_eq_none]
  simp [Mnemonic.mem_all]

/-- In a map that names no opcode twice the lookup finds the mnemonic itself. -/
theorem OpcodeMap.find_code {m : OpcodeMap} (h : m.Distinct) (k : Mnemonic) : m.find (m.code k) = some k := by
  cases hf : m.find (m.code k) with
  | none => exact absurd rfl (find_eq_none.mp hf k)
  | some j =>
    exact congrArg some (List.inj_on_of_nodup_map h j.mem_all k.mem_all (code_of_find hf))

/-- The opcode of an encoded instruction is its mnemonic's. -/
theorem opField_encode (m : OpcodeMap) (i : Instr) : opField (encode m i) = m.code i.mnemonic := by
  cases i <;> simp only [encode, opField_wordM, opField_wordS, Instr.mnemonic, OpcodeMap.code]

/-- Everything decoding can answer: an instruction whose mnemonic the lookup found, with the fields of the
word, or the rejection of an opcode the lookup did not find. -/
theorem decodeWord_ok {m : OpcodeMap} {w : Word} {i : Instr} (h : decodeWord m w = .ok i) :
    m.find (opField w) = some i.mnemonic ∧ i = i.mnemonic.instr w := by
  unfold decodeWord at h
  split at h
  · rename_i k hk
    cases h
    refine ⟨hk.trans ?_, ?_⟩ <;> cases k <;> rfl
  · cases h

end Sys2Proof

namespace Sys2Proof.Machine

/-! ## Register widths (`10_state.md` R40) -/

theorem sval_bounds (w : Word) : -32768 ≤ sval w ∧ sval w < 32768 := by
  have h1 := BitVec.le_toInt w
  have h2 := @BitVec.toInt_lt 16 w
  unfold sval
  constructor <;> norm_num at h1 h2 ⊢ <;> assumption

theorem sval_wrap16 (v : Int) (h : -32768 ≤ v) (h2 : v < 32768) : sval (wrap16 v) = v := by
  simp only [sval, wrap16, BitVec.toInt_ofInt, Int.bmod]
  push_cast
  omega

theorem wrap16_sval (w : Word) : wrap16 (sval w) = w := by
  simp [wrap16, sval]

/-- The reduced value lies in the register's range, which a signed 16-bit word covers. -/
theorem reduce_bounds (r : RegisterShape) (v : Int) :
    -32768 ≤ r.reduce v ∧ r.reduce v < 32768 ∧
      match r with
      | .signed n => -2 ^ n.val ≤ 2 * r.reduce v ∧ 2 * r.reduce v < 2 ^ n.val
      | .unsigned n => 0 ≤ r.reduce v ∧ r.reduce v < 2 ^ n.val := by
  cases r with
  | signed n =>
    have hn : n.val ≤ 16 := by omega
    have hp : 0 < (2 : Nat) ^ n.val := by positivity
    have hle : (2 : Nat) ^ n.val ≤ 2 ^ 16 := Nat.pow_le_pow_right (by norm_num) hn
    have hle' : (2 : Int) ^ n.val ≤ 65536 := by exact_mod_cast hle
    have h1 := Int.le_bmod (x := v) hp
    have h2 := Int.bmod_lt (x := v) hp
    push_cast at h1 h2
    have hp' : (0 : Int) < 2 ^ n.val := by exact_mod_cast hp
    simp only [RegisterShape.reduce]
    omega
  | unsigned n =>
    have hn : n.val ≤ 15 := by omega
    have hp : (0 : Int) < 2 ^ n.val := by positivity
    have hle : (2 : Int) ^ n.val ≤ 2 ^ 15 := pow_le_pow_right₀ (by norm_num) hn
    have h1 := Int.emod_nonneg v hp.ne'
    have h2 := Int.emod_lt_of_pos v hp
    simp only [RegisterShape.reduce]
    omega

/-- The signed value a register reads after `set(v)` is the reduced one. -/
theorem sval_set (r : RegisterShape) (v : Int) : sval (r.set v) = r.reduce v := by
  have h := reduce_bounds r v
  exact sval_wrap16 _ h.1 h.2.1

/-- A register holds what `set` leaves in it. -/
theorem holds_set (r : RegisterShape) (v : Int) : r.Holds (r.set v) := by
  have h := (reduce_bounds r v).2.2
  cases r <;> simpa [RegisterShape.Holds, sval_set] using h

/-- Setting a register to a value it can hold changes nothing about that value. -/
theorem set_of_holds {r : RegisterShape} {w : Word} (h : r.Holds w) : r.set (sval w) = w := by
  have he : r.reduce (sval w) = sval w := by
    cases r with
    | signed n =>
      simp only [RegisterShape.Holds] at h
      refine Int.bmod_eq_of_le_mul_two ?_ ?_ <;> push_cast <;> omega
    | unsigned n => exact Int.emod_eq_of_lt h.1 h.2
  rw [RegisterShape.set, he, wrap16_sval]

/-- A signed register of 16 bits holds every word. -/
theorem holds_signed16 (w : Word) : (RegisterShape.signed 16).Holds w := by
  have h := sval_bounds w
  show -2 ^ 16 ≤ 2 * sval w ∧ 2 * sval w < 2 ^ 16
  omega

theorem set_signed16 (w : Word) : (RegisterShape.signed 16).set (sval w) = w :=
  set_of_holds (holds_signed16 w)

/-- Setting twice is setting once. -/
theorem set_set (r : RegisterShape) (v : Int) : r.set (sval (r.set v)) = r.set v :=
  set_of_holds (holds_set r v)

@[simp] theorem pcOf_pcOf (s : State) (a : Word) : s.pcOf (s.pcOf a) = s.pcOf a := set_set _ _

@[simp] theorem marOf_marOf (s : State) (a : Word) : s.marOf (s.marOf a) = s.marOf a := set_set _ _

end Sys2Proof.Machine
end

