-- ==== Sys2Proof/Laws/PerInstr.lean ====
section
/-! SUPPORT. The statements made for every instruction: the operand checks that DECODE makes on the word
(`30_encoding.md` R174) are the well-formedness of the instruction the word encodes. -/

namespace Sys2Proof.Laws.SelectorCheck

/-- R174 on the word alone: the opcodes of MLT and DVD want rx and ry in 0 and 2, those of LDX and STX a
nonzero IX, those of FADD, FSUB, VADD, VSUB, LDFR and STFR an fr of 0 or 1. -/
def legalWord (w : Word) : Bool :=
  let op := (opField w).toNat
  let r := (rField w).toNat
  let ix := (ixField w).toNat
  if op = 16 ∨ op = 17 then decide ((r = 0 ∨ r = 2) ∧ (ix = 0 ∨ ix = 2))
  else if op = 33 ∨ op = 34 then decide (ix ≠ 0)
  else if op = 27 ∨ op = 28 ∨ op = 29 ∨ op = 30 ∨ op = 40 ∨ op = 41 then decide (r < 2)
  else true

/-- The instruction is well-formed exactly when its word passes the checks. -/
def Statement (i : Instr) : Prop := i.wellFormed = legalWord (encode OpcodeMap.default i)

theorem legal_pair : ∀ rx ry : BitVec 2, (pairSelectorOk rx && pairSelectorOk ry) =
    decide ((rx.toNat = 0 ∨ rx.toNat = 2) ∧ (ry.toNat = 0 ∨ ry.toNat = 2)) := by decide

theorem legal_index : ∀ x : BitVec 2, indexSelectorOk x = decide (x.toNat ≠ 0) := by decide

theorem legal_float : ∀ fr : BitVec 2, floatSelectorOk fr = decide (fr.toNat < 2) := by decide

theorem legalWord_M (op : BitVec 6) (r ix : BitVec 2) (i : Bool) (addr : BitVec 5) :
    legalWord (wordM op r ix i addr) =
      if op.toNat = 16 ∨ op.toNat = 17 then
        decide ((r.toNat = 0 ∨ r.toNat = 2) ∧ (ix.toNat = 0 ∨ ix.toNat = 2))
      else if op.toNat = 33 ∨ op.toNat = 34 then decide (ix.toNat ≠ 0)
      else if op.toNat = 27 ∨ op.toNat = 28 ∨ op.toNat = 29 ∨ op.toNat = 30 ∨ op.toNat = 40 ∨ op.toNat = 41
      then decide (r.toNat < 2)
      else true := by
  unfold legalWord
  rw [opField_wordM, rField_wordM, ixField_wordM]

theorem legalWord_S (r : BitVec 2) (al lr : Bool) (count : BitVec 4) :
    legalWord (wordS 25 r al lr count) = true ∧ legalWord (wordS 26 r al lr count) = true := by
  unfold legalWord
  rw [opField_wordS, opField_wordS]
  exact ⟨rfl, rfl⟩

theorem hlt : Statement .hlt := by
  unfold Statement encode
  rw [legalWord_M]
  rfl

theorem ldr (r ix : BitVec 2) (i : Bool) (addr : BitVec 5) : Statement (.ldr r ix i addr) := by
  unfold Statement encode
  rw [legalWord_M]
  rfl

theorem str (r ix : BitVec 2) (i : Bool) (addr : BitVec 5) : Statement (.str r ix i addr) := by
  unfold Statement encode
  rw [legalWord_M]
  rfl

theorem lda (r ix : BitVec 2) (i : Bool) (addr : BitVec 5) : Statement (.lda r ix i addr) := by
  unfold Statement encode
  rw [legalWord_M]
  rfl

theorem amr (r ix : BitVec 2) (i : Bool) (addr : BitVec 5) : Statement (.amr r ix i addr) := by
  unfold Statement encode
  rw [legalWord_M]
  rfl

theorem smr (r ix : BitVec 2) (i : Bool) (addr : BitVec 5) : Statement (.smr r ix i addr) := by
  unfold Statement encode
  rw [legalWord_M]
  rfl

theorem air (r : BitVec 2) (immed : BitVec 5) : Statement (.air r immed) := by
  unfold Statement encode
  rw [legalWord_M]
  rfl

theorem sir (r : BitVec 2) (immed : BitVec 5) : Statement (.sir r immed) := by
  unfold Statement encode
  rw [legalWord_M]
  rfl

theorem jz (r ix : BitVec 2) (i : Bool) (addr : BitVec 5) : Statement (.jz r ix i addr) := by
  unfold Statement encode
  rw [legalWord_M]
  rfl

theorem jne (r ix : BitVec 2) (i : Bool) (addr : BitVec 5) : Statement (.jne r ix i addr) := by
  unfold Statement encode
  rw [legalWord_M]
  rfl

theorem jcc (cc ix : BitVec 2) (i : Bool) (addr : BitVec 5) : Statement (.jcc cc ix i addr) := by
  unfold Statement encode
  rw [legalWord_M]
  rfl

theorem jma (ix : BitVec 2) (i : Bool) (addr : BitVec 5) : Statement (.jma ix i addr) := by
  unfold Statement encode
  rw [legalWord_M]
  rfl

theorem jsr (ix : BitVec 2) (i : Bool) (addr : BitVec 5) : Statement (.jsr ix i addr) := by
  unfold Statement encode
  rw [legalWord_M]
  rfl

theorem rfs (immed : BitVec 5) : Statement (.rfs immed) := by
  unfold Statement encode
  rw [legalWord_M]
  rfl

theorem sob (r ix : BitVec 2) (i : Bool) (addr : BitVec 5) : Statement (.sob r ix i addr) := by
  unfold Statement encode
  rw [legalWord_M]
  rfl

theorem jge (r ix : BitVec 2) (i : Bool) (addr : BitVec 5) : Statement (.jge r ix i addr) := by
  unfold Statement encode
  rw [legalWord_M]
  rfl

theorem mlt (rx ry : BitVec 2) : Statement (.mlt rx ry) := by
  unfold Statement encode
  rw [legalWord_M]
  exact legal_pair rx ry

theorem dvd (rx ry : BitVec 2) : Statement (.dvd rx ry) := by
  unfold Statement encode
  rw [legalWord_M]
  exact legal_pair rx ry

theorem trr (rx ry : BitVec 2) : Statement (.trr rx ry) := by
  unfold Statement encode
  rw [legalWord_M]
  rfl

theorem andr (rx ry : BitVec 2) : Statement (.andr rx ry) := by
  unfold Statement encode
  rw [legalWord_M]
  rfl

theorem orr (rx ry : BitVec 2) : Statement (.orr rx ry) := by
  unfold Statement encode
  rw [legalWord_M]
  rfl

theorem notr (rx : BitVec 2) : Statement (.notr rx) := by
  unfold Statement encode
  rw [legalWord_M]
  rfl

theorem trap (code : BitVec 5) : Statement (.trap code) := by
  unfold Statement encode
  rw [legalWord_M]
  rfl

theorem src (r : BitVec 2) (al lr : Bool) (count : BitVec 4) : Statement (.src r al lr count) :=
  (legalWord_S r al lr count).1.symm

theorem rrc (r : BitVec 2) (al lr : Bool) (count : BitVec 4) : Statement (.rrc r al lr count) :=
  (legalWord_S r al lr count).2.symm

theorem fadd (fr ix : BitVec 2) (i : Bool) (addr : BitVec 5) : Statement (.fadd fr ix i addr) := by
  unfold Statement encode
  rw [legalWord_M]
  exact legal_float fr

theorem fsub (fr ix : BitVec 2) (i : Bool) (addr : BitVec 5) : Statement (.fsub fr ix i addr) := by
  unfold Statement encode
  rw [legalWord_M]
  exact legal_float fr

theorem vadd (fr ix : BitVec 2) (i : Bool) (addr : BitVec 5) : Statement (.vadd fr ix i addr) := by
  unfold Statement encode
  rw [legalWord_M]
  exact legal_float fr

theorem vsub (fr ix : BitVec 2) (i : Bool) (addr : BitVec 5) : Statement (.vsub fr ix i addr) := by
  unfold Statement encode
  rw [legalWord_M]
  exact legal_float fr

theorem cnvrt (r ix : BitVec 2) (i : Bool) (addr : BitVec 5) : Statement (.cnvrt r ix i addr) := by
  unfold Statement encode
  rw [legalWord_M]
  rfl

theorem ldx (x : BitVec 2) (i : Bool) (addr : BitVec 5) : Statement (.ldx x i addr) := by
  unfold Statement encode
  rw [legalWord_M]
  exact legal_index x

theorem stx (x : BitVec 2) (i : Bool) (addr : BitVec 5) : Statement (.stx x i addr) := by
  unfold Statement encode
  rw [legalWord_M]
  exact legal_index x

theorem ldfr (fr ix : BitVec 2) (i : Bool) (addr : BitVec 5) : Statement (.ldfr fr ix i addr) := by
  unfold Statement encode
  rw [legalWord_M]
  exact legal_float fr

theorem stfr (fr ix : BitVec 2) (i : Bool) (addr : BitVec 5) : Statement (.stfr fr ix i addr) := by
  unfold Statement encode
  rw [legalWord_M]
  exact legal_float fr

theorem inp (r : BitVec 2) (devid : BitVec 5) : Statement (.inp r devid) := by
  unfold Statement encode
  rw [legalWord_M]
  rfl

theorem out (r : BitVec 2) (devid : BitVec 5) : Statement (.out r devid) := by
  unfold Statement encode
  rw [legalWord_M]
  rfl

theorem chk (r : BitVec 2) (devid : BitVec 5) : Statement (.chk r devid) := by
  unfold Statement encode
  rw [legalWord_M]
  rfl

end Sys2Proof.Laws.SelectorCheck
end

