-- ==== Sys2Proof/Laws/Vector.lean ====
section
/-! SUPPORT. What the loops of the model do: the element loop of VADD and VSUB, the flush of reset, the
loader. -/

namespace Sys2Proof.Machine

/-! ## The element loop (`47_float_vector.md` R492) -/

/-- What an element operation may change: memory, cache, buffer and condition codes. -/
def VectorFrame (s t : State) : Prop :=
  t = { s with mem := t.mem, cache := t.cache, writeBuffer := t.writeBuffer, cc := t.cc }

theorem VectorFrame.refl (s : State) : VectorFrame s s := rfl

theorem VectorFrame.trans {s t u : State} (h : VectorFrame s t) (h2 : VectorFrame t u) :
    VectorFrame s u := by
  unfold VectorFrame at *
  rw [h2, h]

theorem VectorFrame.phys {s t : State} (h : VectorFrame s t) (a : Word) : t.phys a = s.phys a := by
  rw [h]
  rfl

theorem VectorFrame.cfg {s t : State} (h : VectorFrame s t) : t.cfg = s.cfg := by
  rw [h]

/-- Whether an address can be read does not depend on what is stored. -/
theorem VectorFrame.peek {s t : State} (h : VectorFrame s t) {a v : Word} (hp : s.peek a = .ok v) :
    ∃ w, t.peek a = .ok w := by
  unfold State.peek at *
  rw [h.phys]
  cases hb : boundsCheck (s.phys a) with
  | error k => rw [hb] at hp; cases hp
  | ok q => exact ⟨_, rfl⟩

/-- One element whose two words can be read. -/
theorem vectorElement_ok (op : Word → Word → CC → Word × CC) (a1 a2 v1 v2 : Word) (t : State)
    (h1 : t.peek a1 = .ok v1) (h2 : t.peek a2 = .ok v2) :
    ∃ u p, boundsCheck (t.phys a1) = .ok p ∧ vectorElement op a1 a2 t = .ok () u ∧ VectorFrame t u ∧
      u.cc = (op v1 v2 t.cc).2 ∧
      (t.cfg.wbPolicy = .flushEach →
        (∀ q, readWord u.mem q = if q = p then (op v1 v2 t.cc).1 else readWord t.mem q) ∧
        (∀ q, cacheLookup u.cache q =
          if q = p then some (op v1 v2 t.cc).1 else cacheLookup t.cache q)) := by
  obtain ⟨p, hb, _, _⟩ := peek_ok_bounds h1
  refine ⟨wbPush { { t with cc := (op v1 v2 t.cc).2 } with
    cache := cacheSet t.cache p (op v1 v2 t.cc).1 } p, p, hb, ?_, ?_, ?_, ?_⟩
  · unfold vectorElement
    rw [getWord_ok h1, andThen_ok, getWord_ok h2, andThen_ok, cachedInsert_eq]
    have : ({ t with cc := (op v1 v2 t.cc).2 } : State).phys a1 = t.phys a1 := rfl
    rw [this, hb]
  · unfold VectorFrame
    rw [wbPush_frame]
  · rw [wbPush_frame]
  · intro hf
    exact cachedStore_flushEach { t with cc := (op v1 v2 t.cc).2 } p _ hf

/-- One element whose first or second word cannot be read: nothing is stored. -/
theorem vectorElement_fault (op : Word → Word → CC → Word × CC) (a1 a2 : Word) (k : FaultKind) (t : State)
    (h : t.peek a1 = .error k ∨ ((∃ v, t.peek a1 = .ok v) ∧ t.peek a2 = .error k)) :
    vectorElement op a1 a2 t = .fault k (t.memfault k) := by
  unfold vectorElement
  rcases h with h | ⟨⟨v, h1⟩, h2⟩
  · rw [getWord_fault h, andThen_fault]
  · rw [getWord_ok h1, andThen_ok, getWord_fault h2, andThen_fault]

/-- The states in which the elements of a vector operation start, one after another. -/
def vectorStates (op : Word → Word → CC → Word × CC) (b1 b2 : Word) (t : State) (k : Nat) : State :=
  match k with
  | 0 => t
  | k + 1 => (vectorElement op (vectorAddress b1 k) (vectorAddress b2 k) (vectorStates op b1 b2 t k)).state

/-- One element of the run: it completes, and changes only what an element operation may change. -/
theorem vectorStates_step (op : Word → Word → CC → Word × CC) (b1 b2 : Word) (t : State) (k : Nat)
    (h1 : ∃ v, t.peek (vectorAddress b1 k) = .ok v) (h2 : ∃ v, t.peek (vectorAddress b2 k) = .ok v)
    (hf : VectorFrame t (vectorStates op b1 b2 t k)) :
    vectorElement op (vectorAddress b1 k) (vectorAddress b2 k) (vectorStates op b1 b2 t k) =
        .ok () (vectorStates op b1 b2 t (k + 1)) ∧
      VectorFrame t (vectorStates op b1 b2 t (k + 1)) := by
  obtain ⟨v1, h1⟩ := h1
  obtain ⟨v2, h2⟩ := h2
  obtain ⟨w1, h1'⟩ := hf.peek h1
  obtain ⟨w2, h2'⟩ := hf.peek h2
  obtain ⟨u, p, _, he, hu, _⟩ := vectorElement_ok op _ _ _ _ _ h1' h2'
  have e : vectorStates op b1 b2 t (k + 1) = u := by
    show (vectorElement op _ _ _).state = u
    rw [he]
    rfl
  rw [e]
  exact ⟨he, hf.trans hu⟩

/-- The run changes only what an element operation may change. -/
theorem vectorStates_frame (op : Word → Word → CC → Word × CC) (b1 b2 : Word) (t : State) (n : Nat)
    (h1 : ∀ k < n, ∃ v, t.peek (vectorAddress b1 k) = .ok v)
    (h2 : ∀ k < n, ∃ v, t.peek (vectorAddress b2 k) = .ok v) :
    ∀ k ≤ n, VectorFrame t (vectorStates op b1 b2 t k) := by
  intro k
  induction k with
  | zero => exact fun _ => VectorFrame.refl t
  | succ k ih =>
    intro hk
    exact (vectorStates_step op b1 b2 t k (h1 k hk) (h2 k hk) (ih (by omega))).2

/-- The states of a vector operation whose elements can be read are a run. -/
theorem vectorStates_run (op : Word → Word → CC → Word × CC) (b1 b2 : Word) (t : State) (n : Nat)
    (h1 : ∀ k < n, ∃ v, t.peek (vectorAddress b1 k) = .ok v)
    (h2 : ∀ k < n, ∃ v, t.peek (vectorAddress b2 k) = .ok v) :
    VectorRun op b1 b2 n (vectorStates op b1 b2 t) := by
  intro k hk
  have hf := vectorStates_frame op b1 b2 t n h1 h2 k (by omega)
  have hs := (vectorStates_step op b1 b2 t k (h1 k hk) (h2 k hk) hf).1
  obtain ⟨v1, e1⟩ := h1 k hk
  obtain ⟨v2, e2⟩ := h2 k hk
  obtain ⟨w1, g1⟩ := hf.peek e1
  obtain ⟨w2, g2⟩ := hf.peek e2
  refine ⟨w1, w2, g1, g2, ?_⟩
  rw [← hs]
  unfold vectorElement
  rw [getWord_ok g1, andThen_ok, getWord_ok g2, andThen_ok]

/-- The loop reaches the state of any element before the first fault. -/
theorem vectorLoop_states (op : Word → Word → CC → Word × CC) (b1 b2 : Word) (t : State) (n : Nat)
    (h1 : ∀ k < n, ∃ v, t.peek (vectorAddress b1 k) = .ok v)
    (h2 : ∀ k < n, ∃ v, t.peek (vectorAddress b2 k) = .ok v) (rest : Nat) :
    ∀ k ≤ n, vectorLoop op b1 b2 (n + rest - k) k (vectorStates op b1 b2 t k) =
      vectorLoop op b1 b2 rest n (vectorStates op b1 b2 t n) := by
  intro k hk
  obtain ⟨d, rfl⟩ : ∃ d, n = k + d := ⟨n - k, by omega⟩
  clear hk
  induction d generalizing k with
  | zero => simp
  | succ d ih =>
    have hs := vectorStates_step op b1 b2 t k (h1 k (by omega)) (h2 k (by omega))
      (vectorStates_frame op b1 b2 t _ h1 h2 k (by omega))
    rw [show k + (d + 1) + rest - k = (d + rest) + 1 by omega, vectorLoop]
    show (vectorElement op (vectorAddress b1 k) (vectorAddress b2 k) _).andThen _ = _
    rw [hs.1, andThen_ok]
    have e : k + 1 + d = k + (d + 1) := by omega
    have := ih (k + 1) (e ▸ h1) (e ▸ h2)
    rwa [show k + 1 + d + rest - (k + 1) = d + rest by omega, e] at this

/-- Elements that can all be read stand at different physical addresses. -/
theorem vectorAddress_injective (s : State) (b : Word) (n : Nat)
    (h : ∀ k < n, ∃ v, s.peek (vectorAddress b k) = .ok v) :
    ∀ k < n, ∀ l < n, k ≠ l → s.phys (vectorAddress b k) ≠ s.phys (vectorAddress b l) := by
  have hb : ∀ k < n, 0 ≤ s.phys (vectorAddress b k) ∧ s.phys (vectorAddress b k) < 2048 := by
    intro k hk
    obtain ⟨v, hv⟩ := h k hk
    obtain ⟨p, h1, h2, _⟩ := peek_ok_bounds hv
    have := boundsCheck_ok.mp h1
    omega
  have key : ∀ k l, k < l → l < n → s.phys (vectorAddress b k) ≠ s.phys (vectorAddress b l) := by
    intro k l hkl hl he
    have e : sval (vectorAddress b k) = sval (vectorAddress b l) := by
      unfold State.phys at he
      omega
    simp only [vectorAddress, sval, wrap16, BitVec.toInt_ofInt] at e
    have hge : k + 65536 ≤ l := by
      simp only [Int.bmod] at e
      push_cast at e
      omega
    have h1 := hb k (by omega)
    have h2 := hb (k + 32768) (by omega)
    have h3 := hb (k + 16384) (by omega)
    have h4 := hb (k + 49152) (by omega)
    unfold State.phys at h1 h2 h3 h4
    simp only [vectorAddress, sval, wrap16, BitVec.toInt_ofInt, Int.bmod] at h1 h2 h3 h4
    push_cast at h1 h2 h3 h4
    omega
  intro k hk l hl hne
  rcases lt_or_gt_of_ne hne with h | h
  · exact key k l h hl
  · exact (key l k h hk).symm

/-! ## Reset's flush (`70_reset_and_hazards.md` R700) -/

theorem flushAll_frame (pending : List Nat) :
    ∀ s : State, flushAll s pending = { s with mem := (flushAll s pending).mem } := by
  induction pending with
  | nil => exact fun _ => rfl
  | cons p rest ih =>
    intro s
    rw [flushAll, ih, flushAddress_frame]

/-! ## The loader (`70_reset_and_hazards.md` R710) -/

theorem placePairs_frame (pairs : List LoadPair) :
    ∀ s : State, placePairs s pairs = { s with mem := (placePairs s pairs).mem } := by
  induction pairs with
  | nil => exact fun _ => rfl
  | cons q rest ih =>
    intro s
    rw [placePairs, ih]

end Sys2Proof.Machine
end

