-- ==== Sys2Proof/Tests/Slice0.lean ====
section
/-! SUPPORT. The model's own tests. Expected results come from `95_test_vectors.md` (the vector is named
in each comment) or are worked out by hand from the rule named. Then, for every obligation with
hypotheses, a witness: a concrete state and operands that meet them together. -/

open Sys2Proof Sys2Proof.Machine

namespace Sys2Proof.Tests

/-! ## WellFormed: an ill-formed term for each check -/

theorem test_wf_mlt_refuses_rx : (Instr.mlt 1 2).wellFormed = false := by decide
theorem test_wf_mlt_refuses_ry : (Instr.mlt 0 3).wellFormed = false := by decide
theorem test_wf_dvd_refuses_rx : (Instr.dvd 3 0).wellFormed = false := by decide
theorem test_wf_dvd_refuses_ry : (Instr.dvd 2 1).wellFormed = false := by decide
theorem test_wf_fadd_refuses_fr : (Instr.fadd 2 0 false 0).wellFormed = false := by decide
theorem test_wf_fsub_refuses_fr : (Instr.fsub 3 0 false 0).wellFormed = false := by decide
theorem test_wf_vadd_refuses_fr : (Instr.vadd 2 0 false 0).wellFormed = false := by decide
theorem test_wf_vsub_refuses_fr : (Instr.vsub 3 0 false 0).wellFormed = false := by decide
theorem test_wf_ldfr_refuses_fr : (Instr.ldfr 2 0 false 0).wellFormed = false := by decide
theorem test_wf_stfr_refuses_fr : (Instr.stfr 3 0 false 0).wellFormed = false := by decide
theorem test_wf_ldx_refuses_zero : (Instr.ldx 0 false 5).wellFormed = false := by decide
theorem test_wf_stx_refuses_zero : (Instr.stx 0 true 5).wellFormed = false := by decide
theorem test_wf_accepts_the_edges : (Instr.mlt 2 2).wellFormed = true ∧
    (Instr.fadd 1 3 true 31).wellFormed = true ∧ (Instr.stx 3 true 31).wellFormed = true := by decide

/-! ## Decoding: a word of the spec for every constructor -/

theorem test_decode_hlt : decodeWord OpcodeMap.default 0x03FF#16 = .ok .hlt := by rfl  -- V280
theorem test_decode_ldr : decodeWord OpcodeMap.default 0x0565#16 = .ok (.ldr 1 1 true 5) := by rfl  -- V52
theorem test_decode_str : decodeWord OpcodeMap.default 0x0916#16 = .ok (.str 1 0 false 22) := by rfl  -- V123
theorem test_decode_lda : decodeWord OpcodeMap.default 0x0E45#16 = .ok (.lda 2 1 false 5) := by rfl  -- V125
theorem test_decode_amr : decodeWord OpcodeMap.default 0x1116#16 = .ok (.amr 1 0 false 22) := by rfl  -- V142
theorem test_decode_smr : decodeWord OpcodeMap.default 0x1414#16 = .ok (.smr 0 0 false 20) := by rfl  -- V143
theorem test_decode_air : decodeWord OpcodeMap.default 0x18E3#16 = .ok (.air 0 3) := by rfl  -- V55
theorem test_decode_sir : decodeWord OpcodeMap.default 0x1E04#16 = .ok (.sir 2 4) := by rfl  -- R170
theorem test_decode_jz : decodeWord OpcodeMap.default 0x210C#16 = .ok (.jz 1 0 false 12) := by rfl  -- V160
theorem test_decode_jne : decodeWord OpcodeMap.default 0x2414#16 = .ok (.jne 0 0 false 20) := by rfl  -- V163
theorem test_decode_jcc : decodeWord OpcodeMap.default 0x2B14#16 = .ok (.jcc 3 0 false 20) := by rfl  -- V165
theorem test_decode_jma : decodeWord OpcodeMap.default 0x2C25#16 = .ok (.jma 0 true 5) := by rfl  -- V168
theorem test_decode_jsr : decodeWord OpcodeMap.default 0x3010#16 = .ok (.jsr 0 false 16) := by rfl  -- V171
theorem test_decode_rfs : decodeWord OpcodeMap.default 0x3409#16 = .ok (.rfs 9) := by rfl  -- V172
theorem test_decode_sob : decodeWord OpcodeMap.default 0x3908#16 = .ok (.sob 1 0 false 8) := by rfl  -- V176
theorem test_decode_jge : decodeWord OpcodeMap.default 0x3C14#16 = .ok (.jge 0 0 false 20) := by rfl  -- V179
theorem test_decode_mlt : decodeWord OpcodeMap.default 0x4200#16 = .ok (.mlt 2 0) := by rfl  -- V191
theorem test_decode_dvd : decodeWord OpcodeMap.default 0x4480#16 = .ok (.dvd 0 2) := by rfl  -- V194
theorem test_decode_trr : decodeWord OpcodeMap.default 0x4980#16 = .ok (.trr 1 2) := by rfl  -- V199
theorem test_decode_and : decodeWord OpcodeMap.default 0x4C40#16 = .ok (.andr 0 1) := by rfl  -- V202
theorem test_decode_orr : decodeWord OpcodeMap.default 0x52C0#16 = .ok (.orr 2 3) := by rfl  -- V203
theorem test_decode_not : decodeWord OpcodeMap.default 0x55C0#16 = .ok (.notr 1) := by rfl  -- V205
theorem test_decode_trap : decodeWord OpcodeMap.default 0x6010#16 = .ok (.trap 16) := by rfl  -- V284
theorem test_decode_src : decodeWord OpcodeMap.default 0x64C2#16 = .ok (.src 0 true true 2) := by rfl  -- V210
theorem test_decode_rrc : decodeWord OpcodeMap.default 0x6884#16 = .ok (.rrc 0 true false 4) := by rfl  -- V216
theorem test_decode_fadd : decodeWord OpcodeMap.default 0x6C16#16 = .ok (.fadd 0 0 false 22) := by rfl  -- V235
theorem test_decode_fsub : decodeWord OpcodeMap.default 0x7116#16 = .ok (.fsub 1 0 false 22) := by rfl  -- V238
theorem test_decode_vadd : decodeWord OpcodeMap.default 0x750A#16 = .ok (.vadd 1 0 false 10) := by rfl  -- V239
theorem test_decode_vsub : decodeWord OpcodeMap.default 0x780A#16 = .ok (.vsub 0 0 false 10) := by rfl  -- V245
theorem test_decode_cnvrt : decodeWord OpcodeMap.default 0x7D18#16 = .ok (.cnvrt 1 0 false 24) := by rfl  -- V246
theorem test_decode_ldx : decodeWord OpcodeMap.default 0x8467#16 = .ok (.ldx 1 true 7) := by rfl  -- V129
theorem test_decode_stx : decodeWord OpcodeMap.default 0x8894#16 = .ok (.stx 2 false 20) := by rfl  -- V131
theorem test_decode_ldfr : decodeWord OpcodeMap.default 0xA114#16 = .ok (.ldfr 1 0 false 20) := by rfl  -- V231
theorem test_decode_stfr : decodeWord OpcodeMap.default 0xA418#16 = .ok (.stfr 0 0 false 24) := by rfl  -- V233
theorem test_decode_in : decodeWord OpcodeMap.default 0xC500#16 = .ok (.inp 1 0) := by rfl  -- V260
theorem test_decode_out : decodeWord OpcodeMap.default 0xC901#16 = .ok (.out 1 1) := by rfl  -- V267
theorem test_decode_chk : decodeWord OpcodeMap.default 0xCE02#16 = .ok (.chk 2 2) := by rfl  -- V270
theorem test_decode_unassigned :
    decodeWord OpcodeMap.default 0xFC00#16 = .error (.unassignedOpcode 63) := by rfl  -- V290

theorem test_decode_table_word : decodeTableWord 16 0x8467 = some (.ldx 1 true 7) := by rfl  -- V129

/-! ## Parameters of decoding and of PC and MAR -/

/-- A map that exchanges the opcodes of HLT and LDR, and one that names opcode 1 twice. -/
def exchanged : OpcodeMap := { OpcodeMap.default with hlt := 1, ldr := 0 }
def doubled : OpcodeMap := { OpcodeMap.default with hlt := 1 }

-- D3: the opcode is an argument
theorem test_decode_other_map : decodeWord exchanged 0x0165#16 = .ok (.ldr 1 1 true 5) ∧
    decodeWord exchanged 0x07FF#16 = .ok .hlt ∧ encode exchanged .hlt = 0x0400#16 := by decide
-- log 5: the first mnemonic of the catalogue
theorem test_decode_doubled_map : decodeWord doubled 0x0565#16 = .ok .hlt ∧
    decodeWord doubled 0x0000#16 = .error (.unassignedOpcode 0) := by decide
-- R40
theorem test_register_shapes : (RegisterShape.signed 16).set 40000 = 0x9C40 ∧
    (RegisterShape.signed 12).set 2048 = 0xF800 ∧ (RegisterShape.signed 12).set (-2049) = 0x07FF ∧
    (RegisterShape.unsigned 12).set (-1) = 0x0FFF ∧ (RegisterShape.unsigned 12).set 4096 = 0 := by decide

/-! ## One step on a small state -/

/-- The state of a next outcome. -/
def nextState (o : Host.Outcome State Fault Refusal) : Option State :=
  match o with
  | .next t => some t
  | .fault _ => none
  | .refused _ => none

/-- `s` with the given words of memory. -/
def withWords (m : List (Nat × Int)) (s : State) : State :=
  match m with
  | [] => s
  | e :: rest => withWords rest { s with mem := writeWord s.mem e.1 (wrap16 e.2) }

/-- The launch state in user mode with the given OFF, which is a parameter. -/
def user (off : Nat) : State :=
  { State.reset with
    runningUserProgram := true, cfg := { Params.default with bootAddress := 0, bootLength := off } }

/-- One step with the instruction `w` at physical `pc`; what `f` sees of the next state. -/
def run {α : Type} (pc : Nat) (w : Int) (s : State) (f : State → α) : Option α :=
  (nextState (step (withWords [(pc, w)] { s with pc := wrap16 pc }))).map f

/-- The four condition codes: OVERFLOW, UNDERFLOW, DIVZERO, EQUAL. -/
def ccs (s : State) : Bool × Bool × Bool × Bool :=
  (s.cc.overflow, s.cc.underflow, s.cc.divzero, s.cc.equal)

-- W10, the word placed where the first step after reset fetches
theorem test_with_fetch_word :
    (nextState (step (State.reset.withFetchWord 16 0x1803))).map (fun t => (t.r0, t.pc)) = some (3, 1) := by
  decide
-- V50
theorem test_ldr_indexed : run 6 0x0445 (withWords [(105, 8)] { State.reset with x1 := 100 })
    (fun t => (t.r0, t.iar)) = some (8, 105) := by decide
-- V52
theorem test_ldr_indirect_indexed :
    run 6 0x0565 (withWords [(7, 300), (300, 12)] { State.reset with x1 := 2 })
      (fun t => (t.r1, t.iar)) =
    some (12, 300) := by decide
-- V123
theorem test_str_writes_memory_and_cache :
    run 6 0x0916 { State.reset with r1 := 7 }
      (fun t => (readWord t.mem 22, cacheLookup t.cache 22, t.writeBuffer)) =
    some (7, some 7, []) := by decide
-- V124
theorem test_str_out_of_bounds :
    run 6 0x084A (withWords [(1, 77)] { State.reset with r0 := 5, x1 := 2040 })
      (fun t => (t.mfr, readWord t.mem 5, t.pc, t.cache)) =
    some (8, 6, 77, []) := by decide
-- V125
theorem test_lda_indexed :
    run 6 0x0E45 { State.reset with x1 := 100 }
      (fun t => (t.r2, t.irr)) =
    some (105, 105) := by decide
-- V126
theorem test_lda_negative_address_faults :
    run 6 0x0C3F (withWords [(31, -5)] State.reset)
      (fun t => (t.mfr, t.r0)) =
    some (1, 0) := by decide
-- V140
theorem test_amr_overflows :
    run 6 0x1014 (withWords [(20, 1)] { State.reset with r0 := 0x7FFF })
      (fun t => (t.r0, ccs t)) =
    some (0x8000, true, false, false, false) := by decide
-- V141
theorem test_amr_underflows :
    run 6 0x1014 (withWords [(20, -1)] { State.reset with r0 := 0x8000 })
      (fun t => (t.r0, ccs t)) =
    some (0x7FFF, false, true, false, false) := by decide
-- V143
theorem test_smr_from_zero_is_strict :
    run 6 0x1414 (withWords [(20, -32768)] State.reset)
      (fun t => (t.r0, ccs t)) =
    some (0x8000, false, false, false, false) := by decide
-- V144
theorem test_smr_overflows :
    run 6 0x1414 (withWords [(20, -32767)] { State.reset with r0 := 1 })
      (fun t => (t.r0, ccs t)) =
    some (0x8000, true, false, false, false) := by decide
-- V55
theorem test_air_ignores_ix_and_i :
    run 6 0x18E3 { State.reset with x3 := 5 }
      (fun t => (t.r0, ccs t)) =
    some (3, false, false, false, false) := by decide
-- V146
theorem test_air_adds_31_unsigned :
    run 6 0x181F { State.reset with r0 := 0x7FFF }
      (fun t => (t.r0, ccs t)) =
    some (0x801E, true, false, false, false) := by decide
-- V148
theorem test_sir_underflows :
    run 6 0x1C01 { State.reset with r0 := 0x8000 }
      (fun t => (t.r0, ccs t)) =
    some (0x7FFF, false, true, false, false) := by decide
-- V149
theorem test_sir_below_zero :
    run 6 0x1C1F State.reset
      (fun t => (t.r0, ccs t)) =
    some (0xFFE1, false, false, false, false) := by decide
-- V160
theorem test_jz_taken :
    run 6 0x210C State.reset
      (fun t => t.pc) =
    some 12 := by decide
-- V162
theorem test_jz_untaken_still_faults :
    run 6 0x2140 { State.reset with r1 := 5, x1 := 2048 }
      (fun t => (t.mfr, readWord t.mem 5)) =
    some (8, 6) := by decide
-- V163
theorem test_jne_taken :
    run 6 0x2414 { State.reset with r0 := 0xFFFF }
      (fun t => t.pc) =
    some 20 := by decide
-- V164
theorem test_jne_untaken :
    run 6 0x2414 State.reset
      (fun t => t.pc) =
    some 7 := by decide
-- V165
theorem test_jcc_on_equal :
    run 6 0x2B14 { State.reset with cc := ⟨false, false, false, true⟩ }
      (fun t => (t.pc, ccs t)) =
    some (20, false, false, false, true) := by decide
-- V166
theorem test_jcc_untaken :
    run 6 0x2814 State.reset
      (fun t => t.pc) =
    some 7 := by decide
-- V168
theorem test_jma_indirect :
    run 6 0x2C25 (withWords [(5, 40)] State.reset)
      (fun t => t.pc) =
    some 40 := by decide
-- V169
theorem test_jma_adds_the_bias :
    run 105 0x2C0A (user 100)
      (fun t => t.pc) =
    some 110 := by decide
-- V171
theorem test_jsr_saves_next_pc :
    run 6 0x3010 State.reset
      (fun t => (t.pc, t.r3)) =
    some (16, 7) := by decide
-- V172
theorem test_rfs_returns :
    run 6 0x3409 { State.reset with r3 := 7 }
      (fun t => (t.pc, t.r0, t.r3)) =
    some (7, 9, 7) := by decide
-- V175
theorem test_sob_branches :
    run 10 0x3808 { State.reset with r0 := 5 }
      (fun t => (t.pc, t.r0)) =
    some (8, 4) := by decide
-- V178
theorem test_sob_underflows :
    run 6 0x3908 { State.reset with r1 := 0x8000 }
      (fun t => (t.pc, t.r1, ccs t)) =
    some (8, 0x7FFF, false, true, false, false) := by decide
-- V179
theorem test_jge_at_zero :
    run 6 0x3C14 State.reset
      (fun t => t.pc) =
    some 20 := by decide
-- V180
theorem test_jge_below_zero :
    run 6 0x3C14 { State.reset with r0 := 0x8000 }
      (fun t => t.pc) =
    some 7 := by decide
-- V190
theorem test_mlt_high_half_first :
    run 6 0x4080 { State.reset with r0 := 300, r2 := 200 }
      (fun t => (t.r0, t.r1, ccs t)) =
    some (0, 0xEA60, false, false, false, false) := by decide
-- V191
theorem test_mlt_sign_extends :
    run 6 0x4200 { State.reset with r0 := 1, r2 := 0xFFFF }
      (fun t => (t.r2, t.r3)) =
    some (0xFFFF, 0xFFFF) := by decide
-- V194
theorem test_dvd_remainder_has_the_sign_of_the_dividend :
    run 6 0x4480 { State.reset with r0 := 0xFFF9, r2 := 2 }
      (fun t => (t.r0, t.r1)) =
    some (0xFFFD, 0xFFFF) := by decide
-- W5
theorem test_dvd_by_zero :
    run 6 0x4480 { State.reset with r0 := 17, r1 := 4 }
      (fun t => (t.r0, t.r1, t.cc.divzero, t.pc)) =
    some (17, 4, true, 7) := by decide
-- V199
theorem test_trr_sets_equal :
    run 6 0x4980 { State.reset with r1 := 5, r2 := 5 }
      (fun t => ccs t) =
    some (false, false, false, true) := by decide
-- V200
theorem test_trr_clears_equal :
    run 6 0x4980 { State.reset with r1 := 5, r2 := 6, cc := ⟨true, false, false, true⟩ }
      (fun t => ccs t) =
    some (true, false, false, false) := by decide
-- V202
theorem test_and :
    run 6 0x4C40 { State.reset with r0 := 0xFFFF, r1 := 0x8000 }
      (fun t => (t.r0, t.r1)) =
    some (0x8000, 0x8000) := by decide
-- V203
theorem test_orr :
    run 6 0x52C0 { State.reset with r2 := 0x0F00, r3 := 0x00F0 }
      (fun t => (t.r2, t.r3)) =
    some (0x0FF0, 0x00F0) := by decide
-- V204
theorem test_not :
    run 6 0x5500 { State.reset with r1 := 0x8000 }
      (fun t => t.r1) =
    some 0x7FFF := by decide
-- V286
theorem test_trap_saves_the_return_address :
    run 105 0x6000 (user 100)
      (fun t => (readWord t.mem 102, t.pc)) =
    some (106, 106) := by decide
-- R40, R219: PC keeps 4 bits of next_pc 16
theorem test_pc_width :
    run 15 0x4C40 { State.reset with cfg := { Params.default with pcWidth := .unsigned 4 } }
      (fun t => t.pc) =
    some 0 := by decide
-- R40, R210, R216: MAR keeps 4 bits of the effective address 20, IAR all of them
theorem test_mar_width :
    run 6 0x8894 { State.reset with x2 := 6, cfg := { Params.default with marWidth := .unsigned 4 } }
      (fun t => (readWord t.mem 4, readWord t.mem 20, t.mar, t.iar)) =
    some (6, 0, 4, 20) := by decide
-- V284
theorem test_trap_code_above_15 :
    run 9 0x6010 (withWords [(1, 40)] State.reset)
      (fun t => (t.mfr, readWord t.mem 5, readWord t.mem 2, t.pc)) =
    some (2, 9, 0, 40) := by decide
-- V210
theorem test_src_left_arithmetic :
    run 6 0x64C2 { State.reset with r0 := 0xFFFD }
      (fun t => (t.r0, ccs t)) =
    some (0xFFF4, true, false, false, false) := by decide
-- V212
theorem test_src_right_arithmetic :
    run 6 0x648F { State.reset with r0 := 0xFFFF }
      (fun t => (t.r0, ccs t)) =
    some (0xFFFF, false, true, false, false) := by decide
-- V216
theorem test_rrc_right :
    run 6 0x6884 { State.reset with r0 := 0xFFF4 }
      (fun t => (t.r0, ccs t)) =
    some (0x4FFF, false, false, false, false) := by decide
-- V218
theorem test_rrc_logical_is_a_nop :
    run 6 0x6841 { State.reset with r0 := 0x8001 }
      (fun t => t.r0) =
    some 0x8001 := by decide
-- V235
theorem test_fadd_normalises :
    run 6 0x6C16 (withWords [(22, 1), (23, 2)] { State.reset with fr0 := 3 })
      (fun t => t.fr0) =
    some 0x7BE0 := by decide
-- V236
theorem test_fadd_saturates :
    run 6 0x6C16 (withWords [(22, 0x3F), (23, 0xFF)] { State.reset with fr0 := 0x3FFF })
      (fun t => (t.fr0, ccs t)) =
    some (0x3FFF, true, false, false, false) := by decide
-- V238
theorem test_fsub_below_zero :
    run 6 0x7116 (withWords [(22, 1), (23, 2)] { State.reset with fr1 := 3 })
      (fun t => (t.fr1, t.fr0)) =
    some (0xF980, 0) := by decide
-- V239
theorem test_vadd_adds_three_elements :
    run 6 0x750A (withWords [(10, 100), (11, 200), (100, 1), (101, 2), (102, 3),
      (200, 10), (201, 20), (202, 30)] { State.reset with fr1 := 3 })
      (fun t => (readWord t.mem 100, readWord t.mem 102, readWord t.mem 103, t.cache)) =
    some (11, 33, 0, [(100, 11), (101, 22), (102, 33)]) := by decide
-- V244
theorem test_vadd_keeps_elements_before_a_fault :
    run 6 0x740A (withWords [(10, 2046), (11, 200), (200, 5), (201, 6)] { State.reset with fr0 := 3 })
      (fun t => (readWord t.mem 2047, t.mfr, readWord t.mem 5)) =
    some (6, 8, 6) := by decide
-- V245
theorem test_vsub_subtracts_the_second :
    run 6 0x780A (withWords [(10, 100), (11, 200), (100, 11), (101, 22),
      (200, 10), (201, 20)] { State.reset with fr0 := 2 })
      (fun t => (readWord t.mem 100, readWord t.mem 101, readWord t.mem 200)) =
    some (1, 2, 10) := by decide
-- V246
theorem test_cnvrt_to_integer :
    run 6 0x7D18 (withWords [(24, 0x7B), (25, 0xE0)] State.reset)
      (fun t => (t.r1, t.fr0)) =
    some (7, 0) := by decide
-- V248
theorem test_cnvrt_to_float :
    run 6 0x7E14 (withWords [(20, 1001)] { State.reset with r2 := 1 })
      (fun t => (t.fr0, t.r2)) =
    some (0x02FA, 1) := by decide
-- V128
theorem test_ldx_is_not_indexed :
    run 6 0x8445 (withWords [(5, 77)] { State.reset with x1 := 100 })
      (fun t => t.x1) =
    some 77 := by decide
-- V129
theorem test_ldx_indirect :
    run 6 0x8467 (withWords [(7, 30), (30, 9)] State.reset)
      (fun t => t.x1) =
    some 9 := by decide
-- V132
theorem test_stx_bypasses_the_cache :
    run 6 0x8894 { State.reset with x2 := 6, cache := [(20, 4)] }
      (fun t => (readWord t.mem 20, t.cache)) =
    some (6, [(20, 4)]) := by decide
-- V231
theorem test_ldfr_takes_low_bytes :
    run 6 0xA114 (withWords [(20, 0x1280), (21, 0x3405)] State.reset)
      (fun t => (t.fr1, t.fr0)) =
    some (0x8005, 0) := by decide
-- V232
theorem test_ldfr_second_word_faults :
    run 2016 0xA01F { user 2016 with fr0 := 5 }
      (fun t => (t.mfr, t.fr0)) =
    some (8, 5) := by decide
-- V233
theorem test_stfr_writes_two_words :
    run 6 0xA418 { State.reset with fr0 := 0x7BE0 }
      (fun t => (readWord t.mem 24, readWord t.mem 25, t.cache)) =
    some (0x7B, 0xE0, []) := by decide
-- V234
theorem test_stfr_keeps_the_first_word :
    run 2016 0xA41F { user 2016 with fr0 := 0x7BE0 }
      (fun t => (readWord t.mem 2047, t.mfr)) =
    some (0x7B, 8) := by decide
-- V260
theorem test_in_takes_a_character :
    run 6 0xC500 { State.reset with consoleInput := [.char 65, .empty] }
      (fun t => (t.r1, t.consoleInput, t.pc)) =
    some (65, [.empty], 7) := by decide
-- V264
theorem test_in_holds :
    run 6 0xC400 State.reset
      (fun t => (t.inputWait, t.pc, t.ir)) =
    some (some 0, 6, 0xC400) := by decide
-- V267
theorem test_out_appends :
    run 6 0xC901 { State.reset with r1 := 65, output := [1] }
      (fun t => (t.output, t.pc)) =
    some ([1, 65], 7) := by decide
-- V268
theorem test_out_to_the_keyboard_is_refused :
    run 6 0xC800 State.reset
      (fun t => (t.refused, t.pc)) =
    some (true, 6) := by decide
-- V269
theorem test_chk_keyboard :
    run 6 0xCC00 State.reset
      (fun t => t.r0) =
    some 1 := by decide
-- V270
theorem test_chk_card_reader :
    run 6 0xCE02 { State.reset with r2 := 9 }
      (fun t => t.r2) =
    some 0 := by decide
-- V280
theorem test_hlt_keeps_the_pc :
    run 6 0x03FF State.reset
      (fun t => (t.halted, t.pc)) =
    some (true, 6) := by decide
-- V281
theorem test_hlt_operand_read_faults :
    run 2030 0x001F (user 2030)
      (fun t => (t.halted, t.mfr)) =
    some (false, 8) := by decide
-- V291
theorem test_unassigned_opcode_in_user_mode :
    run 107 0xFC00 (withWords [(1, 40)] (user 100))
      (fun t => (t.mfr, readWord t.mem 5, t.pc)) =
    some (4, 107, 140) := by decide
-- V292
theorem test_address_fault_vector_is_unbiased :
    run 107 0x043F (withWords [(1, 40), (131, 2000)] (user 100))
      (fun t => (t.mfr, readWord t.mem 5, t.pc, t.memoryFault)) =
    some (8, 107, 40, .none) := by decide
-- R200
theorem test_fetch_prefers_the_cache :
    run 6 0x0000 { State.reset with cache := [(6, 0x1803)] }
      (fun t => (t.r0, t.halted)) =
    some (3, false) := by decide
-- R123
theorem test_fifo_flushes_the_oldest :
    run 6 0x0816
      { State.reset with
        r0 := 9, cache := [(30, 1), (31, 2), (32, 3), (33, 4)], writeBuffer := [31, 30, 33, 32],
        cfg := { Params.default with wbPolicy := .fifo } }
      (fun t => (readWord t.mem 31, readWord t.mem 30, readWord t.mem 22, t.writeBuffer)) =
    some (2, 0, 0, [30, 33, 32, 22]) := by decide

/-! ## Witnesses: the hypotheses of each obligation, met together

`edge` puts the last address of memory, 2047, within reach of an indexed operand, and 2048, the first
one outside; `low` is in user mode with OFF 100, so that logical addresses from −100 on are in memory. -/

def edge : State := { State.reset with x1 := 2016, x2 := 2017, x3 := 0xFFFF }
def low : State := { user 100 with x1 := 0xFF9C, x2 := 0xFF9B, r3 := 2 }
def fifo : State :=
  { State.reset with
    cache := [(30, 1), (31, 2), (32, 3), (33, 4)], writeBuffer := [31, 30, 33, 32],
    cfg := { Params.default with wbPolicy := .fifo } }
def fifoSpace : State := { fifo with writeBuffer := [31, 30, 33] }

/-- The last word of memory, the first one through a negative index, and an indirect operand. -/
theorem ready_last : OperandReady edge true true { ix := 1, indirect := false, addr := 31 } 2047 0 :=
  ⟨by decide, by decide, by decide⟩
theorem ready_first : OperandReady low true true { ix := 1, indirect := false, addr := 0 } 0xFF9C 0 :=
  ⟨by decide, by decide, by decide⟩
theorem ready_indirect : OperandReady (withWords [(7, 2047), (2047, 8)] State.reset) true true
    { ix := 0, indirect := true, addr := 7 } 2047 8 := ⟨by decide, by decide, by decide⟩
theorem ready_unindexed : OperandReady edge false true { ix := 1, indirect := false, addr := 31 } 31 0 :=
  ⟨by decide, by decide, by decide⟩
theorem ready_fields_zero : OperandReady State.reset false false (plainFields 0) 0 0 :=
  ⟨by decide, by decide, by decide⟩
theorem ready_fields_last : OperandReady State.reset false false (plainFields 31) 31 0 :=
  ⟨by decide, by decide, by decide⟩
/-- A word whose unused ADDR bits hold 31, as IR of an instruction without a memory operand. -/
theorem ready_ir : OperandReady { State.reset with ir := 0x43BF } false false
    (plainFields ({ State.reset with ir := 0x43BF } : State).irAddr) 31 0 :=
  ⟨by decide, by decide, by decide⟩

/-- A MAR of 5 bits, a PC of 11. -/
def narrowMar : State := { State.reset with cfg := { Params.default with marWidth := .unsigned 5 } }
def narrowPc : State := { State.reset with cfg := { Params.default with pcWidth := .unsigned 11 } }

theorem witness_DecodeOfEncodeIsTheInstruction : OpcodeMap.default.Distinct ∧ exchanged.Distinct := by decide
theorem witness_EncodeOfDecodeDropsOnlyBits :
    (decodeWord doubled 0x0565#16 = .ok .hlt ∧ encode doubled .hlt = 0x0400#16) ∧
    decodeWord OpcodeMap.default 0x43BF#16 = .ok (.mlt 3 2) ∧
    encode OpcodeMap.default (.mlt 3 2) = 0x4380#16 :=
  ⟨⟨by rfl, by decide⟩, by rfl, by decide⟩
theorem starts_reset : State.reset.Starts := ⟨by decide, by decide, by decide⟩
theorem witness_UnassignedOpcodesRaiseIllegalOperation :
    (withWords [(0, 0x5800)] State.reset).Starts ∧
    (withWords [(0, 0x5800)] State.reset).FetchReads 0x5800 ∧
    decodeWord (withWords [(0, 0x5800)] State.reset).cfg.opcodeMap 0x5800#16 = .error (.unassignedOpcode 22) :=
  ⟨⟨by decide, by decide, by decide⟩, .inr ⟨by decide, 0, by decide, by decide⟩, by rfl⟩
theorem witness_IllegalSelectorsRaiseIllegalOperation :
    ∀ i ∈ [Instr.mlt 1 0, .dvd 0 3, .fadd 2 0 false 0, .fsub 3 0 false 0, .vadd 2 0 false 0,
      .vsub 3 0 false 0, .ldfr 2 0 false 0, .stfr 3 0 false 0, .ldx 0 false 0, .stx 0 false 0],
      i.wellFormed = false := by decide
theorem witness_StepRunsTheDecodedInstruction :
    State.reset.Starts ∧ State.reset.FetchReads 0 ∧ decodeWord State.reset.cfg.opcodeMap 0#16 = .ok .hlt :=
  ⟨starts_reset, .inr ⟨by decide, 0, by decide, by decide⟩, by rfl⟩
theorem witness_FetchOutsideMemoryFaults :
    (({ State.reset with pc := 0xFFFF } : State).Starts ∧
      ({ State.reset with pc := 0xFFFF } : State).cacheGet (sval 0xFFFF#16) = none ∧ sval 0xFFFF#16 < 0) ∧
    (({ State.reset with pc := 2048 } : State).Starts ∧
      ({ State.reset with pc := 2048 } : State).cacheGet (sval 2048#16) = none ∧ 2048 ≤ sval 2048#16) :=
  ⟨⟨⟨by decide, by decide, by decide⟩, by decide, by decide⟩,
    ⟨⟨by decide, by decide, by decide⟩, by decide, by decide⟩⟩
theorem witness_HaltedCoreHasNoStep :
    ({ State.reset with halted := true } : State).halted = true ∧
    ({ State.reset with halted := true } : State).refused = false := by decide

theorem witness_LdrAndLdaLoadTheRegister :
    (OperandReady edge true true { ix := 1, indirect := false, addr := 31 } 2047 0 ∧
      edge.cfg.marWidth = .signed 16) ∧
    (OperandReady narrowMar true true (plainFields 31) 31 0 ∧ narrowMar.cfg.marWidth = .unsigned 5) :=
  ⟨⟨ready_last, by decide⟩, ⟨by decide, by decide, by decide⟩, by decide⟩
theorem witness_StrStoresThroughTheCache :
    (OperandReady edge true true { ix := 1, indirect := false, addr := 31 } 2047 0 ∧
      boundsCheck (edge.phys (edge.marOf 2047)) = .ok 2047 ∧ edge.cfg.wbPolicy = .flushEach) ∧
    (OperandReady fifoSpace true true (plainFields 30) 30 0 ∧
      boundsCheck (fifoSpace.phys (fifoSpace.marOf 30)) = .ok 30 ∧
      fifoSpace.cfg.wbPolicy = .fifo ∧ fifoSpace.writeBuffer.length ≠ 4) ∧
    (OperandReady fifo true true (plainFields 31) 31 0 ∧ boundsCheck (fifo.phys (fifo.marOf 31)) = .ok 31 ∧
      fifo.cfg.wbPolicy = .fifo ∧ fifo.writeBuffer = [31, 30, 33, 32] ∧ fifo.writeBuffer.length = 4 ∧
      cacheLookup (cacheSet fifo.cache 31 0) 31 = some 0) :=
  ⟨⟨ready_last, by decide, by decide⟩, ⟨⟨by decide, by decide, by decide⟩, by decide, by decide, by decide⟩,
    ⟨by decide, by decide, by decide⟩, by decide, by decide, by decide, by decide, by decide⟩
theorem witness_LdxLoadsAnIndexRegister :
    OperandReady edge false true { ix := 1, indirect := false, addr := 31 } 31 0 ∧
      ixReg 1 = some .x1 ∧ ixReg 3 = some .x3 := ⟨ready_unindexed, by decide, by decide⟩
theorem witness_StxStoresPastTheCache :
    OperandReady edge false true { ix := 1, indirect := false, addr := 31 } 31 0 ∧
      ixReg 1 = some .x1 ∧ boundsCheck (edge.phys (edge.marOf 31)) = .ok 31 :=
  ⟨ready_unindexed, by decide, by decide⟩

theorem witness_IntegerArithmeticWritesSumOrDifference :
    OperandReady low true true { ix := 1, indirect := false, addr := 0 } 0xFF9C 0 ∧
    OperandReady State.reset false false (plainFields 31) 31 0 := ⟨ready_first, ready_fields_last⟩
theorem witness_ConditionalJumpsTakeTheTarget :
    OperandReady (withWords [(7, 2047), (2047, 8)] State.reset) true true
      { ix := 0, indirect := true, addr := 7 } 2047 8 ∧
    sval (low.gpr 0) = 0 ∧ sval (low.gpr 3) ≠ 0 ∧ 0 ≤ sval (low.gpr 3) :=
  ⟨ready_indirect, by decide, by decide, by decide⟩
theorem witness_JmaJsrRfsTransferControl :
    OperandReady low true true { ix := 1, indirect := false, addr := 0 } 0xFF9C 0 ∧
    OperandReady State.reset false false (plainFields 0) 0 0 ∧ State.reset.cfg.pcWidth = .signed 16 ∧
    narrowPc.cfg.pcWidth = .unsigned 11 :=
  ⟨ready_first, ready_fields_zero, by decide, by decide⟩
theorem witness_SobDecrementsAndBranches :
    OperandReady edge true true { ix := 1, indirect := false, addr := 31 } 2047 0 := ready_last

theorem witness_MltWritesTheProductPair :
    OperandReady { State.reset with ir := 0x43BF } false false
      (plainFields ({ State.reset with ir := 0x43BF } : State).irAddr) 31 0 ∧
    checkPair 0 2 = true ∧ checkPair 2 2 = true ∧ State.reset.cfg.mltHalf = .sixteen ∧
    OperandReady { State.reset with cfg := { Params.default with mltHalf := .eight } } false false
      (plainFields State.reset.irAddr) 0 0 :=
  ⟨ready_ir, by decide, by decide, by decide, ⟨by decide, by decide, by decide⟩⟩
theorem witness_DvdWritesQuotientAndRemainder :
    OperandReady State.reset false false (plainFields State.reset.irAddr) 0 0 ∧ checkPair 2 0 = true ∧
    sval (State.reset.gpr 0) = 0 ∧ sval (low.gpr 3) ≠ 0 ∧
    OperandReady { low with r2 := 0x8000 } false false (plainFields low.irAddr) 0 0 ∧
    sval (({ low with r2 := 0x8000 } : State).gpr 2) ≠ 0 :=
  ⟨⟨by decide, by decide, by decide⟩, by decide, by decide, by decide,
    ⟨by decide, by decide, by decide⟩, by decide⟩
theorem witness_TestAndLogicWriteTheirResult :
    OperandReady { State.reset with ir := 0x43BF } false false
      (plainFields ({ State.reset with ir := 0x43BF } : State).irAddr) 31 0 := ready_ir
theorem witness_SrcShiftsTheRegister :
    OperandReady State.reset false false (plainFields State.reset.irAddr) 0 0 ∧
    (∀ al lr : Bool, ∃ left arith : Bool, left = (if State.reset.cfg.shiftFlagSwap then al else lr) ∧
      (arith = true ↔ (if State.reset.cfg.shiftFlagSwap then lr else al) = State.reset.cfg.alArithValue)) :=
  ⟨⟨by decide, by decide, by decide⟩, by decide⟩
theorem witness_RrcRotatesTheRegister :
    OperandReady State.reset false false (plainFields State.reset.irAddr) 0 0 ∧
    (∀ al lr : Bool, ∃ left rotates : Bool, left = (if State.reset.cfg.shiftFlagSwap then al else lr) ∧
      (rotates = true ↔ (if State.reset.cfg.shiftFlagSwap then lr else al) = State.reset.cfg.alArithValue)) :=
  ⟨⟨by decide, by decide, by decide⟩, by decide⟩

theorem ready_pair : OperandReady edge true true { ix := 1, indirect := false, addr := 30 } 2046 0 :=
  ⟨by decide, by decide, by decide⟩
theorem witness_LdfrLoadsThePair :
    OperandReady edge true true { ix := 1, indirect := false, addr := 30 } 2046 0 ∧ fReg 1 = some .fr1 ∧
      edge.peek 2046 = .ok 0 ∧ edge.peek (nextWord 2046) = .ok 0 :=
  ⟨ready_pair, by decide, by decide, by decide⟩
theorem witness_StfrStoresThePair :
    (OperandReady edge true true { ix := 1, indirect := false, addr := 30 } 2046 0 ∧ fReg 0 = some .fr0 ∧
      boundsCheck (edge.phys (edge.marOf 2046)) = .ok 2046 ∧
      boundsCheck (edge.phys (nextWord (edge.marOf 2046))) = .ok 2047) ∧
    (OperandReady edge true true { ix := 1, indirect := false, addr := 31 } 2047 0 ∧
      boundsCheck (edge.phys (edge.marOf 2047)) = .ok 2047 ∧
      boundsCheck (edge.phys (nextWord (edge.marOf 2047))) = .error .outOfBounds) :=
  ⟨⟨ready_pair, by decide, by decide, by decide⟩, ready_last, by decide, by decide⟩
theorem witness_FloatArithmeticEncodesTheExactResult :
    OperandReady edge true true { ix := 1, indirect := false, addr := 30 } 2046 0 ∧ fReg 0 = some .fr0 ∧
      edge.peek (nextWord 2046) = .ok 0 ∧ edge.cfg.fpEncoder = .standard ∧
      ({ edge.cfg with fpEncoder := .other 0 } : Params).fpEncoder ≠ .standard ∧
      (⟨2, 0⟩ : ExactReal).value = (⟨1, 1⟩ : ExactReal).value :=
  ⟨ready_pair, by decide, by decide, by decide, by decide, by norm_num [ExactReal.value]⟩
/-- Mantissa 0 with the sign set, and both ends of the exponent's range. -/
theorem witness_FloatRegisterValue :
    uval 0xBF00#16 % 256 = 0 ∧ ((-64 : Int) ≤ -64 ∧ (-64 : Int) ≤ 63 ∧ 255 < 256) ∧
      ((-64 : Int) ≤ 63 ∧ (63 : Int) ≤ 63 ∧ 0 < 256) := by decide

/-- 2^e for the ends of each clause: 128·2^63 and 128·2^−64 in range, 128·2^64 above, 128·2^−65 below. -/
theorem witness_FpEncodeNormalisesAndTruncates :
    (⟨0, 5⟩ : ExactReal).value = 0 ∧
    (∀ e ∈ [(64 : Int), 63, -64, -65], 128 * (2 : ℚ) ^ e ≤ |(⟨-128, e⟩ : ExactReal).value| ∧
      |(⟨-128, e⟩ : ExactReal).value| < 256 * (2 : ℚ) ^ e) := by
  refine ⟨by simp [ExactReal.value], fun e _ => ?_⟩
  have h : (0 : ℚ) < 2 ^ e := by positivity
  have hv : |(⟨-128, e⟩ : ExactReal).value| = 128 * (2 : ℚ) ^ e := by
    simp [ExactReal.value, abs_mul, abs_of_pos h]
  constructor <;> linarith
theorem witness_FpEncodeIsExactOnShortMantissas :
    (|(⟨255, 63⟩ : ExactReal).value| = ((255 : Nat) : ℚ) * (2 : ℚ) ^ (63 : Int) ∧
      128 * (2 : ℚ) ^ (63 : Int) ≤ |(⟨255, 63⟩ : ExactReal).value| ∧
      |(⟨255, 63⟩ : ExactReal).value| < 256 * (2 : ℚ) ^ (63 : Int)) ∧
    |(-255 : Int)| ≤ 255 ∧
    ((128 * 2 ^ 1 ≤ |(256 : Int)| ∧ |(256 : Int)| < 256 * 2 ^ 1 ∧ |(256 : Int)| ≤ 32767) ∧
      (128 * 2 ^ 7 ≤ |(-32767 : Int)| ∧ |(-32767 : Int)| < 256 * 2 ^ 7 ∧ |(-32767 : Int)| ≤ 32767)) := by
  refine ⟨?_, by decide, by decide⟩
  norm_num [ExactReal.value, abs_of_pos]

/-- The state and the reads of a vector of two elements that ends at 2047. -/
def vectors : State := withWords [(10, 2046), (11, 20), (2046, 1), (2047, 2), (20, 3), (21, 4)]
  { State.reset with fr0 := 2 }
theorem witness_VectorArithmeticReplacesTheFirstVector :
    OperandReady vectors true true (plainFields 10) 10 2046 ∧ fReg 0 = some .fr0 ∧
    vectors.peek (nextWord 10) = .ok 20 ∧ vectorLength vectors .fr0 = 2 ∧
    (∀ k < 2, vectors.peek (vectorAddress 2046 k) = .ok (if k = 0 then 1 else 2)) ∧
    (∀ k < 2, vectors.peek (vectorAddress 20 k) = .ok (if k = 0 then 3 else 4)) ∧
    vectors.cfg.wbPolicy = .flushEach ∧
    (∀ k < 2, ∀ l < 2, vectors.phys (vectorAddress 2046 k) ≠ vectors.phys (vectorAddress 20 l)) ∧
    (∀ k < 2, vectors.phys (vectorAddress 2046 k) ≠ ((2045 : Nat) : Int)) ∧
    vectorLength { vectors with fr0 := 0xFF01 } .fr0 = 0 :=
  ⟨⟨by decide, by decide, by decide⟩, by decide, by decide, by decide, by decide, by decide, by decide,
    by decide, by decide, by decide⟩
/-- The same with length 3: the third element of the first vector is at 2048; and with the bases exchanged,
where it is the third of the second. -/
def long : State := { vectors with fr0 := 3 }
def exchangedBases : State := withWords [(10, 20), (11, 2046)] long
theorem witness_VectorFaultKeepsEarlierElements :
    (OperandReady long true true (plainFields 10) 10 2046 ∧ fReg 0 = some .fr0 ∧
      long.peek (nextWord 10) = .ok 20 ∧ 2 < vectorLength long .fr0 ∧
      (∀ k < 2, long.peek (vectorAddress 2046 k) = .ok (if k = 0 then 1 else 2)) ∧
      (∀ k < 2, long.peek (vectorAddress 20 k) = .ok (if k = 0 then 3 else 4)) ∧
      long.peek (vectorAddress 2046 2) = .error .outOfBounds ∧ long.cfg.wbPolicy = .flushEach ∧
      (∀ l < 2, ∀ n < 2, long.phys (vectorAddress 2046 l) ≠ long.phys (vectorAddress 20 n))) ∧
    (OperandReady exchangedBases true true (plainFields 10) 10 20 ∧
      exchangedBases.peek (nextWord 10) = .ok 2046 ∧ 2 < vectorLength exchangedBases .fr0 ∧
      (∀ k < 2, exchangedBases.peek (vectorAddress 20 k) = .ok (if k = 0 then 3 else 4)) ∧
      (∀ k < 2, exchangedBases.peek (vectorAddress 2046 k) = .ok (if k = 0 then 1 else 2)) ∧
      (exchangedBases.peek (vectorAddress 20 2) = .ok 0 ∧
        exchangedBases.peek (vectorAddress 2046 2) = .error .outOfBounds)) :=
  ⟨⟨⟨by decide, by decide, by decide⟩, by decide, by decide, by decide, by decide, by decide, by decide,
    by decide, by decide⟩, ⟨by decide, by decide, by decide⟩, by decide, by decide, by decide, by decide,
    by decide⟩
theorem witness_CnvrtConvertsByTheFValue :
    OperandReady edge true true { ix := 1, indirect := false, addr := 30 } 2046 0 ∧
    edge.peek (nextWord 2046) = .ok 0 ∧ sval (edge.gpr 0) = 0 ∧
    sval (({ edge with r1 := 1 } : State).gpr 1) = 1 ∧
    (sval (({ edge with r1 := 2 } : State).gpr 1) ≠ 0 ∧ sval (({ edge with r1 := 2 } : State).gpr 1) ≠ 1) ∧
    (sval (({ edge with r1 := 0xFFFF } : State).gpr 1) ≠ 0 ∧
      sval (({ edge with r1 := 0xFFFF } : State).gpr 1) ≠ 1) ∧ edge.cfg.fpEncoder = .standard :=
  ⟨ready_pair, by decide, by decide, by decide, by decide, by decide, by decide⟩

theorem witness_InTakesTheHostsAnswer :
    OperandReady { State.reset with consoleInput := [.integer (-32768)] } false false (plainFields 0) 0 0 ∧
    (∃ n : Int, Answer.integer (-32768) = .integer n ∧ -32768 ≤ n ∧ n ≤ 32767 ∧ (0x8000 : Word) = wrap16 n) ∧
    (∃ n : Int, Answer.integer 32767 = .integer n ∧ -32768 ≤ n ∧ n ≤ 32767 ∧ (0x7FFF : Word) = wrap16 n) ∧
    (∃ c : Nat, Answer.char 127 = .char c ∧ c ≤ 127 ∧ uval (127 : Word) = c) ∧
    (∃ c : Nat, Answer.char 0 = .char c ∧ c ≤ 127 ∧ uval (0 : Word) = c) ∧
    (Answer.empty = .empty ∧ (10 : Word) = 10) :=
  ⟨⟨by decide, by decide, by decide⟩, ⟨-32768, by decide⟩, ⟨32767, by decide⟩, ⟨127, by decide⟩,
    ⟨0, by decide⟩, by decide⟩
theorem witness_InWaitsForTheHost :
    (withWords [(0, 0xC700)] State.reset).Starts ∧
    (withWords [(0, 0xC700)] State.reset).FetchReads 0xC700 ∧
    decodeWord (withWords [(0, 0xC700)] State.reset).cfg.opcodeMap 0xC700#16 = .ok (.inp 3 0) ∧
    (withWords [(0, 0xC700)] State.reset).peek ((withWords [(0, 0xC700)] State.reset).marOf 0) = .ok 0xC700 ∧
    (withWords [(0, 0xC700)] State.reset).consoleInput = [] ∧ answerWord (.char 127) = some 127 :=
  ⟨⟨by decide, by decide, by decide⟩, .inr ⟨by decide, 0, by decide, by decide⟩, by rfl, by decide,
    by decide, by decide⟩
theorem witness_OutAndChkActOnTheirDevice :
    OperandReady State.reset false false (plainFields 0) 0 0 ∧
    OperandReady State.reset false false (plainFields 1) 1 0 ∧
    OperandReady State.reset false false (plainFields 2) 2 0 :=
  ⟨ready_fields_zero, ⟨by decide, by decide, by decide⟩, ⟨by decide, by decide, by decide⟩⟩
theorem witness_UndefinedDevicesAreRefused :
    (∀ d ∈ [(1 : BitVec 5), 3, 31], d ≠ 0 ∧ d ≠ 2) ∧ (∀ d ∈ [(0 : BitVec 5), 3, 31], d ≠ 1 ∧ d ≠ 2) ∧
    (∀ d ∈ [(3 : BitVec 5), 31], 3 ≤ d.toNat) ∧
    (∀ d ∈ [(1 : BitVec 5), 3, 31], State.reset.peek (State.reset.marOf (d.setWidth 16)) = .ok 0) ∧
    (withWords [(0, 0xC401)] State.reset).Starts ∧
    (withWords [(0, 0xC401)] State.reset).FetchReads 0xC401 ∧
    decodeWord (withWords [(0, 0xC401)] State.reset).cfg.opcodeMap 0xC401#16 = .ok (.inp 0 1) ∧
    ({ State.reset with refused := true } : State).refused = true :=
  ⟨by decide, by decide, by decide, by decide, ⟨by decide, by decide, by decide⟩,
    .inr ⟨by decide, 0, by decide, by decide⟩, by rfl, by decide⟩
theorem witness_HltHaltsInPlace :
    OperandReady State.reset false false (plainFields State.reset.irAddr) 0 0 :=
  ⟨by decide, by decide, by decide⟩
theorem witness_TrapSavesTheReturnAddress :
    (OperandReady low false false (plainFields 15) 15 0 ∧ (15#5).toNat ≤ 15 ∧
      boundsCheck (low.phys 2) = .ok 102) ∧
    (∀ code ∈ [(0 : BitVec 5), 1],
      OperandReady (user 2046) false false (plainFields code) (code.setWidth 16) 0 ∧ code.toNat ≤ 15 ∧
      boundsCheck ((user 2046).phys 2) = .error .outOfBounds) ∧
    (OperandReady low false false (plainFields 16) 16 0 ∧ 15 < (16#5).toNat) :=
  ⟨⟨⟨by decide, by decide, by decide⟩, by decide, by decide⟩,
    fun code h => ⟨⟨by decide, by revert code; decide, by revert code; decide⟩, by revert code; decide,
      by decide⟩, ⟨by decide, by decide, by decide⟩, by decide⟩

theorem witness_FaultEntrySavesAndVectors :
    low.cfg.faultId = Params.default.faultId ∧ low.cfg.faultVectorBias = .latchClear := by decide
/-- A pointer at 2048, one at −1, an operand at 2048, and one at physical −1 in user mode. -/
theorem witness_UnreadableOperandsFaultBeforeExecute :
    OperandFaults edge true true { ix := 2, indirect := true, addr := 31 } .outOfBounds 2048 0 ∧
    OperandFaults edge true true { ix := 3, indirect := true, addr := 0 } .reserved 0xFFFF 0 ∧
    OperandFaults edge true true { ix := 2, indirect := false, addr := 31 } .outOfBounds 2048 2048 ∧
    OperandFaults low true true { ix := 2, indirect := false, addr := 0 } .reserved 0xFF9B 0xFF9B ∧
    checkFloat 1 = true ∧ checkIndex 1 = true ∧
    OperandFaults (withWords [(7, 2048)] State.reset) false true { ix := 1, indirect := true, addr := 7 }
      .outOfBounds 2048 2048 :=
  ⟨.inl ⟨by decide, by decide, by decide⟩, .inl ⟨by decide, by decide, by decide⟩,
    .inr ⟨by decide, by decide, by decide⟩, .inr ⟨by decide, by decide, by decide⟩, by decide, by decide,
    .inr ⟨by decide, by decide, by decide⟩⟩
/-- With OFF 2017 logical 31 is the first address outside memory. -/
theorem witness_KeptReadsFaultBeforeExecute :
    OperandFaults (user 2017) false false (plainFields 31) .outOfBounds 31 31 ∧
    OperandFaults { user 2017 with ir := 0x43BF } false false
      (plainFields ({ user 2017 with ir := 0x43BF } : State).irAddr) .outOfBounds 31 31 ∧
    checkPair 2 0 = true :=
  ⟨.inr ⟨by decide, by decide, by decide⟩, .inr ⟨by decide, by decide, by decide⟩, by decide⟩
theorem witness_SecondWordReadFaultsWriteNothing :
    OperandReady edge true true { ix := 1, indirect := false, addr := 31 } 2047 0 ∧
    edge.peek (nextWord 2047) = .error .outOfBounds ∧ checkFloat 1 = true ∧ edge.peek 2047 = .ok 0 ∧
    sval (edge.gpr 0) = 0 :=
  ⟨ready_last, by decide, by decide, by decide, by decide⟩
/-- One instruction that completes, one that faults with the code MFR already holds. -/
theorem witness_FaultsArePrecise :
    ∃ t u : State, exec (.air 0 3) { State.reset with mfr := 2 } = .next t ∧
      exec (.mlt 1 0) { State.reset with mfr := 4, pc := 9 } = .next u ∧
      t.mfr = 2 ∧ u.mfr = 4 ∧ readWord u.mem 5 = 9 := ⟨_, _, rfl, rfl, by decide, by decide, by decide⟩

theorem witness_EveryPrimitiveChecksItsBounds :
    boundsCheck (-1) = .error .reserved ∧ boundsCheck 0 = .ok 0 ∧ boundsCheck 2047 = .ok 2047 ∧
    boundsCheck 2048 = .error .outOfBounds ∧ boundsCheck (State.reset.phys 0xFFFF) = .error .reserved ∧
    boundsCheck (low.phys 0xFF9C) = .ok 0 := by decide
theorem witness_GetReadsTheLastInsert :
    ∃ t : State, insertWord 2047 9 State.reset = .ok () t ∧ Memory.wf State.reset.mem = true :=
  ⟨_, rfl, by decide⟩
theorem witness_FlushEachReachesMemoryAtOnce :
    low.cfg.wbPolicy = .flushEach ∧ boundsCheck (low.phys 0xFF9C) = .ok 0 := by decide
theorem witness_FifoFlushesTheOldest :
    (fifoSpace.cfg.wbPolicy = .fifo ∧ boundsCheck (fifoSpace.phys 2047) = .ok 2047 ∧
      fifoSpace.writeBuffer.length ≠ 4) ∧
    (fifo.cfg.wbPolicy = .fifo ∧ boundsCheck (fifo.phys 31) = .ok 31 ∧
      fifo.writeBuffer = 31 :: [30, 33, 32] ∧ [30, 33, 32].length = 3 ∧
      cacheLookup (cacheSet fifo.cache 31 9) 31 = some 9) := by decide
theorem witness_FetchSeesCachedStoresOnly :
    (State.reset.phys 0 = ((0 : Nat) : Int) ∧ sval State.reset.pc = ((0 : Nat) : Int)) ∧
    (∃ t : State, cachedInsert 0 7 State.reset = .ok () t) ∧
    (∃ t : State, insertWord 0 7 State.reset = .ok () t ∧ cacheLookup State.reset.cache 0 = none) ∧
    (∃ t : State, insertWord 0 7 { State.reset with cache := [(0, 5)] } = .ok () t ∧
      cacheLookup [(0, 5#16)] 0 = some 5) :=
  ⟨by decide, ⟨_, rfl⟩, ⟨_, rfl, by decide⟩, ⟨_, rfl, by decide⟩⟩

/-- A buffered address with an entry, one without, and an empty buffer. -/
theorem witness_ResetLeavesTheTableOfR702 :
    State.reset.writeBuffer = [] ∧ (31 ∈ fifo.writeBuffer ∧ (cacheLookup fifo.cache 31).isSome) ∧
    (22 ∉ fifo.writeBuffer) := by decide
theorem witness_LoadIsCheckedWhole :
    (∃ q ∈ [(⟨false, -101, 0⟩ : LoadPair)], q.phys low < 0) ∧ (∃ q ∈ [(⟨true, 2048, 0⟩ : LoadPair)],
      2048 ≤ q.phys low) ∧ (∃ q ∈ [(⟨true, 0, -32769⟩ : LoadPair)], q.value < -32768) ∧
    (∃ q ∈ [(⟨true, 0, 65536⟩ : LoadPair)], 65535 < q.value) ∧
    (∀ q ∈ [(⟨true, 0, -32768⟩ : LoadPair), ⟨false, 1947, 65535⟩], 0 ≤ q.phys low ∧ q.phys low < 2048 ∧
      -32768 ≤ q.value ∧ q.value ≤ 65535) := by decide

/-- PC of 11 bits. -/
theorem narrow_inv : narrowPc.Inv :=
  ⟨by decide, by decide, by decide, by decide, by decide, by decide, by decide, by decide, by decide,
    by decide, ⟨by decide, by decide⟩, ⟨by decide, by decide⟩⟩
theorem reset_inv : State.reset.Inv :=
  ⟨by decide, by decide, by decide, by decide, by decide, by decide, by decide, by decide, by decide,
    by decide, ⟨by decide, by decide⟩, ⟨by decide, by decide⟩⟩
theorem fifo_inv : fifo.Inv :=
  ⟨by decide, by decide, by decide, by decide, by decide, by decide, by decide, by decide, by decide,
    by decide, ⟨by decide, by decide⟩, ⟨by decide, by decide⟩⟩
/-- The launch state steps to a halted state. -/
theorem witness_EveryStepKeepsTheInvariant :
    State.reset.Inv ∧ fifo.Inv ∧ ∃ t : State, step State.reset = .next t :=
  ⟨reset_inv, fifo_inv, _, rfl⟩
theorem witness_NoStepClearsAStickyFlag :
    ∃ t : State, step { State.reset with cc := ⟨true, true, true, true⟩ } = .next t := ⟨_, rfl⟩
theorem witness_NoStepChangesTheMode : ∃ t : State, step { low with pc := 100 } = .next t := ⟨_, rfl⟩
theorem witness_WritersOfFlagsIndexAndFloatRegisters :
    ∃ t : State, exec (.air 0 3) State.reset = .next t ∧ Instr.air 0 3 ≠ .hlt := ⟨_, rfl, by decide⟩
theorem witness_OtherInstructionsKeepGeneralRegisters :
    ∃ t : State, exec (.jma 0 false 31) State.reset = .next t := ⟨_, rfl⟩
theorem witness_WritersOfMemoryAndCache :
    ∃ t : State, exec (.ldr 0 0 false 31) State.reset = .next t := ⟨_, rfl⟩

end Sys2Proof.Tests
end

section
/-! PROOFS. The five memory primitives (`20_memory.md` R102): what each does on either answer of the
bounds check. -/

namespace Sys2Proof.Machine

/-! ## Load and store of a physical address -/

theorem loadWord_ok {p : Int} {q : Nat} (s : State) (h : boundsCheck p = .ok q) :
    loadWord p s = .ok (readWord s.mem q) s := by
  unfold loadWord
  rw [h]

theorem loadWord_fault {p : Int} {k : FaultKind} (s : State) (h : boundsCheck p = .error k) :
    loadWord p s = .fault k (s.memfault k) := by
  unfold loadWord
  rw [h]

theorem storeWord_ok {p : Int} {q : Nat} (v : Word) (s : State) (h : boundsCheck p = .ok q) :
    storeWord p v s = .ok () { s with mem := writeWord s.mem q v } := by
  unfold storeWord
  rw [h]

theorem storeWord_fault {p : Int} {k : FaultKind} (v : Word) (s : State) (h : boundsCheck p = .error k) :
    storeWord p v s = .fault k (s.memfault k) := by
  unfold storeWord
  rw [h]

/-! ## Cached store of a logical address -/

theorem cachedInsert_ok {a : Word} {q : Nat} (v : Word) {s : State} (h : boundsCheck (s.phys a) = .ok q) :
    cachedInsert a v s = .ok () (wbPush { s with cache := cacheSet s.cache q v } q) := by
  rw [cachedInsert_eq, h]

theorem cachedInsert_fault {a : Word} {k : FaultKind} (v : Word) {s : State}
    (h : boundsCheck (s.phys a) = .error k) : cachedInsert a v s = .fault k (s.memfault k) := by
  rw [cachedInsert_eq, h]

/-- A push leaves the cache as it is. -/
@[simp] theorem wbPush_cache (s : State) (p : Nat) : (wbPush s p).cache = s.cache := by
  rw [wbPush_frame]

/-! ## All five together -/

/-- Settles O46. Get and Insert are Load and Store at `s.phys a`, so one lemma for each answer of the
bounds check serves both. -/
theorem everyPrimitiveChecksItsBounds : Obligations.EveryPrimitiveChecksItsBounds := by
  intro s p a v k
  refine ⟨boundsCheck_error, fun _ => boundsCheck_ok, ?physicalFaults, ?logicalFaults,
    ⟨memfault_mem s k, memfault_cache s k, memfault_writeBuffer s k⟩,
    memfault_memoryFault s .reserved, memfault_memoryFault s .outOfBounds,
    ?physicalProceeds, ?logicalProceeds⟩
  case physicalFaults =>
    intro h
    exact ⟨loadWord_fault s h, storeWord_fault v s h⟩
  case logicalFaults =>
    intro h
    exact ⟨loadWord_fault s h, storeWord_fault v s h, cachedInsert_fault v h⟩
  case physicalProceeds =>
    intro q h
    exact ⟨loadWord_ok s h, storeWord_ok v s h⟩
  case logicalProceeds =>
    intro q h
    exact ⟨loadWord_ok s h, storeWord_ok v s h, _, cachedInsert_ok v h, wbPush_cache _ q⟩

end Sys2Proof.Machine
end

section
/-! PROOFS. Integer addition (`41_alu.md` R252): the wrapped sum read back, and the sign tests of the two
flags as facts about the exact sum. -/

namespace Sys2Proof.Machine

/-! ## What a word reads back as after one wrap (`41_alu.md` R251) -/

/-- A whole turn of 2^16 added to a value wraps away. -/
theorem wrap16_add_turn (v : Int) : wrap16 (v + 65536) = wrap16 v := by
  simp [wrap16, BitVec.ofInt_add]

theorem sval_wrap16_above {v : Int} (h : 32767 < v) (h2 : v < 98304) :
    sval (wrap16 v) = v - 65536 := by
  rw [← Int.sub_add_cancel v 65536, wrap16_add_turn, sval_wrap16 _ (by omega) (by omega),
    Int.sub_add_cancel]

theorem sval_wrap16_below {v : Int} (h : -98304 ≤ v) (h2 : v < -32768) :
    sval (wrap16 v) = v + 65536 := by
  rw [← wrap16_add_turn, sval_wrap16 _ (by omega) (by omega)]

/-! ## The sign tests of addition -/

/-- Non-negative operands have a negative wrapped sum exactly when the exact sum is above the range. -/
theorem add_signs_overflow_iff (a b : Word) :
    (0 ≤ sval a ∧ 0 ≤ sval b ∧ sval (wrap16 (sval a + sval b)) < 0) ↔ 32767 < sval a + sval b := by
  have ha := sval_bounds a
  have hb := sval_bounds b
  constructor
  · rintro ⟨ha0, hb0, hneg⟩
    by_contra hle
    rw [sval_wrap16 _ (by omega) (by omega)] at hneg
    omega
  · intro hgt
    rw [sval_wrap16_above hgt (by omega)]
    omega

/-- Negative operands have a non-negative wrapped sum exactly when the exact sum is below the range. -/
theorem add_signs_underflow_iff (a b : Word) :
    (sval a < 0 ∧ sval b < 0 ∧ 0 ≤ sval (wrap16 (sval a + sval b))) ↔ sval a + sval b < -32768 := by
  have ha := sval_bounds a
  have hb := sval_bounds b
  constructor
  · rintro ⟨ha0, hb0, hpos⟩
    by_contra hle
    rw [sval_wrap16 _ (by omega) (by omega)] at hpos
    omega
  · intro hlt
    rw [sval_wrap16_below (by omega) hlt]
    omega

/-! ## What `add` answers -/

@[simp] theorem aluAdd_result (a b : Word) (c : CC) : (aluAdd a b c).1 = wrap16 (sval a + sval b) := rfl

@[simp] theorem aluAdd_divzero (a b : Word) (c : CC) : (aluAdd a b c).2.divzero = c.divzero := rfl

@[simp] theorem aluAdd_equal (a b : Word) (c : CC) : (aluAdd a b c).2.equal = c.equal := rfl

theorem aluAdd_overflow_iff (a b : Word) (c : CC) :
    (aluAdd a b c).2.overflow = true ↔ c.overflow = true ∨ 32767 < sval a + sval b := by
  rw [← add_signs_overflow_iff]
  simp only [aluAdd, Bool.or_eq_true, decide_eq_true_eq]

theorem aluAdd_underflow_iff (a b : Word) (c : CC) :
    (aluAdd a b c).2.underflow = true ↔ c.underflow = true ∨ sval a + sval b < -32768 := by
  rw [← add_signs_underflow_iff]
  simp only [aluAdd, Bool.or_eq_true, decide_eq_true_eq]

/-- Settles O14. The operands' signs and the sign of the wrapped sum tell on which side of the range the
exact sum falls, so each flag is its sign test joined to the bit it had. -/
theorem addSetsOverflowAndUnderflow : Obligations.AddSetsOverflowAndUnderflow := fun a b c =>
  ⟨aluAdd_result a b c, aluAdd_divzero a b c, aluAdd_equal a b c,
    aluAdd_overflow_iff a b c, aluAdd_underflow_iff a b c,
    add_signs_overflow_iff a b, add_signs_underflow_iff a b⟩

end Sys2Proof.Machine
end

section
/-! PROOFS. Reset (`70_reset_and_hazards.md` R700, R701): the flush apart from the constants it is followed
by. -/

namespace Sys2Proof.Machine

/-- Reset flushes, then resets a state with nothing left to flush. The flush changes memory only, so the
boot address, which reset takes from the mode and the parameters, is the one before the flush. -/
theorem applyReset_eq_applyReset_flushed (s : State) :
    applyReset s = applyReset { flushAll s s.writeBuffer with writeBuffer := [] } := by
  have hmode : (flushAll s s.writeBuffer).runningUserProgram = s.runningUserProgram := by
    rw [flushAll_frame]
  have hcfg : (flushAll s s.writeBuffer).cfg = s.cfg := by
    rw [flushAll_frame]
  simp only [applyReset, flushAll, State.pcOf, State.off, hmode, hcfg]

/-- With nothing to flush, reset only writes constants, and a boot address that it does not change: the
second reset writes the same again. -/
theorem applyReset_applyReset_of_writeBuffer_nil {s : State} (h : s.writeBuffer = []) :
    applyReset (applyReset s) = applyReset s := by
  have hflush : flushAll s s.writeBuffer = s := by
    rw [h, flushAll]
  simp only [applyReset, hflush, flushAll, State.pcOf, State.off]

/-- Settles O51. Flushing first leaves a state with an empty buffer, on which the second reset repeats
the first (R701). -/
theorem resetIsIdempotent : Obligations.ResetIsIdempotent := by
  intro s
  rw [applyReset_eq_applyReset_flushed s]
  exact applyReset_applyReset_of_writeBuffer_nil rfl

end Sys2Proof.Machine
end

section
/-! PROOFS. Decoder and encoder (`30_encoding.md`): the fields of a word put together again, the round trip
through the word of an instruction, and the opcodes that spell nothing. -/

open Sys2Proof Sys2Proof.Machine

namespace Sys2Proof

/-! ## A word as its fields -/

theorem iField_toNat (w : Word) : (iField w).toNat = w.toNat / 32 % 2 := Nat.toNat_testBit _ 5

theorem alField_toNat (w : Word) : (alField w).toNat = w.toNat / 128 % 2 := Nat.toNat_testBit _ 7

theorem lrField_toNat (w : Word) : (lrField w).toNat = w.toNat / 64 % 2 := Nat.toNat_testBit _ 6

/-- A word is its fields in format M (`30_encoding.md` R170). -/
theorem wordM_fields (w : Word) :
    wordM (opField w) (rField w) (ixField w) (iField w) (addrField w) = w := by
  apply BitVec.eq_of_toNat_eq
  rw [wordM_toNat, iField_toNat]
  simp only [opField, rField, ixField, addrField, BitVec.extractLsb'_toNat, Nat.shiftRight_eq_div_pow]
  have := w.isLt
  omega

/-- Format S has its two flags where format M has IX, and its count in the low bits of ADDR
(`30_encoding.md` R161, R167). -/
theorem wordS_fields_eq_wordM (w : Word) :
    wordS (opField w) (rField w) (alField w) (lrField w) (countField w) =
      wordM (opField w) (rField w) (ixField w) false (addrField w &&& 15) := by
  apply BitVec.eq_of_toNat_eq
  have hlow : (addrField w &&& 15).toNat = w.toNat % 16 := by
    rw [BitVec.toNat_and, show (15 : BitVec 5).toNat = 2 ^ 4 - 1 from rfl, Nat.and_two_pow_sub_one_eq_mod]
    simp only [addrField, BitVec.extractLsb'_toNat, Nat.shiftRight_zero]
    omega
  rw [wordS_toNat, wordM_toNat, hlow, alField_toNat, lrField_toNat]
  simp only [ixField, countField, BitVec.extractLsb'_toNat, Nat.shiftRight_eq_div_pow, Bool.toNat_false]
  omega

/-! ## A subset of the bits of each field -/

/-- Words of one opcode are masked field by field. -/
theorem wordM_and (op : BitVec 6) (r r' ix ix' : BitVec 2) (i i' : Bool) (a a' : BitVec 5) :
    wordM op r ix i a &&& wordM op r' ix' i' a' = wordM op (r &&& r') (ix &&& ix') (i && i') (a &&& a') := by
  have h : (op ++ r ++ ix ++ BitVec.ofBool i ++ a) &&& (op ++ r' ++ ix' ++ BitVec.ofBool i' ++ a') =
      op ++ (r &&& r') ++ (ix &&& ix') ++ BitVec.ofBool (i && i') ++ (a &&& a') := by
    simp only [BitVec.and_append, BitVec.and_self, BitVec.ofBool_and_ofBool]
  exact h

/-- A word with the opcode of `w`, each field of which has only bits of `w`'s, has only bits of `w`. -/
theorem wordM_and_of_subset {w : Word} {r ix : BitVec 2} {i : Bool} {a : BitVec 5}
    (hr : r &&& rField w = r) (hix : ix &&& ixField w = ix) (hi : (i && iField w) = i)
    (ha : a &&& addrField w = a) :
    wordM (opField w) r ix i a &&& w = wordM (opField w) r ix i a := by
  calc wordM (opField w) r ix i a &&& w
      = wordM (opField w) r ix i a &&&
          wordM (opField w) (rField w) (ixField w) (iField w) (addrField w) := by rw [wordM_fields]
    _ = wordM (opField w) r ix i a := by rw [wordM_and, hr, hix, hi, ha]

/-! ## The round trip -/

/-- The fields that a catalogue row reads from the word of one of its instructions are the operands the
word was made of (`30_encoding.md` R161–R170). -/
theorem instr_encode (m : OpcodeMap) (i : Instr) : i.mnemonic.instr (encode m i) = i := by
  cases i <;>
    simp only [Instr.mnemonic, Mnemonic.instr, encode, rField_wordM, ixField_wordM, iField_wordM,
      addrField_wordM, rField_wordS, alField_wordS, lrField_wordS, countField_wordS]

/-- The word of an instruction decodes to it wherever the lookup resolves its opcode to its own mnemonic. -/
theorem decodeWord_encode {m : OpcodeMap} {i : Instr} (h : m.find (m.code i.mnemonic) = some i.mnemonic) :
    decodeWord m (encode m i) = .ok i := by
  unfold decodeWord
  rw [opField_encode, h]
  exact congrArg Except.ok (instr_encode m i)

/-- Settles O2. A map without repeats resolves every opcode to the mnemonic it belongs to, and the format
of that mnemonic reads back the operands. -/
theorem decodeOfEncodeIsTheInstruction : Obligations.DecodeOfEncodeIsTheInstruction :=
  fun _ i h => decodeWord_encode (OpcodeMap.find_code h i.mnemonic)

/-- The word of the instruction that a catalogue row reads from a word with the row's opcode: the fields of
its format, and 0 for the bits the format ignores (`30_encoding.md` R175). -/
theorem encode_instr_and {m : OpcodeMap} {w : Word} (k : Mnemonic) (h : m.code k = opField w) :
    encode m (k.instr w) &&& w = encode m (k.instr w) := by
  have hcount : addrField w &&& 15#5 &&& addrField w = addrField w &&& 15#5 := by
    rw [BitVec.and_assoc, BitVec.and_comm 15#5, ← BitVec.and_assoc, BitVec.and_self]
  cases k <;> simp only [OpcodeMap.code] at h <;>
    simp only [Mnemonic.instr, encode, h, wordS_fields_eq_wordM] <;>
    refine wordM_and_of_subset ?_ ?_ ?_ ?_ <;>
    simp only [BitVec.and_self, BitVec.ofNat_eq_ofNat, BitVec.zero_and, Bool.and_self, Bool.false_and, hcount]

/-- Settles O3. The word of the decoded instruction is built field by field from fields of the old word. -/
theorem encodeOfDecodeDropsOnlyBits : Obligations.EncodeOfDecodeDropsOnlyBits := by
  intro m w i h
  obtain ⟨hfind, hi⟩ := decodeWord_ok h
  have hcode : m.code i.mnemonic = opField w := OpcodeMap.code_of_find hfind
  refine ⟨(opField_encode m i).trans hcode, ?_, decodeWord_encode (hcode ▸ hfind)⟩
  rw [hi]
  exact encode_instr_and i.mnemonic hcode

/-! ## Opcodes that spell nothing -/

/-- A word spells nothing exactly when the lookup fails on its opcode (`30_encoding.md` R173). -/
theorem decodeWord_error_iff (m : OpcodeMap) (w : Word) :
    (∃ r, decodeWord m w = .error r) ↔ ∀ k, m.code k ≠ opField w := by
  rw [← OpcodeMap.find_eq_none]
  unfold decodeWord
  cases m.find (opField w) <;> simp

/-- The opcode values that the default map leaves unassigned (`30_encoding.md` R173). -/
theorem default_unassigned (op : BitVec 6) :
    (∀ k, OpcodeMap.default.code k ≠ op) ↔
      op.toNat ∈ [22, 23, 32, 35, 36, 37, 38, 39, 42, 43, 44, 45, 46, 47, 48, 52, 53, 54, 55, 56,
        57, 58, 59, 60, 61, 62, 63] := by
  have table : ∀ op : BitVec 6, OpcodeMap.default.find op = none ↔
      op.toNat ∈ [22, 23, 32, 35, 36, 37, 38, 39, 42, 43, 44, 45, 46, 47, 48, 52, 53, 54, 55, 56,
        57, 58, 59, 60, 61, 62, 63] := by decide
  rw [← OpcodeMap.find_eq_none, table]

/-- Settles O1. Each word is looked up in the default map. -/
theorem specWordsDecode : Obligations.SpecWordsDecode :=
  ⟨rfl, rfl, rfl, rfl, rfl, rfl, rfl, rfl, rfl, rfl⟩

end Sys2Proof
end

section
/-! PROOFS. The step (`40_cycle.md` R200, R201, R221): what a core that starts a cycle does with the word
FETCH finds, and the stops before FETCH. -/

open Sys2Proof Sys2Proof.Machine

namespace Sys2Proof.Machine

/-- A core that starts a cycle runs the cycle from FETCH on. -/
theorem step_of_starts {s : State} (h : s.Starts) : step s = markRefused s (cycleStep s) := by
  unfold step
  simp only [h.meaning, h.running, h.free, Bool.false_eq_true, if_false]

/-- FETCH finds the word `w` and leaves the latches as they were (`20_memory.md` R142). -/
theorem fetchWord_of_reads {s : State} {w : Word} (h : s.FetchReads w) : fetchWord s = .ok w s := by
  unfold fetchWord
  rcases h with hcached | ⟨hnone, p, hp, hw⟩
  · rw [hcached]
  · rw [hnone, ← hw]
    exact loadWord_ok s hp

/-- FETCH and the latches of DECODE leave the fetched state, which DECODE resolves. -/
theorem cycleStep_of_reads {s : State} {w : Word} (h : s.FetchReads w) :
    cycleStep s = runDecoded (s.fetched w) := by
  have hread : fetchWord { s with mar := s.marOf s.pc } = .ok w { s with mar := s.marOf s.pc } :=
    fetchWord_of_reads h
  unfold cycleStep fetch
  rw [hread]
  rfl

theorem step_of_reads {s : State} {w : Word} (hs : s.Starts) (hw : s.FetchReads w) :
    step s = markRefused s (runDecoded (s.fetched w)) := by
  rw [step_of_starts hs, cycleStep_of_reads hw]

theorem runDecoded_fetched_ok {s : State} {w : Word} {i : Instr}
    (h : decodeWord s.cfg.opcodeMap w = .ok i) : runDecoded (s.fetched w) = exec i (s.fetched w) := by
  unfold runDecoded
  rw [show decodeWord (s.fetched w).cfg.opcodeMap (s.fetched w).ir = .ok i from h]

theorem runDecoded_fetched_error {s : State} {w : Word} {r : DecodeReject}
    (h : decodeWord s.cfg.opcodeMap w = .error r) :
    runDecoded (s.fetched w) = .next (faultEntry .illegalOperationCode (s.fetched w)) := by
  unfold runDecoded
  rw [show decodeWord (s.fetched w).cfg.opcodeMap (s.fetched w).ir = .error r from h]
  rfl

/-- Settles O6. FETCH and the latches leave the fetched state, and DECODE looks its word up. -/
theorem stepRunsTheDecodedInstruction : Obligations.StepRunsTheDecodedInstruction := by
  intro s w i hs hw hi
  rw [step_of_reads hs hw, runDecoded_fetched_ok hi]

/-- Settles O4. Decoding fails exactly where the lookup of the opcode does; on the default map that is a
table of 64 values. A step on such a word ends in the fault entry of DECODE, which is no refusal. -/
theorem unassignedOpcodesRaiseIllegalOperation : Obligations.UnassignedOpcodesRaiseIllegalOperation := by
  refine ⟨decodeWord_error_iff, fun w => ?_, fun s w r hs hw hr => ?_⟩
  · rw [decodeWord_error_iff, default_unassigned]
  · rw [step_of_reads hs hw, runDecoded_fetched_error hr]
    rfl

/-- A fetch of an uncached word outside memory ends in fault entry (`40_cycle.md` R200, R221). -/
theorem step_of_fetch_fault {s : State} {k : FaultKind} (hs : s.Starts)
    (hc : s.cacheGet (sval s.pc) = none) (hb : boundsCheck (sval s.pc) = .error k) :
    step s = .next (faultEntry k ({ s with mar := s.marOf s.pc }.memfault k)) := by
  have hword : fetchWord { s with mar := s.marOf s.pc } =
      .fault k ({ s with mar := s.marOf s.pc }.memfault k) := by
    unfold fetchWord
    rw [show ({ s with mar := s.marOf s.pc } : State).cacheGet (sval s.pc) = none from hc]
    exact loadWord_fault _ hb
  rw [step_of_starts hs]
  unfold cycleStep fetch
  rw [hword]
  rfl

/-- Settles O7. The bounds check at FETCH is that of every access. -/
theorem fetchOutsideMemoryFaults : Obligations.FetchOutsideMemoryFaults := by
  intro s hs hc
  constructor
  · intro hneg
    exact step_of_fetch_fault hs hc (boundsCheck_error.mpr (.inl ⟨hneg, rfl⟩))
  · intro hbig
    exact step_of_fetch_fault hs hc (boundsCheck_error.mpr (.inr ⟨hbig, rfl⟩))

theorem step_of_halted {s : State} (h : s.halted = true) (hr : s.refused = false) :
    step s = .fault .halted := by
  unfold step
  simp only [h, hr, Bool.false_eq_true, if_false, if_true]

theorem step_of_refused {s : State} (h : s.refused = true) : step s = .refused .runRefused := by
  unfold step
  rw [if_pos h]

/-- Settles O8. The test of `halted` comes before the cycle. -/
theorem haltedCoreHasNoStep : Obligations.HaltedCoreHasNoStep := by
  refine ⟨fun s h hr => step_of_halted h hr, fun s t h => ?_, fun _ => rfl⟩
  cases hr : s.refused with
  | false => rw [step_of_halted h hr]; nofun
  | true => rw [step_of_refused hr]; nofun

/-- A cycle whose decode step rejects the word keeps the latched R field and nothing else beside the fault
entry (`60_exceptions.md` R603). -/
theorem cycle_latched_rejected {s : State} {row : DecodeRow} {valid : Bool} {f : OperandFields}
    {execute : State → Res Unit} {r : BitVec 2} (h : valid = false) :
    cycle row valid f execute (s.latchRs1 r) =
      .next { faultEntry .illegalOperationCode s with rs1 := r } := by
  rw [h, cycle_invalid]
  rfl

/-- Settles O5. The check of `30_encoding.md` R174 on the operands is the one that the instruction's decode
step makes; LDX and STX latch no R field, so RS1 is as it was. -/
theorem illegalSelectorsRaiseIllegalOperation : Obligations.IllegalSelectorsRaiseIllegalOperation := by
  intro i s h
  cases i with
  | mlt rx ry => exact ⟨rx, cycle_latched_rejected h⟩
  | dvd rx ry => exact ⟨rx, cycle_latched_rejected h⟩
  | fadd fr ix i a => exact ⟨fr, cycle_latched_rejected h⟩
  | fsub fr ix i a => exact ⟨fr, cycle_latched_rejected h⟩
  | vadd fr ix i a => exact ⟨fr, cycle_latched_rejected h⟩
  | vsub fr ix i a => exact ⟨fr, cycle_latched_rejected h⟩
  | ldfr fr ix i a => exact ⟨fr, cycle_latched_rejected h⟩
  | stfr fr ix i a => exact ⟨fr, cycle_latched_rejected h⟩
  | ldx x i a => exact ⟨s.rs1, cycle_latched_rejected (s := s) h⟩
  | stx x i a => exact ⟨s.rs1, cycle_latched_rejected (s := s) h⟩
  | _ => exact Bool.noConfusion h

end Sys2Proof.Machine
end

section
/-! PROOFS. What every step keeps: the invariant of the machine, the sticky flags, the mode. Each is a pair
of predicates that the single writes of the core keep (`Writes`), handed to `step_next`. -/

open Sys2Proof Sys2Proof.Machine

namespace Sys2Proof.Machine

/-! ## The invariant -/

/-- The part of the invariant that holds at every moment of a cycle, a taken fault included: the memory, the
cache and the buffer, and a MAR of its width. -/
structure StoreInv (s : State) : Prop where
  memory    : Memory.wf s.mem = true
  cache     : CacheMap.wf s.cache = true
  buffered  : ∀ p ∈ s.writeBuffer, (cacheLookup s.cache p).isSome
  depth     : s.writeBuffer.length ≤ 4
  flushEach : s.cfg.wbPolicy = .flushEach → s.writeBuffer = []
  marValue  : s.cfg.marWidth.Holds s.mar
  waiting   : s.inputWait = none

/-- What holds in the middle of a cycle that no fault has stopped. -/
structure CycleInv (s : State) : Prop extends StoreInv s where
  latch   : s.memoryFault = .none
  pending : s.cyc.pendingFault = none
  mfr     : s.mfr ∈ [0#4, 1#4, 2#4, 4#4, 8#4]
  pcValue : s.cfg.pcWidth.Holds s.pc

theorem StoreInv.cachedStore {s : State} (h : StoreInv s) {p : Nat} (v : Word) (hp : p < 2048) :
    StoreInv (wbPush { s with cache := cacheSet s.cache p v } p) := by
  have hcache : CacheMap.wf (cacheSet s.cache p v) = true := cacheSet_wf _ _ _ h.cache hp
  rw [wbPush_frame]
  refine { memory := wbPush_wf _ p h.memory hcache, cache := hcache, buffered := fun q hq => ?_,
           depth := wbPush_length _ p h.depth, flushEach := fun hf => ?_,
           marValue := h.marValue, waiting := h.waiting }
  · show (cacheLookup (cacheSet s.cache p v) q).isSome
    rw [cacheLookup_cacheSet]
    split
    · rfl
    · rcases wbPush_members _ p q hq with rfl | hold
      · contradiction
      · exact h.buffered q hold
  · exact congrArg State.writeBuffer
      (wbPush_flushEach { s with cache := cacheSet s.cache p v } p v hf (by simp))

theorem mfrCode_one_hot (c : Params) (k : FaultKind) : mfrCode c k ∈ [0#4, 1#4, 2#4, 4#4, 8#4] := by
  have shifts : ∀ b : BitVec 2, 1#4 <<< b.toNat ∈ [0#4, 1#4, 2#4, 4#4, 8#4] := by decide
  exact shifts (faultId c k)

theorem writes_cycleInv : Writes CycleInv StoreInv where
  flags _ _ _ h := { h with }
  pointer _ _ h := { h with }
  address s _ _ _ h := { h with marValue := holds_set s.cfg.marWidth _ }
  rs1 _ _ h := { h with }
  fault _ _ h := { h.toStoreInv with }
  raise _ _ h := { h.toStoreInv with }
  gpr _ _ _ h := { h with }
  xr _ _ _ h := { h with }
  fr _ _ _ h := { h with }
  irr _ _ h := { h with }
  next _ _ h := { h with }
  cc _ _ _ h := { h with }
  store _ p _ hp h := { h with memory := writeWord_wf _ p _ h.memory hp }
  cached s p v hp h :=
    { h.toStoreInv.cachedStore v hp with
      latch := by rw [wbPush_frame]; exact h.latch
      pending := by rw [wbPush_frame]; exact h.pending
      mfr := by rw [wbPush_frame]; exact h.mfr
      pcValue := by rw [wbPush_frame]; exact h.pcValue }
  halt _ h := { h with }
  print _ _ h := { h with }
  answer _ _ h := { h with waiting := rfl }

theorem inv_endCycle {s : State} (h : CycleInv s) (next : Word) : (s.endCycle next).Inv :=
  { h with
    pending := rfl
    flags := fun _ _ => rfl
    held := fun _ => ⟨rfl, rfl⟩
    pcValue := holds_set s.cfg.pcWidth _ }

theorem inv_faultEntry {s : State} (h : StoreInv s) (k : FaultKind) : (faultEntry k s).Inv :=
  { h with
    memory := writeWord_wf _ 5 _ h.memory (by norm_num)
    latch := rfl
    pending := rfl
    mfr := mfrCode_one_hot s.cfg k
    flags := fun _ _ => rfl
    held := fun _ => ⟨rfl, rfl⟩
    pcValue := holds_set s.cfg.pcWidth _ }

theorem endsIn_inv : EndsIn CycleInv StoreInv State.Inv where
  finish _ next h := inv_endCycle h next
  halt t h hhalt :=
    { h with
      flags := fun hrun => by rw [hhalt] at hrun; cases hrun
      held := fun hw => by rw [h.waiting] at hw; cases hw }
  wait t r h htarget htrap _ :=
    { h with
      flags := fun _ hw => by cases hw
      held := fun _ => ⟨htarget, htrap⟩ }
  entry k _ h := inv_faultEntry h k

/-- Between steps only a wait for the host stands between the invariant and what holds inside a cycle. -/
theorem State.Inv.cycleInv {s : State} (h : s.Inv) : CycleInv { s with inputWait := none } :=
  { h with waiting := rfl }

/-- Settles O55. The invariant of a cycle is kept by every single write, and each end of a cycle brings back
that of a step. -/
theorem everyStepKeepsTheInvariant : Obligations.EveryStepKeepsTheInvariant := by
  intro s t h hstep
  have hc := h.cycleInv
  refine (step_next writes_cycleInv endsIn_inv s ?fetch ?fault ?held ?mark).of_next hstep
  case fetch =>
    intro _ _ hfree w
    exact { hc with marValue := holds_set s.cfg.marWidth _, waiting := hfree }
  case fault =>
    intro _ _ hfree k
    exact { hc.toStoreInv with marValue := holds_set s.cfg.marWidth _, waiting := hfree }
  case held => exact fun _ => hc
  case mark => exact { h with }

/-! ## Sticky flags -/

theorem StickyLe.trans {a b c : CC} (h : StickyLe a b) (h' : StickyLe b c) : StickyLe a c :=
  ⟨h'.overflow ∘ h.overflow, h'.underflow ∘ h.underflow, h'.divzero ∘ h.divzero⟩

/-- The condition codes are at least those of `c`. -/
def FlagsAbove (c : CC) (s : State) : Prop := StickyLe c s.cc

theorem writes_flagsAbove (c : CC) : Writes (FlagsAbove c) (FlagsAbove c) where
  flags _ _ _ h := h
  pointer _ _ h := h
  address _ _ _ _ h := h
  rs1 _ _ h := h
  fault _ _ h := h
  raise _ _ h := h
  gpr _ _ _ h := h
  xr _ _ _ h := h
  fr _ _ _ h := h
  irr _ _ h := h
  next _ _ h := h
  cc _ _ hle h := StickyLe.trans h hle
  store _ _ _ _ h := h
  cached _ _ _ _ h := by unfold FlagsAbove; rw [wbPush_frame]; exact h
  halt _ h := h
  print _ _ h := h
  answer _ _ h := h

theorem endsIn_flagsAbove (c : CC) : EndsIn (FlagsAbove c) (FlagsAbove c) (FlagsAbove c) where
  finish _ _ h := h
  halt _ h _ := h
  wait _ _ h _ _ _ := h
  entry _ _ h := h

/-- Settles O56. Every single write of the condition codes is sticky. -/
theorem noStepClearsAStickyFlag : Obligations.NoStepClearsAStickyFlag := by
  intro s t hstep
  have hs : FlagsAbove s.cc s := stickyLe_refl s.cc
  have ht : FlagsAbove s.cc t :=
    (step_next (writes_flagsAbove s.cc) (endsIn_flagsAbove s.cc) s (fun _ _ _ _ => hs) (fun _ _ _ _ => hs)
      (fun _ => hs) hs).of_next hstep
  exact ⟨ht.overflow, ht.underflow, ht.divzero⟩

/-! ## Mode, parameters, output -/

/-- The run is still in the mode and under the parameters of `s`, and its output begins with that of `s`. -/
structure SameRun (s t : State) : Prop where
  mode   : t.runningUserProgram = s.runningUserProgram
  cfg    : t.cfg = s.cfg
  output : s.output <+: t.output

theorem sameRun_refl (s : State) : SameRun s s := ⟨rfl, rfl, List.prefix_rfl⟩

theorem writes_sameRun (s : State) : Writes (SameRun s) (SameRun s) where
  flags _ _ _ h := { h with }
  pointer _ _ h := { h with }
  address _ _ _ _ h := { h with }
  rs1 _ _ h := { h with }
  fault _ _ h := { h with }
  raise _ _ h := { h with }
  gpr _ _ _ h := { h with }
  xr _ _ _ h := { h with }
  fr _ _ _ h := { h with }
  irr _ _ h := { h with }
  next _ _ h := { h with }
  cc _ _ _ h := { h with }
  store _ _ _ _ h := { h with }
  cached _ _ _ _ h := by rw [wbPush_frame]; exact { h with }
  halt _ h := { h with }
  print t v h := { h with output := h.output.trans (List.prefix_append t.output [v]) }
  answer _ _ h := { h with }

theorem endsIn_sameRun (s : State) : EndsIn (SameRun s) (SameRun s) (SameRun s) where
  finish _ _ h := { h with }
  halt _ h _ := h
  wait _ _ h _ _ _ := { h with }
  entry _ _ h := { h with }

/-- Settles O57. No single write touches the mode or a parameter, and output grows at its end. -/
theorem noStepChangesTheMode : Obligations.NoStepChangesTheMode := by
  intro s t hstep
  have hs := sameRun_refl s
  have ht : SameRun s t :=
    (step_next (writes_sameRun s) (endsIn_sameRun s) s (fun _ _ _ _ => { hs with })
      (fun _ _ _ _ => { hs with }) (fun _ => { hs with }) { hs with }).of_next hstep
  exact ⟨ht.mode, ht.cfg, ht.output⟩

end Sys2Proof.Machine
end

section
/-! PROOFS. Memory behind the cache (`20_memory.md` sections 3 and 5): what a push does under each policy,
and what reads and fetches see of a store. -/

open Sys2Proof Sys2Proof.Machine

namespace Sys2Proof.Machine

/-! ## The push under each policy (`20_memory.md` R122, R123) -/

@[simp] theorem wbPush_cyc (s : State) (p : Nat) : (wbPush s p).cyc = s.cyc := by
  rw [wbPush_frame]

@[simp] theorem wbPush_pc (s : State) (p : Nat) : (wbPush s p).pc = s.pc := by
  rw [wbPush_frame]

/-- Under FIFO a push on a buffer with space only queues the address. -/
theorem wbPush_fifo_space {s : State} (p : Nat) (hfifo : s.cfg.wbPolicy = .fifo)
    (hlen : s.writeBuffer.length ≠ 4) : wbPush s p = { s with writeBuffer := s.writeBuffer ++ [p] } := by
  unfold wbPush
  rw [hfifo]
  cases hb : s.writeBuffer with
  | nil => rfl
  | cons h rest =>
    rw [hb] at hlen
    simp only [if_neg hlen]

/-- Under FIFO a push on a full buffer flushes the oldest address and queues the new one. -/
theorem wbPush_fifo_full {s : State} {h : Nat} {rest : List Nat} {x : Word} (p : Nat)
    (hfifo : s.cfg.wbPolicy = .fifo) (hb : s.writeBuffer = h :: rest) (hlen : s.writeBuffer.length = 4)
    (hx : cacheLookup s.cache h = some x) :
    wbPush s p = { s with mem := writeWord s.mem h x, writeBuffer := rest ++ [p] } := by
  unfold wbPush flushAddress
  rw [hb] at hlen
  simp only [hfifo, hb, if_pos hlen, hx]

/-- Settles O48. The push flushes the stored address itself. -/
theorem flushEachReachesMemoryAtOnce : Obligations.FlushEachReachesMemoryAtOnce := by
  intro s a v p hf hb
  have hpush := wbPush_flushEach { s with cache := cacheSet s.cache p v } p v hf (by simp)
  refine ⟨_, (cachedInsert_ok v hb).trans (congrArg _ hpush), rfl, ?_, ?_, rfl⟩
  · exact fun q => readWord_writeWord s.mem p q v
  · exact fun q => cacheLookup_cacheSet s.cache p q v

/-- Settles O49. A push flushes the head of the buffer exactly when the buffer is full. -/
theorem fifoFlushesTheOldest : Obligations.FifoFlushesTheOldest := by
  intro s a v p hfifo hb
  refine ⟨fun hlen => ?_, fun h rest x hbuf hlen hx => ?_⟩
  · have hpush := wbPush_fifo_space (s := { s with cache := cacheSet s.cache p v }) p hfifo hlen
    exact ⟨_, (cachedInsert_ok v hb).trans (congrArg _ hpush), rfl, rfl, loadWord_ok _ hb⟩
  · have hfull : s.writeBuffer.length = 4 := by rw [hbuf, List.length_cons, hlen]
    have hpush := wbPush_fifo_full (s := { s with cache := cacheSet s.cache p v }) p hfifo hbuf hfull hx
    exact ⟨_, (cachedInsert_ok v hb).trans (congrArg _ hpush), rfl, fun q => readWord_writeWord s.mem h q x⟩

/-! ## What a read sees of a store (`20_memory.md` R140, R142) -/

/-- An `Insert` that completes writes its one word. -/
theorem insertWord_ok_iff {a v : Word} {s t : State} :
    insertWord a v s = .ok () t ↔
      ∃ p, boundsCheck (s.phys a) = .ok p ∧ t = { s with mem := writeWord s.mem p v } := by
  rw [insertWord_eq]
  cases boundsCheck (s.phys a) <;> simp [eq_comm]

/-- A cached store that completes writes its one cache entry and pushes its address. -/
theorem cachedInsert_ok_iff {a v : Word} {s t : State} :
    cachedInsert a v s = .ok () t ↔
      ∃ p, boundsCheck (s.phys a) = .ok p ∧ t = wbPush { s with cache := cacheSet s.cache p v } p := by
  rw [cachedInsert_eq]
  cases boundsCheck (s.phys a) <;> simp [eq_comm]

/-- What a biased read finds after one word of memory has been written. -/
theorem peek_store {s : State} {a b v : Word} {p : Nat} (hp : boundsCheck (s.phys a) = .ok p) :
    ({ s with mem := writeWord s.mem p v } : State).peek b =
      if s.phys b = s.phys a then .ok v else s.peek b := by
  unfold State.peek
  rw [show ({ s with mem := writeWord s.mem p v } : State).phys b = s.phys b from rfl]
  by_cases hab : s.phys b = s.phys a
  · rw [if_pos hab, hab, hp]
    simp
  · rw [if_neg hab]
    cases hq : boundsCheck (s.phys b) with
    | error k => rfl
    | ok q =>
      have hne : q ≠ p := by
        have := boundsCheck_ok.mp hp
        have := boundsCheck_ok.mp hq
        omega
      simp [hne]

/-- Settles O47. Two addresses share a word exactly when their physical addresses agree. -/
theorem getReadsTheLastInsert : Obligations.GetReadsTheLastInsert := by
  intro s t a b v h
  obtain ⟨p, hp, rfl⟩ := insertWord_ok_iff.mp h
  refine ⟨?_, fun hm => writeWord_wf _ _ _ hm (boundsCheck_lt hp)⟩
  rw [getWord_eq, peek_store hp]
  by_cases hab : s.phys b = s.phys a
  · rw [if_pos hab, if_pos hab]
  · cases s.peek b <;> simp only [if_neg hab]

theorem cacheGet_natCast (s : State) (p : Nat) : s.cacheGet (p : Int) = cacheLookup s.cache p := by
  unfold State.cacheGet
  rw [if_neg (by omega), Int.toNat_natCast]

theorem boundsCheck_natCast {p q : Nat} (h : boundsCheck (p : Int) = .ok q) : q = p := by
  have := boundsCheck_ok.mp h
  omega

/-- A fetch reads the cache entry of PC where there is one. -/
theorem fetchReads_cached {s : State} {p : Nat} {v : Word} (hpc : sval s.pc = p)
    (h : cacheLookup s.cache p = some v) : s.FetchReads v :=
  .inl (by rw [hpc, cacheGet_natCast, h])

/-- A fetch reads the memory word at PC where there is no cache entry. -/
theorem fetchReads_uncached {s : State} {p : Nat} {v : Word} (hpc : sval s.pc = p)
    (hb : boundsCheck (p : Int) = .ok p) (h : cacheLookup s.cache p = none) (hv : readWord s.mem p = v) :
    s.FetchReads v :=
  .inr ⟨by rw [hpc, cacheGet_natCast, h], p, by rw [hpc, hb], hv⟩

/-- Settles O50. A cached store makes the cache entry, a bypass store leaves it as it is. -/
theorem fetchSeesCachedStoresOnly : Obligations.FetchSeesCachedStoresOnly := by
  intro s t a v p hphys hpc
  refine ⟨fun h => ?_, fun h hnone => ?_, fun old h hold => ?_⟩
  · obtain ⟨q, hq, rfl⟩ := cachedInsert_ok_iff.mp h
    rw [hphys] at hq
    obtain rfl := boundsCheck_natCast hq
    exact fetchReads_cached (p := q) (by rw [wbPush_pc]; exact hpc) (by simp)
  · obtain ⟨q, hq, rfl⟩ := insertWord_ok_iff.mp h
    rw [hphys] at hq
    obtain rfl := boundsCheck_natCast hq
    exact fetchReads_uncached (s := { s with mem := writeWord s.mem q v }) hpc hq hnone (by simp)
  · obtain ⟨q, _, rfl⟩ := insertWord_ok_iff.mp h
    exact fetchReads_cached (s := { s with mem := writeWord s.mem q v }) hpc hold

end Sys2Proof.Machine
end

section
/-! PROOFS. The ALU (`41_alu.md` sections 1 and 3): the flags of subtract, the halves of a product, quotient
and remainder, shift and rotate, each as arithmetic on the values of the operands. -/

open Sys2Proof Sys2Proof.Machine

namespace Sys2Proof.Machine

/-! ## Subtract (`41_alu.md` R253) -/

/-- A positive minuend and a negative subtrahend have a negative wrapped difference exactly when the exact
difference is above the range; with the minuend 0 that sign test is not made (D48). -/
theorem subtract_signs_overflow_iff (a b : Word) :
    (0 < sval a ∧ sval b < 0 ∧ sval (wrap16 (sval a - sval b)) < 0) ↔
      32767 < sval a - sval b ∧ sval a ≠ 0 := by
  have ha := sval_bounds a
  have hb := sval_bounds b
  constructor
  · rintro ⟨ha0, hb0, hneg⟩
    by_contra hle
    rw [sval_wrap16 _ (by omega) (by omega)] at hneg
    omega
  · rintro ⟨hgt, ha0⟩
    rw [sval_wrap16_above hgt (by omega)]
    omega

/-- A negative minuend and a positive subtrahend have a positive wrapped difference exactly when the exact
difference is below the range. -/
theorem subtract_signs_underflow_iff (a b : Word) :
    (sval a < 0 ∧ 0 < sval b ∧ 0 < sval (wrap16 (sval a - sval b))) ↔ sval a - sval b < -32768 := by
  have ha := sval_bounds a
  have hb := sval_bounds b
  constructor
  · rintro ⟨ha0, hb0, hpos⟩
    by_contra hle
    rw [sval_wrap16 _ (by omega) (by omega)] at hpos
    omega
  · intro hlt
    rw [sval_wrap16_below (by omega) hlt]
    omega

/-- The flags of subtract as the exact difference decides them. -/
theorem aluSubtract_flags (a b : Word) (c : CC) :
    (aluSubtract a b c).2 = { c with
      overflow := c.overflow || decide (32767 < sval a - sval b ∧ sval a ≠ 0)
      underflow := c.underflow || decide (sval a - sval b < -32768) } := by
  unfold aluSubtract
  simp only [subtract_signs_overflow_iff, subtract_signs_underflow_iff]

/-- Settles O15. The signs of operands and result say where the exact difference lies. -/
theorem subtractFlagsAreStrict : Obligations.SubtractFlagsAreStrict := by
  intro a b c
  refine ⟨rfl, rfl, rfl, ?_, ?_, subtract_signs_overflow_iff a b, subtract_signs_underflow_iff a b⟩
  · simp only [aluSubtract, Bool.or_eq_true, decide_eq_true_eq]
  · simp only [aluSubtract, Bool.or_eq_true, decide_eq_true_eq]

/-- A decrement can only underflow, and only from −32768 (`44_transfer.md` R382). -/
theorem aluSubtract_one_flags (a : Word) (c : CC) :
    (aluSubtract a 1 c).2 = { c with underflow := c.underflow || decide (sval a = -32768) } := by
  have ha := sval_bounds a
  have hone : sval (1 : Word) = 1 := rfl
  have hover : decide (32767 < sval a - 1 ∧ sval a ≠ 0) = false := decide_eq_false (by omega)
  have hunder : decide (sval a - 1 < -32768) = decide (sval a = -32768) := decide_eq_decide.mpr (by omega)
  rw [aluSubtract_flags, hone, hover, hunder, Bool.or_false]

/-! ## Multiply (`41_alu.md` R254) -/

/-- The product of two words is well inside 32 bits. -/
theorem product_bounds (a b : Word) :
    -1073741824 ≤ sval a * sval b ∧ sval a * sval b ≤ 1073741824 := by
  have ha := sval_bounds a
  have hb := sval_bounds b
  have habs : |sval a * sval b| ≤ 32768 * 32768 := by
    rw [abs_mul]
    exact mul_le_mul (abs_le.mpr (by omega)) (abs_le.mpr (by omega)) (abs_nonneg _) (by norm_num)
  have := abs_le.mp habs
  omega

/-- A value of 32 bits is its signed high half and its unsigned low half. -/
theorem halves_value {v : Int} (h : -2147483648 ≤ v) (h' : v < 2147483648) :
    sval ((BitVec.ofInt 32 v).extractLsb' 16 16) * 65536 + uval ((BitVec.ofInt 32 v).extractLsb' 0 16) = v := by
  have hn : ((BitVec.ofInt 32 v).toNat : Int) = v % 4294967296 := by
    rw [BitVec.toNat_ofInt]
    norm_num
    omega
  have hlt := (BitVec.ofInt 32 v).isLt
  simp only [sval, uval, BitVec.toInt_eq_toNat_cond, BitVec.extractLsb'_toNat, Nat.shiftRight_eq_div_pow]
  split <;> push_cast <;> omega

theorem toInt_ofInt32 {v : Int} (h : -2147483648 ≤ v) (h' : v < 2147483648) : (BitVec.ofInt 32 v).toInt = v := by
  rw [BitVec.toInt_ofInt]
  exact Int.bmod_eq_of_le (by omega) (by omega)

/-- The bytes of a wrapped value, high byte first, make up its remainder modulo 2^16. -/
theorem bytes_value (v : Int) :
    ((uval (((wrap16 v).extractLsb' 8 8).setWidth 16) * 256 +
      uval (((wrap16 v).extractLsb' 0 8).setWidth 16) : Nat) : Int) = v % 65536 := by
  have hn : ((wrap16 v).toNat : Int) = v % 65536 := by
    rw [BitVec.toNat_ofInt]
    norm_num
    omega
  have hlt := (wrap16 v).isLt
  simp only [uval, BitVec.toNat_setWidth, BitVec.extractLsb'_toNat, Nat.shiftRight_eq_div_pow]
  push_cast
  omega

theorem uval_byte_lt (w : BitVec 8) : uval (w.setWidth 16) < 256 := by
  have := w.isLt
  simp only [uval, BitVec.toNat_setWidth]
  omega

/-- The sign rule of `41_alu.md` R254 on any value of the product. -/
theorem multiplyFlags_eq (a b : Word) (p : Int) (c : CC) :
    multiplyFlags a b p c = { c with
      overflow := c.overflow || decide ((0 ≤ sval a ↔ 0 ≤ sval b) ∧ p < 0)
      underflow := c.underflow || decide (¬ (0 ≤ sval a ↔ 0 ≤ sval b) ∧ 0 < p) } := by
  have hsame : (decide (0 ≤ sval a) == decide (0 ≤ sval b)) = decide (0 ≤ sval a ↔ 0 ≤ sval b) := by
    by_cases ha : 0 ≤ sval a <;> by_cases hb : 0 ≤ sval b <;> simp [ha, hb]
  simp only [multiplyFlags, hsame, Bool.decide_and, decide_not]

/-- The exact product has the sign that the signs of its factors give it, so it sets no flag. -/
theorem multiplyFlags_exact (a b : Word) (c : CC) : multiplyFlags a b (sval a * sval b) c = c := by
  have hover : ¬ ((0 ≤ sval a ↔ 0 ≤ sval b) ∧ sval a * sval b < 0) := by
    rintro ⟨hsame, hneg⟩
    rcases mul_neg_iff.mp hneg with ⟨ha, hb⟩ | ⟨ha, hb⟩ <;> omega
  have hunder : ¬ (¬ (0 ≤ sval a ↔ 0 ≤ sval b) ∧ 0 < sval a * sval b) := by
    rintro ⟨hdiff, hpos⟩
    rcases mul_pos_iff.mp hpos with ⟨ha, hb⟩ | ⟨ha, hb⟩ <;> omega
  rw [multiplyFlags_eq, decide_eq_false hover, decide_eq_false hunder, Bool.or_false, Bool.or_false]

/-- With MLT_HALF = 16 the product is exact and sets no flag. -/
theorem aluMultiply_sixteen (a b : Word) (c : CC) : ∃ hi lo : Word,
    aluMultiply .sixteen a b c = ((hi, lo), c) ∧ sval hi * 65536 + uval lo = sval a * sval b := by
  have hb := product_bounds a b
  have hflags : multiplyFlags a b (BitVec.ofInt 32 (sval a * sval b)).toInt c = c := by
    rw [toInt_ofInt32 (by omega) (by omega), multiplyFlags_exact]
  exact ⟨_, _, congrArg (Prod.mk _) hflags, halves_value (by omega) (by omega)⟩

/-- With MLT_HALF = 8 the product is that modulo 2^16, cut into bytes. -/
theorem aluMultiply_eight (a b : Word) (c : CC) : ∃ hi lo : Word,
    aluMultiply .eight a b c = ((hi, lo), { c with
      overflow := c.overflow || decide
        ((0 ≤ sval a ↔ 0 ≤ sval b) ∧ sval (wrap16 (sval a * sval b)) < 0)
      underflow := c.underflow || decide
        (¬ (0 ≤ sval a ↔ 0 ≤ sval b) ∧ 0 < sval (wrap16 (sval a * sval b))) }) ∧
    uval hi < 256 ∧ uval lo < 256 ∧
    ((uval hi * 256 + uval lo : Nat) : Int) = (sval a * sval b) % 65536 := by
  exact ⟨_, _, congrArg (Prod.mk _) (multiplyFlags_eq a b _ c), uval_byte_lt _, uval_byte_lt _, bytes_value _⟩

/-! ## Divide (`41_alu.md` R255) -/

theorem aluDivide_zero {b : Word} (a : Word) (c : CC) (h : sval b = 0) :
    aluDivide a b c = (none, { c with divzero := true }) := if_pos h

theorem aluDivide_nonzero {b : Word} (a : Word) (c : CC) (h : sval b ≠ 0) :
    aluDivide a b c = (some (wrap16 (Int.tdiv (sval a) (sval b)), wrap16 (Int.tmod (sval a) (sval b))), c) := by
  rw [Int.tmod_def]
  exact if_neg h

/-- The remainder is smaller than the divisor and has the sign of the dividend. -/
theorem tmod_abs_lt (a : Int) {b : Int} (h : b ≠ 0) : |Int.tmod a b| < |b| := by
  rw [Int.abs_eq_natAbs, Int.abs_eq_natAbs, Int.natAbs_tmod]
  exact_mod_cast Nat.mod_lt _ (Int.natAbs_pos.mpr h)

theorem tmod_nonpos {a : Int} (b : Int) (h : a ≤ 0) : Int.tmod a b ≤ 0 := by
  have := Int.tmod_nonneg b (neg_nonneg.mpr h)
  rw [Int.neg_tmod] at this
  omega

/-! ## Test and logic (`41_alu.md` R256, R257) -/

theorem aluTestEquality_eq (a b : Word) (c : CC) : aluTestEquality a b c = { c with equal := decide (a = b) } := by
  unfold aluTestEquality
  rw [decide_eq_decide.mpr BitVec.toInt_inj]

theorem aluNot_value (a : Word) : aluNot a = wrap16 (-sval a - 1) := by
  apply BitVec.eq_of_toNat_eq
  have := a.isLt
  unfold aluNot
  rw [BitVec.toNat_not, BitVec.toNat_ofInt, sval, BitVec.toInt_eq_toNat_cond]
  split <;> omega

/-! ## Shift and rotate (`41_alu.md` R258, R259) -/

theorem shiftLeft_value (v : Word) (n : Nat) : v <<< n = wrap16 (sval v * 2 ^ n) := by
  have hpow : BitVec.twoPow 16 n = BitVec.ofInt 16 (2 ^ n) := by
    rw [show (2 : Int) ^ n = ((2 ^ n : Nat) : Int) by push_cast; rfl, BitVec.ofInt_natCast]
    apply BitVec.eq_of_toNat_eq
    rw [BitVec.toNat_twoPow, BitVec.toNat_ofNat]
  rw [BitVec.shiftLeft_eq_mul_twoPow, hpow, wrap16, BitVec.ofInt_mul, BitVec.ofInt_toInt]

theorem sshiftRight_value (v : Word) (n : Nat) : v.sshiftRight n = wrap16 (sval v / 2 ^ n) := by
  rw [BitVec.sshiftRight_eq, Int.shiftRight_eq_div_pow]
  push_cast
  rfl

theorem ushiftRight_value (v : Word) (n : Nat) : uval (v >>> n) = uval v / 2 ^ n := by
  rw [uval, BitVec.toNat_ushiftRight, Nat.shiftRight_eq_div_pow]

/-- The bits a left shift by `n` loses are the value of the word over 2^(16 − n). -/
theorem lost_left_iff (v : Word) {n : Nat} (h : n ≤ 16) :
    (v >>> (16 - n) != 0) = decide (65536 ≤ uval v * 2 ^ n) := by
  have hpow : 2 ^ (16 - n) * 2 ^ n = 65536 := by
    rw [← pow_add, Nat.sub_add_cancel h]
    norm_num
  have hlost : v >>> (16 - n) = 0 ↔ uval v * 2 ^ n < 65536 := by
    rw [← BitVec.toNat_inj, BitVec.toNat_ushiftRight, Nat.shiftRight_eq_div_pow,
      show (0 : Word).toNat = 0 from rfl, Nat.div_eq_zero_iff_lt (by positivity), ← hpow]
    exact (Nat.mul_lt_mul_right (by positivity)).symm
  by_cases hz : v >>> (16 - n) = 0
  · rw [bne_eq_false_iff_eq.mpr hz, decide_eq_false (by have := hlost.mp hz; omega)]
  · rw [bne_iff_ne.mpr hz, decide_eq_true (by have := mt hlost.mpr hz; omega)]

/-- A left rotation moves bit `k` to bit `k + n` around the word. -/
theorem rotateLeft_bit (v : Word) {n k : Nat} (hn : n < 16) (hk : k < 16) :
    ((v <<< n) ||| (v >>> (16 - n))).getLsbD ((k + n) % 16) = v.getLsbD k := by
  rw [BitVec.getLsbD_or, BitVec.getLsbD_shiftLeft, BitVec.getLsbD_ushiftRight]
  rcases lt_or_ge (k + n) 16 with h | h
  · rw [Nat.mod_eq_of_lt h, BitVec.getLsbD_of_ge v (16 - n + (k + n)) (by omega), Nat.add_sub_cancel]
    simp [h]
  · rw [show (k + n) % 16 = k + n - 16 by omega, show 16 - n + (k + n - 16) = k by omega]
    simp [show k + n - 16 < n by omega]

/-- A right rotation brings bit `k + n` around the word to bit `k`. -/
theorem rotateRight_bit (v : Word) {n k : Nat} (hn : n < 16) (hk : k < 16) :
    ((v >>> n) ||| (v <<< (16 - n))).getLsbD k = v.getLsbD ((k + n) % 16) := by
  rw [BitVec.getLsbD_or, BitVec.getLsbD_shiftLeft, BitVec.getLsbD_ushiftRight]
  rcases lt_or_ge (k + n) 16 with h | h
  · rw [Nat.mod_eq_of_lt h, Nat.add_comm n k]
    simp [show k < 16 - n by omega]
  · rw [show (k + n) % 16 = k + n - 16 by omega, BitVec.getLsbD_of_ge v (n + k) (by omega),
      show k - (16 - n) = k + n - 16 by omega]
    simp [hk, show ¬ k < 16 - n by omega]

end Sys2Proof.Machine
end

section
/-! PROOFS. The cycle of an instruction whose operand can be read (`40_cycle.md` R210, R221), and what it
makes of EXECUTE; then load, store and arithmetic (`42_load_store.md`, `43_arith.md`). -/

open Sys2Proof Sys2Proof.Machine

namespace Sys2Proof.Machine

/-! ## What EXECUTE starts from -/

/-- The state in which EXECUTE of an instruction starts. -/
def State.prepared (s : State) (row : DecodeRow) (ea w : Word) : State :=
  (s.operandRead ea w).setFlags row false

/-- The operand of an instruction of this row can be read: `OperandReady` at the flags of the row. -/
abbrev RowReady (s : State) (row : DecodeRow) (f : OperandFields) (ea w : Word) : Prop :=
  OperandReady s (row.indexEnabled && decide (row.kind ≠ .ixr)) row.indirectEnabled f ea w

/-- `OperandReady` does not see RS1. -/
theorem OperandReady.latched {s : State} {indexed indirect : Bool} {f : OperandFields} {ea w : Word}
    (h : OperandReady s indexed indirect f ea w) (r : BitVec 2) :
    OperandReady (s.latchRs1 r) indexed indirect f ea w :=
  ⟨h.runs, h.address, h.operand⟩

@[simp] theorem prepared_gpr (s : State) (row : DecodeRow) (ea w : Word) :
    (s.prepared row ea w).gpr = s.gpr := rfl

@[simp] theorem prepared_fr (s : State) (row : DecodeRow) (ea w : Word) :
    (s.prepared row ea w).fr = s.fr := rfl

@[simp] theorem prepared_xr (s : State) (row : DecodeRow) (ea w : Word) :
    (s.prepared row ea w).xr = s.xr := rfl

@[simp] theorem prepared_cc (s : State) (row : DecodeRow) (ea w : Word) :
    (s.prepared row ea w).cc = s.cc := rfl

@[simp] theorem prepared_cfg (s : State) (row : DecodeRow) (ea w : Word) :
    (s.prepared row ea w).cfg = s.cfg := rfl

@[simp] theorem prepared_mbr (s : State) (row : DecodeRow) (ea w : Word) :
    (s.prepared row ea w).mbr = w := rfl

@[simp] theorem prepared_peek (s : State) (row : DecodeRow) (ea w : Word) :
    (s.prepared row ea w).peek = s.peek := rfl

@[simp] theorem latchRs1_gpr_eq (s : State) (r : BitVec 2) : (s.latchRs1 r).gpr = s.gpr := rfl

@[simp] theorem latchRs1_fr_eq (s : State) (r : BitVec 2) : (s.latchRs1 r).fr = s.fr := rfl

@[simp] theorem latchRs1_peek_eq (s : State) (r : BitVec 2) : (s.latchRs1 r).peek = s.peek := rfl

/-! ## A change of data -/

/-- `g` changes registers, condition codes or memory, and reads and writes no cycle-scoped flag. -/
structure DataUpdate (g : State → State) : Prop where
  flags  : ∀ (t : State) (row : DecodeRow) (b : Bool), g (t.setFlags row b) = (g t).setFlags row b
  cyc    : ∀ t : State, (g t).cyc = t.cyc
  halted : ∀ t : State, (g t).halted = t.halted

theorem dataUpdate_id : DataUpdate id := ⟨fun _ _ _ => rfl, fun _ => rfl, fun _ => rfl⟩

theorem DataUpdate.comp {g k : State → State} (hg : DataUpdate g) (hk : DataUpdate k) :
    DataUpdate (fun t => g (k t)) where
  flags t row b := by rw [hk.flags, hg.flags]
  cyc t := (hg.cyc _).trans (hk.cyc t)
  halted t := (hg.halted _).trans (hk.halted t)

theorem dataUpdate_setGpr (r : BitVec 2) (v : Word) : DataUpdate (·.setGpr r v) :=
  ⟨fun _ _ _ => rfl, fun _ => rfl, fun _ => rfl⟩

theorem dataUpdate_setXr (j : IxReg) (v : Word) : DataUpdate (·.setXr j v) :=
  ⟨fun _ _ _ => rfl, fun _ => rfl, fun _ => rfl⟩

theorem dataUpdate_setFr (f : FReg) (v : Word) : DataUpdate (·.setFr f v) :=
  ⟨fun _ _ _ => rfl, fun _ => rfl, fun _ => rfl⟩

theorem dataUpdate_setIrr (v : Word) : DataUpdate (·.setIrr v) :=
  ⟨fun _ _ _ => rfl, fun _ => rfl, fun _ => rfl⟩

theorem dataUpdate_cc (c : CC) : DataUpdate (fun t => { t with cc := c }) :=
  ⟨fun _ _ _ => rfl, fun _ => rfl, fun _ => rfl⟩

theorem dataUpdate_mem (m : Memory) : DataUpdate (fun t => { t with mem := m }) :=
  ⟨fun _ _ _ => rfl, fun _ => rfl, fun _ => rfl⟩

/-- A data update ends the cycle as it does without the flags of the decode step, which ADVANCE_PC
clears. -/
theorem DataUpdate.endCycle {g : State → State} (hg : DataUpdate g) (s : State) (row : DecodeRow)
    (ea w : Word) (n : Word) :
    (g (s.prepared row ea w)).endCycle n = (g (s.operandRead ea w)).endCycle n := by
  rw [State.prepared, hg.flags]
  rfl

/-! ## The cycle around EXECUTE (`40_cycle.md` R221) -/

section
variable {s u v : State} {row : DecodeRow} {f : OperandFields} {ea w : Word} {execute : State → Res Unit}
  {g : State → State} {k : FaultKind}

theorem cycle_ready (h : RowReady s row f ea w) (hexec : execute (s.prepared row ea w) = .ok () u) :
    cycle row true f execute s = finish (complete f.ix u) := by
  have hok := cycle_ok execute h.address h.operand
  rw [hok]
  exact congrArg (fun r => finish (Res.andThen r _)) hexec

theorem cycle_ready_fault (h : RowReady s row f ea w) (hexec : execute (s.prepared row ea w) = .fault k u) :
    cycle row true f execute s = .next (faultEntry k u) := by
  have hok := cycle_ok execute h.address h.operand
  rw [hok]
  exact congrArg (fun r => finish (Res.andThen r _)) hexec

/-- The rest of a cycle without a target after a change of data: the PC takes next_pc, the flags are
cleared. -/
theorem complete_prepared (ix : BitVec 2) (hruns : s.halted = false) (hg : DataUpdate g)
    (htarget : row.target = .none) : complete ix (g (s.prepared row ea w)) =
      .ok () ((g (s.operandRead ea w)).endCycle s.cyc.nextPc) := by
  have hcyc := hg.cyc (s.prepared row ea w)
  have hhalt : (g (s.prepared row ea w)).halted = false := (hg.halted (s.prepared row ea w)).trans hruns
  rw [complete_none ix hhalt (by rw [hcyc]; exact htarget) (by rw [hcyc]; rfl), hcyc, hg.endCycle]
  rfl

/-- An instruction without a target ends in the change of data that EXECUTE made. -/
theorem cycle_ready_none (h : RowReady s row f ea w) (hg : DataUpdate g)
    (hexec : execute (s.prepared row ea w) = .ok () (g (s.prepared row ea w))) (htarget : row.target = .none) :
    cycle row true f execute s = .next ((g (s.operandRead ea w)).endCycle s.cyc.nextPc) := by
  rw [cycle_ready h hexec, complete_prepared f.ix h.runs hg htarget, finish_ok]

/-- Any other instruction makes the change of data of its DEPOSIT after that of EXECUTE. -/
theorem cycle_ready_deposit {d : State → State} (h : RowReady s row f ea w) (hg : DataUpdate g)
    (hexec : execute (s.prepared row ea w) = .ok () (g (s.prepared row ea w))) (hd : DataUpdate d)
    (hdep : deposit f.ix (g (s.prepared row ea w)) = .ok () (d (g (s.prepared row ea w)))) :
    cycle row true f execute s = .next ((d (g (s.operandRead ea w))).endCycle s.cyc.nextPc) := by
  have hcyc := (hd.comp hg).cyc (s.prepared row ea w)
  have hruns := (hg.halted (s.prepared row ea w)).trans h.runs
  rw [cycle_ready h hexec, complete_deposit hruns hdep (by rw [hcyc]; rfl), hcyc, finish_ok,
    (hd.comp hg).endCycle]
  rfl

/-- A fault of DEPOSIT is taken in the state it leaves. -/
theorem cycle_ready_deposit_fault (h : RowReady s row f ea w)
    (hexec : execute (s.prepared row ea w) = .ok () u) (hruns : u.halted = false)
    (hdep : deposit f.ix u = .fault k v) : cycle row true f execute s = .next (faultEntry k v) := by
  rw [cycle_ready h hexec, complete_fault hruns hdep, finish_fault]

end

/-- An instruction whose target is the general register in RS1 deposits IRR there, after the other data that
EXECUTE changed. -/
theorem cycle_ready_gpr {s : State} {row : DecodeRow} {f : OperandFields} {ea w v : Word} {r : BitVec 2}
    {execute : State → Res Unit} {g : State → State} (h : RowReady s row f ea w) (hg : DataUpdate g)
    (hrs1 : ∀ t : State, (g t).rs1 = t.rs1) (hirr : ∀ t : State, (g t).irr = t.irr)
    (hexec : execute ((s.latchRs1 r).prepared row ea w) = .ok () (g (((s.latchRs1 r).prepared row ea w).setIrr v)))
    (htarget : row.target = .register) (hkind : row.kind = .gpr) :
    cycle row true f execute (s.latchRs1 r) =
      .next (((g (((s.latchRs1 r).operandRead ea w).setIrr v)).setGpr r v).endCycle s.cyc.nextPc) := by
  have hu := hg.comp (dataUpdate_setIrr v)
  have hcyc := hu.cyc ((s.latchRs1 r).prepared row ea w)
  have hdep : deposit f.ix (g (((s.latchRs1 r).prepared row ea w).setIrr v)) =
      .ok () ((g (((s.latchRs1 r).prepared row ea w).setIrr v)).setGpr r v) := by
    unfold deposit
    rw [hcyc, show ((s.latchRs1 r).prepared row ea w).cyc.target = .register from htarget,
      show ((s.latchRs1 r).prepared row ea w).cyc.kind = .gpr from hkind, hrs1, hirr]
    rfl
  exact cycle_ready_deposit (h.latched r) hu hexec (dataUpdate_setGpr r v) hdep

/-! ## Load and store (`42_load_store.md`) -/

theorem marOf_default {s : State} (h : s.cfg.marWidth = .signed 16) (a : Word) : s.marOf a = a := by
  rw [State.marOf, h, set_signed16]

theorem pcOf_default {s : State} (h : s.cfg.pcWidth = .signed 16) (a : Word) : s.pcOf a = a := by
  rw [State.pcOf, h, set_signed16]

theorem sval_marOf_unsigned {s : State} {n : Fin 16} (h : s.cfg.marWidth = .unsigned n) (a : Word) :
    sval (s.marOf a) = sval a % 2 ^ n.val := by
  rw [State.marOf, h, sval_set]
  rfl

theorem sval_pcOf_unsigned {s : State} {n : Fin 16} (h : s.cfg.pcWidth = .unsigned n) (a : Word) :
    sval (s.pcOf a) = sval a % 2 ^ n.val := by
  rw [State.pcOf, h, sval_set]
  rfl

/-- Settles O9. Both deposit IRR in the register of the R field. -/
theorem ldrAndLdaLoadTheRegister : Obligations.LdrAndLdaLoadTheRegister := by
  intro s r ix i addr ea w h
  have load : ∀ {execute : State → Res Unit} {v : Word},
      execute ((s.latchRs1 r).prepared rowLoad ea w) = .ok () (((s.latchRs1 r).prepared rowLoad ea w).setIrr v) →
      cycle rowLoad true { ix := ix, indirect := i, addr := addr } execute (s.latchRs1 r) =
        .next (((((s.latchRs1 r).operandRead ea w).setIrr v).setGpr r v).endCycle s.cyc.nextPc) :=
    fun hexec => cycle_ready_gpr h dataUpdate_id (fun _ => rfl) (fun _ => rfl) hexec rfl rfl
  exact ⟨load rfl, load rfl, fun hw => marOf_default hw ea, fun _ hw => sval_marOf_unsigned hw ea⟩

/-- Settles O11. DEPOSIT writes the index register that the selector names. -/
theorem ldxLoadsAnIndexRegister : Obligations.LdxLoadsAnIndexRegister := by
  intro s x j i addr ea w h hj
  have hdep : deposit x ((s.prepared rowLoadIndex ea w).setIrr w) =
      .ok () (((s.prepared rowLoadIndex ea w).setIrr w).setXr j w) := by
    show (match ixReg x with | some x => _ | none => _) = _
    rw [hj]
    rfl
  show cycle rowLoadIndex (checkIndex x) _ _ s = _
  rw [checkIndex_of_ixReg hj]
  exact cycle_ready_deposit (row := rowLoadIndex) h (dataUpdate_setIrr w) rfl (dataUpdate_setXr j w) hdep

/-- Settles O12. DEPOSIT writes the one word at MAR. -/
theorem stxStoresPastTheCache : Obligations.StxStoresPastTheCache := by
  intro s x j i addr ea w p h hj hp
  have hexec : (match ixReg x with
      | some xr => Res.ok () ((s.prepared rowStoreIndex ea w).setIrr ((s.prepared rowStoreIndex ea w).xr xr))
      | none => raiseFault .illegalOperationCode (s.prepared rowStoreIndex ea w)) =
      .ok () ((s.prepared rowStoreIndex ea w).setIrr (s.xr j)) := by
    rw [hj, prepared_xr]
  have hdep : deposit x ((s.prepared rowStoreIndex ea w).setIrr (s.xr j)) =
      .ok () { (s.prepared rowStoreIndex ea w).setIrr (s.xr j) with mem := writeWord s.mem p (s.xr j) } :=
    storeWord_ok _ _ hp
  have hnext : exec (.stx x i addr) s =
      .next (({ (s.operandRead ea w).setIrr (s.xr j) with mem := writeWord s.mem p (s.xr j) } : State).endCycle
        s.cyc.nextPc) := by
    show cycle rowStoreIndex (checkIndex x) _ _ s = _
    rw [checkIndex_of_ixReg hj]
    exact cycle_ready_deposit (row := rowStoreIndex) h (dataUpdate_setIrr _) hexec (dataUpdate_mem _) hdep
  exact ⟨_, hnext, rfl, fun q => readWord_writeWord s.mem p q (s.xr j)⟩

/-- A flush leaves a memory that only memory and cache decide. -/
theorem flushAddress_mem_congr {s t : State} (p : Nat) (hmem : s.mem = t.mem) (hcache : s.cache = t.cache) :
    (flushAddress s p).mem = (flushAddress t p).mem := by
  unfold flushAddress
  rw [hcache]
  cases cacheLookup t.cache p with
  | none => exact hmem
  | some w => exact congrArg (writeWord · p w) hmem

/-- A push leaves a memory and a buffer that only the policy, memory, cache and buffer decide. -/
theorem wbPush_congr {s t : State} (p : Nat) (hcfg : s.cfg = t.cfg) (hmem : s.mem = t.mem)
    (hcache : s.cache = t.cache) (hbuf : s.writeBuffer = t.writeBuffer) :
    (wbPush s p).mem = (wbPush t p).mem ∧ (wbPush s p).writeBuffer = (wbPush t p).writeBuffer := by
  unfold wbPush
  rw [hcfg, hbuf]
  cases t.cfg.wbPolicy with
  | flushEach => exact ⟨flushAddress_mem_congr p hmem hcache, rfl⟩
  | fifo =>
    cases t.writeBuffer with
    | nil => exact ⟨hmem, rfl⟩
    | cons h rest =>
      by_cases hfull : (h :: rest).length = 4
      · simp only [if_pos hfull]
        exact ⟨flushAddress_mem_congr h hmem hcache, trivial⟩
      · simp only [if_neg hfull]
        exact ⟨hmem, trivial⟩

/-- A state after a cached store at `p`: memory, cache and buffer are those that the push in `s` leaves. -/
def State.withCached (t s : State) (p : Nat) (v : Word) : State :=
  { t with
    mem := (wbPush { s with cache := cacheSet s.cache p v } p).mem
    cache := cacheSet s.cache p v
    writeBuffer := (wbPush { s with cache := cacheSet s.cache p v } p).writeBuffer }

theorem wbPush_eq_withCached {s t : State} (p : Nat) (v : Word) (hcfg : t.cfg = s.cfg) (hmem : t.mem = s.mem)
    (hcache : t.cache = s.cache) (hbuf : t.writeBuffer = s.writeBuffer) :
    wbPush { t with cache := cacheSet t.cache p v } p = t.withCached s p v := by
  obtain ⟨h1, h2⟩ := wbPush_congr (s := { t with cache := cacheSet t.cache p v })
    (t := { s with cache := cacheSet s.cache p v }) p hcfg hmem (by rw [hcache]) hbuf
  rw [wbPush_frame, h1, h2, hcache]
  rfl

theorem dataUpdate_withCached (s : State) (p : Nat) (v : Word) : DataUpdate (·.withCached s p v) :=
  ⟨fun _ _ _ => rfl, fun _ => rfl, fun _ => rfl⟩

theorem withCached_endCycle_frame (t s : State) (p : Nat) (v n : Word) :
    (t.withCached s p v).endCycle n = { t.endCycle n with
      mem := ((t.withCached s p v).endCycle n).mem, cache := ((t.withCached s p v).endCycle n).cache,
      writeBuffer := ((t.withCached s p v).endCycle n).writeBuffer } := rfl

/-- DEPOSIT of STR is the cached store of IRR at MAR. -/
theorem deposit_str (s : State) (ix : BitVec 2) (ea w v : Word) :
    deposit ix ((s.prepared rowStore ea w).setIrr v) =
      cachedInsert (s.marOf ea) v ((s.prepared rowStore ea w).setIrr v) := rfl

theorem prepared_setIrr_phys (s : State) (row : DecodeRow) (ea w v a : Word) :
    ((s.prepared row ea w).setIrr v).phys a = s.phys a := rfl

/-- STR ends with the word in the cache and its address pushed (`42_load_store.md` R302). -/
theorem exec_str_ready {s : State} {r ix : BitVec 2} {i : Bool} {addr : BitVec 5} {ea w : Word} {p : Nat}
    (h : OperandReady s true true { ix := ix, indirect := i, addr := addr } ea w)
    (hp : boundsCheck (s.phys (s.marOf ea)) = .ok p) :
    exec (.str r ix i addr) s =
      .next (((((s.latchRs1 r).operandRead ea w).setIrr (s.gpr r)).withCached s p (s.gpr r)).endCycle
        s.cyc.nextPc) := by
  have hpush := wbPush_eq_withCached (s := s) (t := ((s.latchRs1 r).prepared rowStore ea w).setIrr (s.gpr r))
    p (s.gpr r) rfl rfl rfl rfl
  have hbound : boundsCheck ((((s.latchRs1 r).prepared rowStore ea w).setIrr (s.gpr r)).phys
      ((s.latchRs1 r).marOf ea)) = .ok p := by
    rw [prepared_setIrr_phys]
    exact hp
  have hdep : deposit ix (((s.latchRs1 r).prepared rowStore ea w).setIrr (s.gpr r)) =
      .ok () ((((s.latchRs1 r).prepared rowStore ea w).setIrr (s.gpr r)).withCached s p (s.gpr r)) := by
    rw [deposit_str, cachedInsert_ok _ hbound, hpush]
  exact cycle_ready_deposit (row := rowStore) (h.latched r) (dataUpdate_setIrr (s.gpr r)) rfl
    (dataUpdate_withCached s p (s.gpr r)) hdep

/-- Settles O10. The push is the only part of the cycle that the write-buffer policy decides. -/
theorem strStoresThroughTheCache : Obligations.StrStoresThroughTheCache := by
  intro s r ix i addr ea w p h hp
  have hlookup : cacheLookup (cacheSet s.cache p (s.gpr r)) p = some (s.gpr r) := by simp
  refine ⟨_, exec_str_ready h hp, withCached_endCycle_frame _ _ _ _ _, ?_⟩
  simp only [endCycle_mem, endCycle_writeBuffer, endCycle_cache, State.withCached]
  refine ⟨trivial, fun q => cacheLookup_cacheSet s.cache p q _, fun hf => ?flushEach,
    fun hf hlen => ?fifoSpace, fun a rest x hf hbuf hlen hx => ?fifoFull⟩
  case flushEach =>
    rw [wbPush_flushEach { s with cache := cacheSet s.cache p (s.gpr r) } p (s.gpr r) hf hlookup]
    exact ⟨rfl, fun q => readWord_writeWord s.mem p q _⟩
  case fifoSpace =>
    rw [wbPush_fifo_space (s := { s with cache := cacheSet s.cache p (s.gpr r) }) p hf hlen]
    exact ⟨rfl, rfl⟩
  case fifoFull =>
    rw [wbPush_fifo_full (s := { s with cache := cacheSet s.cache p (s.gpr r) }) p hf hbuf hlen hx]
    exact ⟨rfl, fun q => readWord_writeWord s.mem a q x⟩

/-! ## Arithmetic (`43_arith.md`) -/

/-- An ALU instruction deposits the answer through IRR and keeps the condition codes that come with it. -/
theorem cycle_alu {s : State} {row : DecodeRow} {f : OperandFields} {ea w : Word} {r : BitVec 2}
    {op : Word → Word → CC → Word × CC} {b : State → Word} {y : Word} (h : RowReady s row f ea w)
    (htarget : row.target = .register) (hkind : row.kind = .gpr)
    (hb : b ((s.latchRs1 r).prepared row ea w) = y) :
    cycle row true f (aluToIrr op b) (s.latchRs1 r) =
      .next { (((((s.latchRs1 r).operandRead ea w).setIrr (op (s.gpr r) y s.cc).1).setGpr r
        (op (s.gpr r) y s.cc).1).endCycle s.cyc.nextPc) with cc := (op (s.gpr r) y s.cc).2 } := by
  have hexec : aluToIrr op b ((s.latchRs1 r).prepared row ea w) =
      .ok () { ((s.latchRs1 r).prepared row ea w).setIrr (op (s.gpr r) y s.cc).1 with
        cc := (op (s.gpr r) y s.cc).2 } := by
    subst hb
    rfl
  exact cycle_ready_gpr h (dataUpdate_cc (op (s.gpr r) y s.cc).2) (fun _ => rfl) (fun _ => rfl) hexec
    htarget hkind

/-- Settles O13. All four deposit the answer of the ALU through IRR. -/
theorem integerArithmeticWritesSumOrDifference : Obligations.IntegerArithmeticWritesSumOrDifference := by
  intro s r ix i addr immed ea w
  exact ⟨fun h => ⟨cycle_alu (row := rowLoad) h rfl rfl rfl, cycle_alu (row := rowLoad) h rfl rfl rfl⟩,
    fun h => ⟨cycle_alu (row := rowImmediate) h rfl rfl rfl, cycle_alu (row := rowImmediate) h rfl rfl rfl⟩⟩

end Sys2Proof.Machine
end

section
/-! PROOFS. Instructions without a target whose operand can be read: control transfer, register to register,
shift and rotate (`44_transfer.md`, `45_reg_reg.md`, `46_shift_rotate.md`). -/

open Sys2Proof Sys2Proof.Machine

namespace Sys2Proof.Machine

/-! ## Control transfer (`44_transfer.md` R370) -/

section
variable {s : State} {row : DecodeRow} {f : OperandFields} {ea w : Word} {execute : State → Res Unit}
  {g : State → State}

/-- An instruction that writes next_pc goes where it points. -/
theorem cycle_ready_transfer {target : Word} (h : RowReady s row f ea w) (hg : DataUpdate g)
    (hexec : execute (s.prepared row ea w) = .ok () ((g (s.prepared row ea w)).setNextPc target))
    (htarget : row.target = .none) :
    cycle row true f execute s = .next ((g (s.operandRead ea w)).endCycle target) := by
  have hcyc := hg.cyc (s.prepared row ea w)
  have hruns := (hg.halted (s.prepared row ea w)).trans h.runs
  have hnone := complete_none (s := (g (s.prepared row ea w)).setNextPc target) f.ix hruns
    (by rw [setNextPc_cyc, hcyc]; exact htarget) (by rw [setNextPc_cyc, hcyc]; rfl)
  rw [cycle_ready h hexec, hnone, finish_ok, ← hg.endCycle s row]
  rfl

/-- An instruction that decides on a jump after a change of data goes to the target or to next_pc. -/
theorem cycle_jump {taken : State → Bool} {target : Word} (h : RowReady s row f ea w) (hg : DataUpdate g)
    (hexec : execute (s.prepared row ea w) = jumpIf taken (g (s.prepared row ea w)))
    (hbranch : (g (s.prepared row ea w)).branchTarget = target) (htarget : row.target = .none) :
    cycle row true f execute s = .next ((g (s.operandRead ea w)).endCycle
      (if taken (g (s.prepared row ea w)) then target else s.cyc.nextPc)) := by
  cases ht : taken (g (s.prepared row ea w))
  · exact cycle_ready_none h hg (by rw [hexec, jumpIf, ht]; rfl) htarget
  · exact cycle_ready_transfer h hg (by rw [hexec, jumpIf, ht, hbranch]; rfl) htarget

end

/-- A conditional jump of format M: nothing but the PC and the internal registers changes. -/
theorem cycle_conditional {s : State} {f : OperandFields} {r : BitVec 2} {ea w : Word} {taken : State → Bool}
    {p : Prop} [Decidable p] (h : OperandReady s true true f ea w)
    (hp : taken ((s.latchRs1 r).prepared rowAddress ea w) = decide p) :
    cycle rowAddress true f (jumpIf taken) (s.latchRs1 r) =
      .next (((s.latchRs1 r).operandRead ea w).endCycle (if p
        then wrap16 (sval ea + (if s.cfg.branchBias then s.bias else 0)) else s.cyc.nextPc)) := by
  have hjump := cycle_jump (row := rowAddress) (taken := taken) (h.latched r) dataUpdate_id rfl rfl rfl
  rw [hjump]
  simp only [id_eq, hp, decide_eq_true_eq]
  rfl

/-- Settles O16. The four differ in their condition only. -/
theorem conditionalJumpsTakeTheTarget : Obligations.ConditionalJumpsTakeTheTarget := by
  intro s r ix i addr ea w h target htarget
  subst htarget
  exact ⟨cycle_conditional h rfl, cycle_conditional h rfl, cycle_conditional h rfl,
    cycle_conditional h Bool.decide_eq_true.symm⟩

/-- Settles O17. A transfer writes next_pc, which the PC takes reduced to its width. -/
theorem jmaJsrRfsTransferControl : Obligations.JmaJsrRfsTransferControl := by
  intro s ix i addr immed ea w
  refine ⟨fun h target htarget => ?_, fun h => ?_, fun target => ?_⟩
  · subst htarget
    exact ⟨cycle_ready_transfer (row := rowAddress) h dataUpdate_id rfl rfl,
      cycle_ready_transfer (row := rowAddress) h (dataUpdate_setGpr 3 s.cyc.nextPc) rfl rfl⟩
  · exact cycle_ready_transfer (row := rowPlain) h (dataUpdate_setGpr 0 (immed.setWidth 16)) rfl rfl
  · exact ⟨rfl, fun hw => pcOf_default hw target, fun _ hw => sval_pcOf_unsigned hw target⟩

/-- Settles O18. The jump is decided on the register that the decrement has written. -/
theorem sobDecrementsAndBranches : Obligations.SobDecrementsAndBranches := by
  intro s r ix i addr ea w h
  have hg := (dataUpdate_cc (aluSubtract (s.gpr r) 1 s.cc).2).comp
    (dataUpdate_setGpr r (wrap16 (sval (s.gpr r) - 1)))
  have hgpr : ({ ((s.latchRs1 r).prepared rowAddress ea w).setGpr r (wrap16 (sval (s.gpr r) - 1)) with
      cc := (aluSubtract (s.gpr r) 1 s.cc).2 } : State).gpr r = wrap16 (sval (s.gpr r) - 1) :=
    (gpr_setGpr ((s.latchRs1 r).prepared rowAddress ea w) r r _).trans (if_pos rfl)
  have hjump : exec (.sob r ix i addr) s = _ :=
    cycle_jump (row := rowAddress) (taken := fun u => decide (0 < sval (u.gpr r))) (h.latched r) hg rfl rfl rfl
  rw [hjump, ← aluSubtract_one_flags]
  simp only [hgpr, decide_eq_true_eq]
  rfl

/-! ## Register to register (`45_reg_reg.md`) -/

/-- An instruction without a target whose R field is latched. -/
theorem cycle_latched {s : State} {row : DecodeRow} {f : OperandFields} {r : BitVec 2} {ea w : Word}
    {execute : State → Res Unit} {g : State → State} (h : RowReady s row f ea w) (hg : DataUpdate g)
    (hexec : execute ((s.latchRs1 r).prepared row ea w) = .ok () (g ((s.latchRs1 r).prepared row ea w)))
    (htarget : row.target = .none) :
    cycle row true f execute (s.latchRs1 r) =
      .next ((g ((s.latchRs1 r).operandRead ea w)).endCycle s.cyc.nextPc) :=
  cycle_ready_none (h.latched r) hg hexec htarget

/-- Settles O21. Each is one change of data in EXECUTE. -/
theorem testAndLogicWriteTheirResult : Obligations.TestAndLogicWriteTheirResult := by
  intro s rx ry ea w h
  refine ⟨?_, cycle_latched (row := rowPlain) h (dataUpdate_setGpr rx _) rfl rfl,
    cycle_latched (row := rowPlain) h (dataUpdate_setGpr rx _) rfl rfl, ?_⟩
  · rw [← aluTestEquality_eq]
    exact cycle_latched (row := rowPlain) (r := rx) h
      (dataUpdate_cc (aluTestEquality (s.gpr rx) (s.gpr ry) s.cc)) rfl rfl
  · rw [← aluNot_value]
    exact cycle_latched (row := rowPlain) h (dataUpdate_setGpr rx _) rfl rfl

end Sys2Proof.Machine
end

section
/-! PROOFS. Multiplication, division, shift, rotation and the system instructions whose operand can be read
(`45_reg_reg.md`, `46_shift_rotate.md`, `49_system.md`). -/

open Sys2Proof Sys2Proof.Machine

namespace Sys2Proof.Machine

/-! ## Multiplication and division (`45_reg_reg.md` R410, R412) -/

theorem dataUpdate_setPair (rx : BitVec 2) (hi lo : Word) :
    DataUpdate (fun t => (t.setGpr rx hi).setGpr (rx + 1) lo) :=
  (dataUpdate_setGpr (rx + 1) lo).comp (dataUpdate_setGpr rx hi)

/-- MLT writes what the ALU answers, high half first. -/
theorem exec_mlt_ready {s : State} {rx ry : BitVec 2} {ea w hi lo : Word} {c : CC}
    (h : OperandReady s false false (plainFields s.irAddr) ea w) (hc : checkPair rx ry = true)
    (hp : aluMultiply s.cfg.mltHalf (s.gpr rx) (s.gpr ry) s.cc = ((hi, lo), c)) :
    exec (.mlt rx ry) s = .next { ((((s.latchRs1 rx).operandRead ea w).setGpr rx hi).setGpr (rx + 1)
      lo).endCycle s.cyc.nextPc with cc := c } := by
  show cycle rowPlain (checkPair rx ry) _ _ (s.latchRs1 rx) = _
  rw [hc]
  refine cycle_latched (row := rowPlain) h ((dataUpdate_cc c).comp (dataUpdate_setPair rx hi lo)) ?_ rfl
  simp only [prepared_cfg, prepared_gpr, prepared_cc, latchRs1_cfg, latchRs1_gpr_eq, latchRs1_cc, hp]

/-- Settles O19. The product is a number of 32 bits, and the pair its two digits. -/
theorem mltWritesTheProductPair : Obligations.MltWritesTheProductPair := by
  intro s rx ry ea w h hc
  cases hhalf : s.cfg.mltHalf with
  | sixteen =>
    obtain ⟨hi, lo, hp, hvalue⟩ := aluMultiply_sixteen (s.gpr rx) (s.gpr ry) s.cc
    exact ⟨hi, lo, s.cc, exec_mlt_ready h hc (hhalf ▸ hp), fun _ => ⟨rfl, hvalue⟩, nofun⟩
  | eight =>
    obtain ⟨hi, lo, hp, hhi, hlo, hvalue⟩ := aluMultiply_eight (s.gpr rx) (s.gpr ry) s.cc
    exact ⟨hi, lo, _, exec_mlt_ready h hc (hhalf ▸ hp), nofun, fun _ => ⟨hhi, hlo, hvalue, rfl⟩⟩

/-- DVD with a nonzero divisor writes quotient and remainder and no flag. -/
theorem exec_dvd_ready {s : State} {rx ry : BitVec 2} {ea w : Word}
    (h : OperandReady s false false (plainFields s.irAddr) ea w) (hc : checkPair rx ry = true)
    (hne : sval (s.gpr ry) ≠ 0) :
    exec (.dvd rx ry) s = .next (((((s.latchRs1 rx).operandRead ea w).setGpr rx
      (wrap16 (Int.tdiv (sval (s.gpr rx)) (sval (s.gpr ry))))).setGpr (rx + 1)
      (wrap16 (Int.tmod (sval (s.gpr rx)) (sval (s.gpr ry))))).endCycle s.cyc.nextPc) := by
  show cycle rowPlain (checkPair rx ry) _ _ (s.latchRs1 rx) = _
  rw [hc]
  refine cycle_latched (row := rowPlain) h (dataUpdate_setPair rx _ _) ?_ rfl
  simp only [prepared_gpr, prepared_cc, latchRs1_gpr_eq, latchRs1_cc, aluDivide_nonzero _ _ hne]
  rfl

/-- DVD with the divisor 0 sets DIVZERO alone. -/
theorem exec_dvd_zero {s : State} {rx ry : BitVec 2} {ea w : Word}
    (h : OperandReady s false false (plainFields s.irAddr) ea w) (hc : checkPair rx ry = true)
    (hzero : sval (s.gpr ry) = 0) :
    exec (.dvd rx ry) s = .next { ((s.latchRs1 rx).operandRead ea w).endCycle s.cyc.nextPc with
      cc := { s.cc with divzero := true } } := by
  show cycle rowPlain (checkPair rx ry) _ _ (s.latchRs1 rx) = _
  rw [hc]
  refine cycle_latched (row := rowPlain) h (dataUpdate_cc { s.cc with divzero := true }) ?_ rfl
  simp only [prepared_gpr, prepared_cc, latchRs1_gpr_eq, latchRs1_cc, aluDivide_zero _ _ hzero]

/-- Settles O20. Quotient and remainder are those of truncating division. -/
theorem dvdWritesQuotientAndRemainder : Obligations.DvdWritesQuotientAndRemainder := by
  intro s rx ry ea w h hc
  exact ⟨fun hne => ⟨Int.tdiv (sval (s.gpr rx)) (sval (s.gpr ry)), Int.tmod (sval (s.gpr rx)) (sval (s.gpr ry)),
    (Int.mul_tdiv_add_tmod _ _).symm, tmod_abs_lt _ hne, Int.tmod_nonneg _, tmod_nonpos _,
    exec_dvd_ready h hc hne⟩, exec_dvd_zero h hc⟩

/-! ## Shift and rotate (`46_shift_rotate.md`) -/

/-- SRC writes what the ALU's shift answers. -/
theorem exec_src_ready {s : State} {r : BitVec 2} {al lr left arith : Bool} {count : BitVec 4} {ea w : Word}
    (h : OperandReady s false false (plainFields s.irAddr) ea w)
    (hl : shiftLeftSelected s.cfg al lr = left) (ha : shiftArithSelected s.cfg al lr = arith) :
    exec (.src r al lr count) s = .next { (((s.latchRs1 r).operandRead ea w).setGpr r
      (aluShift (s.gpr r) count left arith s.cc).1).endCycle s.cyc.nextPc with
        cc := (aluShift (s.gpr r) count left arith s.cc).2 } := by
  refine cycle_latched (row := rowPlain) h ((dataUpdate_cc (aluShift (s.gpr r) count left arith s.cc).2).comp
    (dataUpdate_setGpr r (aluShift (s.gpr r) count left arith s.cc).1)) ?_ rfl
  simp only [prepared_cfg, prepared_gpr, prepared_cc, latchRs1_cfg, latchRs1_gpr_eq, latchRs1_cc, hl, ha]

/-- RRC writes what the ALU's rotation answers. -/
theorem exec_rrc_ready {s : State} {r : BitVec 2} {al lr left arith : Bool} {count : BitVec 4} {ea w : Word}
    (h : OperandReady s false false (plainFields s.irAddr) ea w)
    (hl : shiftLeftSelected s.cfg al lr = left) (ha : shiftArithSelected s.cfg al lr = arith) :
    exec (.rrc r al lr count) s = .next ((((s.latchRs1 r).operandRead ea w).setGpr r
      (aluRotate (s.gpr r) count left arith)).endCycle s.cyc.nextPc) := by
  refine cycle_latched (row := rowPlain) h (dataUpdate_setGpr r (aluRotate (s.gpr r) count left arith)) ?_ rfl
  simp only [prepared_cfg, prepared_gpr, latchRs1_cfg, latchRs1_gpr_eq, hl, ha]

/-- The A/L bit selects the arithmetic mode exactly when it has the value AL_ARITH_VALUE. -/
theorem shiftArithSelected_eq {c : Params} {al lr arith : Bool}
    (h : arith = true ↔ (if c.shiftFlagSwap then lr else al) = c.alArithValue) :
    shiftArithSelected c al lr = arith := by
  rw [Bool.eq_iff_iff, h]
  exact beq_iff_eq

/-- What `shift` answers to the left (`41_alu.md` R258, R454). -/
theorem aluShift_left (v : Word) (count : BitVec 4) (arith : Bool) (c : CC) :
    aluShift v count true arith c = (wrap16 (sval v * 2 ^ count.toNat),
      { c with overflow := c.overflow || (arith && decide (65536 ≤ uval v * 2 ^ count.toNat)) }) := by
  by_cases hn : count.toNat = 0
  · have hkept : ¬ 65536 ≤ uval v := Nat.not_le.mpr v.isLt
    simp only [aluShift, hn, if_true, pow_zero, mul_one, wrap16_sval, decide_eq_false hkept, Bool.and_false,
      Bool.or_false]
  · simp only [aluShift, if_neg hn, if_true, shiftLeft_value, lost_left_iff v (n := count.toNat) (by omega)]

/-- What `shift` answers to the right in arithmetic mode. -/
theorem aluShift_right_arith (v : Word) (count : BitVec 4) (c : CC) :
    aluShift v count false true c = (wrap16 (sval v / 2 ^ count.toNat),
      { c with underflow := c.underflow || decide (¬ 2 ^ count.toNat ∣ uval v) }) := by
  by_cases hn : count.toNat = 0
  · simp [aluShift, hn]
  · simp only [aluShift, if_neg hn, Bool.false_eq_true, if_false, if_true, sshiftRight_value,
      Nat.dvd_iff_mod_eq_zero, ne_eq]

/-- What `shift` answers to the right in logical mode. -/
theorem aluShift_right_logical (v : Word) (count : BitVec 4) (c : CC) :
    aluShift v count false false c = (v >>> count.toNat, c) := by
  by_cases hn : count.toNat = 0
  · simp [aluShift, hn]
  · simp only [aluShift, if_neg hn, Bool.false_eq_true, if_false]

/-- Settles O22. Each mode of the shift is an operation on numbers; the count 0 agrees with all of them. -/
theorem srcShiftsTheRegister : Obligations.SrcShiftsTheRegister := by
  intro s r al lr count ea w h left arith hleft harith
  refine ⟨_, _, exec_src_ready h hleft.symm (shiftArithSelected_eq harith), fun hcount => ?_, ?_, ?_, ?_⟩
  · rw [hcount]
    rfl
  · rintro rfl
    rw [aluShift_left]
    exact ⟨rfl, rfl⟩
  · rintro rfl rfl
    rw [aluShift_right_arith]
    exact ⟨rfl, rfl⟩
  · rintro rfl rfl
    rw [aluShift_right_logical]
    exact ⟨ushiftRight_value _ _, rfl⟩

/-- A rotation by any count, the count 0 included, is the circular one. -/
theorem aluRotate_rotates (v : Word) (count : BitVec 4) (left : Bool) :
    aluRotate v count left true = if left then (v <<< count.toNat) ||| (v >>> (16 - count.toNat))
      else (v >>> count.toNat) ||| (v <<< (16 - count.toNat)) := by
  by_cases hn : count.toNat = 0
  · simp [aluRotate, hn, BitVec.ushiftRight_eq_zero]
  · simp [aluRotate, hn]

/-- Settles O23. The rotation moves bit k by the count, modulo 16. -/
theorem rrcRotatesTheRegister : Obligations.RrcRotatesTheRegister := by
  intro s r al lr count ea w h left rotates hleft hrot
  refine ⟨_, exec_rrc_ready h hleft.symm (shiftArithSelected_eq hrot), ?_, ?_, ?_⟩
  · rintro rfl
    rfl
  · rintro rfl rfl k hk
    rw [aluRotate_rotates, if_pos rfl, rotateLeft_bit _ count.isLt hk]
  · rintro rfl rfl k hk
    rw [aluRotate_rotates, if_neg Bool.false_ne_true, rotateRight_bit _ count.isLt hk]

/-! ## System (`49_system.md`) -/

/-- Settles O39. EXECUTE halts the core, so DEPOSIT and ADVANCE_PC do not follow. -/
theorem hltHaltsInPlace : Obligations.HltHaltsInPlace := by
  intro s ea w h
  exact cycle_ready (row := rowPlain) (f := plainFields s.irAddr)
    (execute := fun t => .ok () { t with halted := true }) h rfl

/-! ### TRAP (`49_system.md` R574) -/

/-- The state in which EXECUTE of TRAP starts. -/
def State.trapping (s : State) (ea w : Word) : State := (s.operandRead ea w).setFlags rowPlain true

theorem exec_trap_ready {s : State} {code : BitVec 5} {ea w : Word}
    (h : OperandReady s false false (plainFields code) ea w) :
    exec (.trap code) s = finish ((if 15 < code.toNat then raiseFault .illegalTrapCode (s.trapping ea w)
      else insertWord 2 s.cyc.nextPc (s.trapping ea w)).andThen fun _ u => complete 0 u) := by
  have hprep : prepare rowPlain true true (plainFields code) s = .ok () (s.trapping ea w) :=
    prepare_ok h.address h.operand
  show finish ((prepare rowPlain true true (plainFields code) s).andThen _) = _
  rw [hprep]
  rfl

/-- The end of TRAP: ADVANCE_PC reads the address that EXECUTE has saved at logical 2. -/
theorem complete_trap {t : State} {p : Nat} {v : Word} (hruns : t.halted = false) (htarget : t.cyc.target = .none)
    (htrap : t.cyc.trapTaken = true) (hp : boundsCheck (t.phys 2) = .ok p) (hv : readWord t.mem p = v) :
    complete 0 t = .ok () (t.endCycle v) := by
  have hget : getWord 2 t = .ok v t := by
    rw [← hv]
    exact loadWord_ok t hp
  unfold complete advancePc
  rw [hruns, if_neg Bool.false_ne_true, deposit_none 0 htarget, andThen_ok, if_pos htrap, hget, andThen_ok]

/-- Settles O40. ADVANCE_PC reads back the word that EXECUTE has saved. -/
theorem trapSavesTheReturnAddress : Obligations.TrapSavesTheReturnAddress := by
  intro s code ea w h
  have hphys : (s.trapping ea w).phys 2 = s.phys 2 := rfl
  refine ⟨fun p hcode hp => ?_, fun k hcode hk => ?_, fun hcode => ?_⟩ <;> rw [exec_trap_ready h]
  · have hsave : insertWord 2 s.cyc.nextPc (s.trapping ea w) =
        .ok () { s.trapping ea w with mem := writeWord s.mem p s.cyc.nextPc } := storeWord_ok _ _ (hphys ▸ hp)
    have hend := complete_trap (t := { s.trapping ea w with mem := writeWord s.mem p s.cyc.nextPc })
      (v := s.cyc.nextPc) h.runs rfl rfl hp (by simp)
    rw [if_neg (by omega), hsave, andThen_ok, hend, finish_ok]
    exact ⟨_, rfl, rfl, fun q => readWord_writeWord s.mem p q s.cyc.nextPc⟩
  · have hsave : insertWord 2 s.cyc.nextPc (s.trapping ea w) = .fault k ((s.trapping ea w).memfault k) :=
      storeWord_fault _ _ (hphys ▸ hk)
    rw [if_neg (by omega), hsave]
    rfl
  · rw [if_pos hcode]
    rfl

end Sys2Proof.Machine
end

section
/-! PROOFS. Reset and program load (`70_reset_and_hazards.md` R700–R710): what they leave in every piece of
the state, and the words of memory they write. -/

open Sys2Proof Sys2Proof.Machine

namespace Sys2Proof.Machine

/-! ## The flush of reset, word by word -/

theorem flushAddress_cache (s : State) (p : Nat) : (flushAddress s p).cache = s.cache := by
  rw [flushAddress_frame]

/-- A flush gives its address the cached word, where there is one, and leaves every other word. -/
theorem readWord_flushAddress (s : State) (p q : Nat) :
    readWord (flushAddress s p).mem q =
      if q = p then (cacheLookup s.cache q).getD (readWord s.mem q) else readWord s.mem q := by
  unfold flushAddress
  by_cases hq : q = p
  · subst hq
    cases hc : cacheLookup s.cache q <;> simp
  · cases cacheLookup s.cache p <;> simp [hq]

/-- The whole flush gives every buffered address its cached word. -/
theorem readWord_flushAll (pending : List Nat) (q : Nat) : ∀ s : State,
    readWord (flushAll s pending).mem q =
      if q ∈ pending then (cacheLookup s.cache q).getD (readWord s.mem q) else readWord s.mem q := by
  induction pending with
  | nil => intro s; rfl
  | cons p rest ih =>
    intro s
    rw [flushAll, ih, flushAddress_cache, readWord_flushAddress]
    by_cases hq : q = p
    · subst hq
      cases cacheLookup s.cache q <;> simp
    · simp [hq]

/-! ## The reset state (`70_reset_and_hazards.md` R702) -/

theorem applyReset_refused (s : State) : (applyReset s).refused = s.refused := by
  rw [applyReset, flushAll_frame]

theorem applyReset_inputWait (s : State) : (applyReset s).inputWait = s.inputWait := by
  rw [applyReset, flushAll_frame]

theorem applyReset_runningUserProgram (s : State) :
    (applyReset s).runningUserProgram = s.runningUserProgram := by
  rw [applyReset, flushAll_frame]

theorem applyReset_cfg (s : State) : (applyReset s).cfg = s.cfg := by
  rw [applyReset, flushAll_frame]

theorem applyReset_consoleInput (s : State) : (applyReset s).consoleInput = s.consoleInput := by
  rw [applyReset, flushAll_frame]

theorem applyReset_output (s : State) : (applyReset s).output = s.output := by
  rw [applyReset, flushAll_frame]

theorem applyReset_gpr (s : State) (g : BitVec 2) : (applyReset s).gpr g = 0 := by
  simp [State.gpr, applyReset]

theorem applyReset_cc_get (s : State) (k : BitVec 2) : (applyReset s).cc.get k = false := by
  simp [CC.get, applyReset]

/-- Settles O52. Registers, flags, cache and buffer are constants of reset; the rest is what the flush, which
writes memory alone, leaves. -/
theorem resetLeavesTheTableOfR702 : Obligations.ResetLeavesTheTableOfR702 := by
  intro s
  have hmem : s.writeBuffer = [] → (applyReset s).mem = s.mem := by
    intro h
    show (flushAll s s.writeBuffer).mem = s.mem
    rw [h]
    rfl
  exact ⟨applyReset_gpr s, fun x => by cases x <;> rfl, fun f => by cases f <;> rfl, rfl, applyReset_cc_get s,
    rfl, rfl, rfl, rfl, rfl, rfl, rfl, rfl, rfl, rfl, applyReset_runningUserProgram s, rfl, rfl, hmem,
    fun q => readWord_flushAll s.writeBuffer q s, applyReset_refused s, applyReset_inputWait s,
    applyReset_cfg s, applyReset_consoleInput s, applyReset_output s⟩

/-- Settles O53. The clauses are read off the launch state. -/
theorem resetStateIsALaunchState : Obligations.ResetStateIsALaunchState := by
  refine ⟨⟨rfl, rfl, rfl, rfl, rfl, rfl, rfl, rfl⟩, ?inv, ?fixed⟩
  case inv =>
    exact
      { memory := rfl
        cache := rfl
        buffered := nofun
        depth := Nat.zero_le 4
        flushEach := fun _ => rfl
        latch := rfl
        pending := rfl
        mfr := List.mem_cons_self
        flags := fun _ _ => rfl
        held := nofun
        pcValue := holds_signed16 0
        marValue := holds_signed16 0 }
  case fixed =>
    have hpc : State.reset.pcOf 0 = 0 := pcOf_default rfl 0
    show { State.reset with pc := State.reset.pcOf 0 } = State.reset
    rw [hpc]
    rfl

/-! ## The loader (`70_reset_and_hazards.md` R710) -/

theorem loadPair_ok_iff (q : LoadPair) (s : State) : q.ok s = true ↔
    0 ≤ q.phys s ∧ q.phys s < 2048 ∧ -32768 ≤ q.value ∧ q.value ≤ 65535 := by
  simp only [LoadPair.ok, Bool.and_eq_true, decide_eq_true_eq, and_assoc]

/-- Each address holds the value of the last pair placed there. -/
theorem readWord_placePairs (pairs : List LoadPair) (p : Nat) : ∀ s : State,
    readWord (placePairs s pairs).mem p =
      match pairs.reverse.find? (fun q => decide ((q.phys s).toNat = p)) with
      | some q => wrap16 q.value
      | none => readWord s.mem p := by
  induction pairs with
  | nil => intro s; rfl
  | cons q rest ih =>
    intro s
    have hphys : ∀ (x : LoadPair) (m : Memory), x.phys { s with mem := m } = x.phys s := fun _ _ => rfl
    rw [placePairs, ih, List.reverse_cons, List.find?_append]
    simp only [hphys]
    cases hrest : rest.reverse.find? (fun x => decide ((x.phys s).toNat = p)) with
    | some x => rfl
    | none =>
      by_cases hq : (q.phys s).toNat = p
      · simp [hq]
      · simp [hq, Ne.symm hq]

/-- Settles O54. The last pair placed at an address is the first one from the end of the list. -/
theorem loadIsCheckedWhole : Obligations.LoadIsCheckedWhole := by
  intro s pairs
  refine ⟨fun ⟨q, hq, hbad⟩ => ?_, fun hgood => ?_⟩
  · have hall : ¬ pairs.all (fun q => q.ok s) = true := by
      rw [List.all_eq_true]
      intro h
      have := (loadPair_ok_iff q s).mp (h q hq)
      omega
    exact if_neg hall
  · have hall : pairs.all (fun q => q.ok s) = true :=
      List.all_eq_true.mpr fun q hq => (loadPair_ok_iff q s).mpr (hgood q hq)
    have hload : loadProgram pairs s = placePairs s pairs := if_pos hall
    rw [hload]
    exact ⟨placePairs_frame pairs s, fun p => readWord_placePairs pairs p s⟩

end Sys2Proof.Machine
end

section
/-! PROOFS. Input and output (`48_io.md`): the device instructions whose kept operand read succeeds, the wait
for the host, and the combinations without meaning. -/

open Sys2Proof Sys2Proof.Machine

namespace Sys2Proof.Machine

/-! ## EXECUTE of a device instruction -/

/-- The kept operand read of a format without an address goes to its ADDR field. -/
theorem plainFields_address (s : State) (d : BitVec 5) :
    s.effectiveAddress false false (plainFields d) = .ok (d.setWidth 16) := by
  simp [State.effectiveAddress, plainFields, State.indexedAddress, ixReg]

theorem OperandReady.plain_address {s : State} {d : BitVec 5} {ea w : Word}
    (h : OperandReady s false false (plainFields d) ea w) : ea = d.setWidth 16 :=
  Except.ok.inj (h.address.symm.trans (plainFields_address s d))

/-- A device instruction whose kept operand read succeeds is its EXECUTE. -/
theorem deviceCycle_ready {s : State} {d : BitVec 5} {r : BitVec 2} {ea w : Word}
    (execute : State → Host.Outcome State Fault Refusal)
    (h : OperandReady s false false (plainFields d) ea w) :
    deviceCycle d execute (s.latchRs1 r) = execute ((s.latchRs1 r).prepared rowPlain ea w) := by
  obtain rfl := h.plain_address
  exact deviceCycle_ok execute h.operand

/-- The end of a device instruction that completes after a change of data. -/
theorem finish_device {s : State} {r : BitVec 2} {ea w : Word} {g : State → State} (hruns : s.halted = false)
    (hg : DataUpdate g) : finish (complete 0 (g ((s.latchRs1 r).prepared rowPlain ea w))) =
      .next ((g ((s.latchRs1 r).operandRead ea w)).endCycle s.cyc.nextPc) := by
  rw [complete_prepared (s := s.latchRs1 r) (row := rowPlain) 0 hruns hg rfl, finish_ok]
  rfl

theorem dataUpdate_output (l : List Word) : DataUpdate (fun t => { t with output := l }) :=
  ⟨fun _ _ _ => rfl, fun _ => rfl, fun _ => rfl⟩

/-- Settles O37. Each combination is a change of data after the kept read, or none. -/
theorem outAndChkActOnTheirDevice : Obligations.OutAndChkActOnTheirDevice := by
  intro s r devid ea w h
  have idle : finish (complete 0 ((s.latchRs1 r).prepared rowPlain ea w)) =
      .next (((s.latchRs1 r).operandRead ea w).endCycle s.cyc.nextPc) := finish_device h.runs dataUpdate_id
  have check : ∀ v, finish (complete 0 (((s.latchRs1 r).prepared rowPlain ea w).setGpr r v)) =
      .next ((((s.latchRs1 r).operandRead ea w).setGpr r v).endCycle s.cyc.nextPc) :=
    fun v => finish_device h.runs (dataUpdate_setGpr r v)
  refine ⟨?_, ?_, ?_, ?_, ?_, ?_⟩ <;> rintro rfl
  · exact (deviceCycle_ready _ h).trans (finish_device h.runs (dataUpdate_output (s.output ++ [s.gpr r])))
  · exact (deviceCycle_ready _ h).trans idle
  · exact (deviceCycle_ready _ h).trans idle
  · exact (deviceCycle_ready _ h).trans (check s.cfg.chkKeyboard)
  · exact (deviceCycle_ready _ h).trans (check s.cfg.chkPrinter)
  · exact (deviceCycle_ready _ h).trans (check s.cfg.chkCardReader)

/-! ## IN from the keyboard (`48_io.md` R541, R545) -/

/-- The answers in range and the words they become. -/
theorem answerWord_of_range {a : Answer} {v : Word}
    (h : (∃ n : Int, a = .integer n ∧ -32768 ≤ n ∧ n ≤ 32767 ∧ v = wrap16 n) ∨
      (∃ c : Nat, a = .char c ∧ c ≤ 127 ∧ uval v = c) ∨ (a = .empty ∧ v = 10)) :
    answerWord a = some v := by
  rcases h with ⟨n, rfl, hlow, hhigh, rfl⟩ | ⟨c, rfl, hc, hv⟩ | ⟨rfl, rfl⟩
  · exact if_pos ⟨hlow, hhigh⟩
  · have hword : BitVec.ofNat 16 c = v := by rw [← hv, BitVec.ofNat_toNat, BitVec.setWidth_eq]
    rw [← hword]
    exact if_pos hc
  · rfl

/-- What the answer `v` leaves, with `rest` still unread. -/
def State.answered (s : State) (r : BitVec 2) (rest : List Answer) (v : Word) : State :=
  { s with consoleInput := rest, inputWait := none }.setGpr r v

theorem dataUpdate_answered (r : BitVec 2) (rest : List Answer) (v : Word) : DataUpdate (·.answered r rest v) :=
  ⟨fun _ _ _ => rfl, fun _ => rfl, fun _ => rfl⟩

/-- HostInput with an answer at hand finishes the cycle with it. -/
theorem receiveInput_answer {r : BitVec 2} {t : State} {a : Answer} {rest : List Answer} {v : Word}
    (hin : t.consoleInput = a :: rest) (hv : answerWord a = some v) :
    receiveInput r t = finish (complete 0 (t.answered r rest v)) := by
  unfold receiveInput
  rw [hin]
  simp only [hv]
  rfl

/-- HostInput without an answer records the request. -/
theorem receiveInput_empty {r : BitVec 2} {t : State} (hin : t.consoleInput = []) :
    receiveInput r t = .next { t with inputWait := some r } := by
  unfold receiveInput
  rw [hin]

theorem exec_in_keyboard {s : State} {r : BitVec 2} {ea w : Word}
    (h : OperandReady s false false (plainFields 0) ea w) :
    exec (.inp r 0) s = receiveInput r ((s.latchRs1 r).prepared rowPlain ea w) :=
  deviceCycle_ready _ h

/-- Settles O35. Every answer in range becomes its word, and the cycle ends with it. -/
theorem inTakesTheHostsAnswer : Obligations.InTakesTheHostsAnswer := by
  intro s r ea w a rest v h hin hv
  rw [exec_in_keyboard h, receiveInput_answer (t := (s.latchRs1 r).prepared rowPlain ea w) hin
    (answerWord_of_range hv)]
  exact finish_device h.runs (dataUpdate_answered r rest v)

/-- The register that an IN word names stands in its R field. -/
theorem rField_of_decode_in {m : OpcodeMap} {w : Word} {r : BitVec 2} {d : BitVec 5}
    (h : decodeWord m w = .ok (.inp r d)) : rField w = r := by
  have hi : Instr.inp r d = .inp (rField w) (addrField w) := (decodeWord_ok h).2
  exact (Instr.inp.inj hi).1.symm

/-- A core held in IN finishes its cycle with the first answer. -/
theorem step_held_answer {t : State} {r : BitVec 2} {a : Answer} {rest : List Answer} {v : Word}
    (hmean : t.refused = false) (hruns : t.halted = false) (hheld : t.inputWait = some r)
    (hin : t.consoleInput = a :: rest) (hv : answerWord a = some v) :
    step t = markRefused t (finish (complete 0 (t.answered r rest v))) := by
  have hresume : resumeInput r t = receiveInput r t := by
    rw [resumeInput, hin]
    rfl
  unfold step
  rw [hmean, hruns, hheld]
  exact congrArg (markRefused t) (hresume.trans (receiveInput_answer hin hv))

/-- A core held in IN takes no step before the host answers. -/
theorem step_held_empty {t : State} {r : BitVec 2} (hmean : t.refused = false) (hruns : t.halted = false)
    (hheld : t.inputWait = some r) (hin : t.consoleInput = []) : step t = .fault .awaitingInput := by
  unfold step resumeInput
  rw [hmean, hruns, hheld, hin]
  rfl

/-- The core held in IN for register `r`. -/
def State.waiting (s : State) (r : BitVec 2) : State := { s with inputWait := some r }

/-- The answer of the host overwrites what holding the core changed. -/
theorem answered_supplied (s : State) (r : BitVec 2) (a : Answer) (rest : List Answer) (v : Word) :
    (supplyAnswer a (s.waiting r)).answered r rest v = s.answered r rest v := rfl

theorem answered_endCycle (s : State) (r : BitVec 2) (rest : List Answer) (v n : Word) :
    (s.answered r rest v).endCycle n =
      { (s.setGpr r v).endCycle n with consoleInput := rest, inputWait := none } := rfl

/-- A step that keeps the mark is not replaced. -/
theorem markRefused_next (s t : State) : markRefused s (.next t) = .next t := rfl

theorem gpr_congr {s t : State} (h0 : t.r0 = s.r0) (h1 : t.r1 = s.r1) (h2 : t.r2 = s.r2) (h3 : t.r3 = s.r3)
    (g : BitVec 2) : t.gpr g = s.gpr g := by
  simp only [State.gpr, h0, h1, h2, h3]

/-- What a core held in IN for `r`, with the operand `x` of the kept read, still has of the state in which
its cycle began. -/
theorem waiting_fetched_frame (s : State) (w x : Word) (r : BitVec 2) {t : State}
    (ht : t = ((s.fetched w).prepared rowPlain 0 x).waiting r) :
    t.inputWait = some r ∧ t.pc = s.pc ∧ t.mem = s.mem ∧ t.cache = s.cache ∧ t.cc = s.cc ∧
      (∀ g, t.gpr g = s.gpr g) ∧ t.refused = s.refused ∧ t.halted = s.halted ∧
      t.consoleInput = s.consoleInput := by
  subst ht
  refine ⟨rfl, ?_, ?_, ?_, ?_, fun g => gpr_congr ?_ ?_ ?_ ?_ g, ?_, ?_, ?_⟩ <;>
    simp [State.waiting, State.prepared, State.fetched]

/-- Settles O36. The held state is the one in which EXECUTE asked; the answer finishes the cycle from
there. -/
theorem inWaitsForTheHost : Obligations.InWaitsForTheHost := by
  intro s w r x hs hw hdecode hx hin
  have hready : OperandReady (s.fetched w) false false (plainFields 0) 0 x :=
    ⟨hs.running, plainFields_address _ 0, hx⟩
  have hlatch : (s.fetched w).latchRs1 r = s.fetched w := by
    rw [← rField_of_decode_in hdecode]
    rfl
  have hexec : exec (.inp r 0) (s.fetched w) = receiveInput r ((s.fetched w).prepared rowPlain 0 x) := by
    rw [exec_in_keyboard hready, hlatch]
  have hstep : step s = .next (((s.fetched w).prepared rowPlain 0 x).waiting r) := by
    rw [step_of_reads hs hw, runDecoded_fetched_ok hdecode, hexec,
      receiveInput_empty (t := (s.fetched w).prepared rowPlain 0 x) hin, markRefused_next]
    rfl
  obtain ⟨t, ht⟩ : ∃ t, t = ((s.fetched w).prepared rowPlain 0 x).waiting r := ⟨_, rfl⟩
  obtain ⟨hwait, hpc, hmem, hcache, hcc, hgpr, hrefused, hhalted, hinput⟩ := waiting_fetched_frame s w x r ht
  rw [← ht] at hstep
  rw [hs.meaning] at hrefused
  rw [hs.running] at hhalted
  rw [hin] at hinput
  refine ⟨t, hstep, hwait, hpc, hmem, hcache, hcc, hgpr, step_held_empty hrefused hhalted hwait hinput,
    fun a v hv => ?_⟩
  have hanswer : (supplyAnswer a t).consoleInput = [a] := congrArg (· ++ [a]) hinput
  have hend := complete_prepared (s := s.fetched w) (row := rowPlain) (ea := 0) (w := x) 0 hs.running
    (dataUpdate_answered r [] v) rfl
  rw [step_held_answer (t := supplyAnswer a t) (rest := []) hrefused hhalted hwait hanswer hv, ht,
    answered_supplied, hend, finish_ok, markRefused_next, answered_endCycle]
  rfl

/-! ## Combinations without meaning (`48_io.md` R540) -/

/-- A device instruction without a meaning for its device. -/
def UndefinedDevice (i : Instr) (r : BitVec 2) (d : BitVec 5) : Prop :=
  (i = .inp r d ∧ d ≠ 0 ∧ d ≠ 2) ∨ (i = .out r d ∧ d ≠ 1 ∧ d ≠ 2) ∨ (i = .chk r d ∧ 3 ≤ d.toNat)

theorem exec_undefinedDevice {s : State} {i : Instr} {r : BitVec 2} {d : BitVec 5} {x : Word}
    (hi : UndefinedDevice i r d) (hx : s.peek (s.marOf (d.setWidth 16)) = .ok x) :
    exec i s = .refused .undefinedDevice := by
  rcases hi with ⟨rfl, h0, h2⟩ | ⟨rfl, h1, h2⟩ | ⟨rfl, h3⟩
  · refine (deviceCycle_ok (s := s.latchRs1 r) _ hx).trans ?_
    rw [if_neg h0, if_neg h2]
  · refine (deviceCycle_ok (s := s.latchRs1 r) _ hx).trans ?_
    rw [if_neg h1, if_neg h2]
  · have hnone : chkStatus s.cfg d = none := by
      have hne : ∀ e : BitVec 5, e.toNat < 3 → d ≠ e := by
        rintro e he rfl
        omega
      rw [chkStatus, if_neg (hne 0 (by decide)), if_neg (hne 1 (by decide)), if_neg (hne 2 (by decide))]
    refine (deviceCycle_ok (s := s.latchRs1 r) _ hx).trans ?_
    rw [operandRead_cfg, setFlags_cfg, latchRs1_cfg, hnone]

/-- Settles O38. EXECUTE has no case for the device, and the mark is the step's answer to that. -/
theorem undefinedDevicesAreRefused : Obligations.UndefinedDevicesAreRefused := by
  refine ⟨fun s w i r devid x hi hx => ⟨exec_undefinedDevice hi hx, fun hs hw hdecode => ?_⟩,
    fun u hu => ⟨step_of_refused hu, (applyReset_refused u).trans hu⟩⟩
  rw [step_of_reads hs hw, runDecoded_fetched_ok hdecode, exec_undefinedDevice (s := s.fetched w) hi hx]
  rfl

end Sys2Proof.Machine
end

section
/-! PROOFS. Fault entry and the faults of the operand reads (`40_cycle.md` R212, `60_exceptions.md` R610). -/

open Sys2Proof Sys2Proof.Machine

namespace Sys2Proof.Machine

/-! ## Fault entry -/

theorem mfrCode_toNat (c : Params) (k : FaultKind) : (mfrCode c k).toNat = 2 ^ (faultId c k).toNat := by
  have h : ∀ d : BitVec 2, (1#4 <<< d.toNat).toNat = 2 ^ d.toNat := by decide
  exact h (faultId c k)

theorem mfrCode_default {c : Params} (h : c.faultId = Params.default.faultId) (k : FaultKind) :
    mfrCode c k = match k with
      | .reserved => 1
      | .illegalTrapCode => 2
      | .illegalOperationCode => 4
      | .outOfBounds => 8 := by
  unfold mfrCode faultId
  rw [h]
  cases k <;> decide

/-- The bias of the fault vector, by the value of FAULT_VECTOR_BIAS. -/
theorem vectorBias_eq (s : State) : vectorBias s = match s.cfg.faultVectorBias with
    | .latchClear => if s.runningUserProgram = true ∧ s.memoryFault = .none then (s.off : Int) else 0
    | .always => if s.runningUserProgram = true then (s.off : Int) else 0
    | .never => 0 := by
  unfold vectorBias
  cases s.cfg.faultVectorBias <;> simp

theorem readWord_faultEntry (s : State) (k : FaultKind) (q : Nat) :
    readWord (faultEntry k s).mem q = if q = 5 then s.pc else readWord s.mem q := by
  rw [faultEntry_mem, readWord_writeWord]

/-- Settles O41: saving the PC at 5 leaves the vector of 1 as it was. -/
theorem faultEntrySavesAndVectors : Obligations.FaultEntrySavesAndVectors := by
  intro s k
  have hvector : readWord (writeWord s.mem 5 s.pc) 1 = readWord s.mem 1 := by
    rw [readWord_writeWord, if_neg (by decide)]
  refine ⟨mfrCode_toNat s.cfg k, fun h => mfrCode_default h k, readWord_faultEntry s k, ?_, rfl, rfl, rfl⟩
  rw [faultEntry_pc, hvector]
  exact congrArg (fun b => s.pcOf (wrap16 (sval (readWord s.mem 1) + b))) (vectorBias_eq s)

/-! ## The operand reads before EXECUTE -/

theorem OperandFaults.latched {s : State} {indexed indirect : Bool} {f : OperandFields} {k : FaultKind}
    {iar mar : Word} (h : OperandFaults s indexed indirect f k iar mar) (r : BitVec 2) :
    OperandFaults (s.latchRs1 r) indexed indirect f k iar mar := h

section
variable {s : State} {row : DecodeRow} {valid : Bool} {f : OperandFields} {k : FaultKind} {iar mar : Word}

/-- A cycle whose word passes the decode step and whose operand cannot be read never reaches EXECUTE. -/
theorem cycle_operandFaults (execute : State → Res Unit) (hvalid : valid = true)
    (h : OperandFaults s (row.indexEnabled && decide (row.kind ≠ .ixr)) row.indirectEnabled f k iar mar) :
    cycle row valid f execute s = .next (faultEntry k ({ s with iar := iar, mar := mar }.memfault k)) := by
  rw [hvalid, cycle_fault execute h]

theorem exec_trap_operandFaults {code : BitVec 5} (h : OperandFaults s false false (plainFields code) k iar mar) :
    exec (.trap code) s = .next (faultEntry k ({ s with iar := iar, mar := mar }.memfault k)) := by
  have hprepare := prepare_fault (row := rowPlain) (trap := true) h
  refine (congrArg (fun p => finish (Res.andThen p _)) hprepare).trans ?_
  rfl

end

/-- Settles O42. One cycle lemma for the forms with a memory operand; the selector checks have passed. -/
theorem unreadableOperandsFaultBeforeExecute : Obligations.UnreadableOperandsFaultBeforeExecute := by
  intro s r ix fr x i addr k iar mar
  refine ⟨fun h => ⟨?_, ?_, fun hfloat => ?_⟩, fun h hindex => ?_⟩ <;>
    simp only [List.forall_mem_cons, List.not_mem_nil, false_implies, implies_true, and_true]
  · refine ⟨?_, ?_, ?_, ?_, ?_, ?_, ?_, ?_, ?_, ?_, ?_⟩ <;> exact cycle_operandFaults _ rfl (h.latched r)
  · exact ⟨cycle_operandFaults _ rfl h, cycle_operandFaults _ rfl h⟩
  · refine ⟨?_, ?_, ?_, ?_, ?_, ?_⟩ <;> exact cycle_operandFaults _ hfloat (h.latched fr)
  · exact ⟨cycle_operandFaults _ hindex h, cycle_operandFaults _ hindex h⟩

/-- Settles O43. The same cycle lemma at the ADDR field; TRAP and the devices prepare their operand alike. -/
theorem keptReadsFaultBeforeExecute : Obligations.KeptReadsFaultBeforeExecute := by
  intro s r rx ry al lr count a k iar mar
  refine ⟨fun h => ⟨?_, ?_⟩, fun h => ⟨cycle_operandFaults _ rfl h, ?_, fun hpair => ?_⟩⟩ <;>
    simp only [List.forall_mem_cons, List.not_mem_nil, false_implies, implies_true, and_true]
  · exact ⟨cycle_operandFaults _ rfl (h.latched r), cycle_operandFaults _ rfl (h.latched r),
      deviceCycle_fault _ (h.latched r), deviceCycle_fault _ (h.latched r), deviceCycle_fault _ (h.latched r)⟩
  · exact ⟨cycle_operandFaults _ rfl h, exec_trap_operandFaults h⟩
  · refine ⟨?_, ?_, ?_, ?_, ?_, ?_⟩ <;> exact cycle_operandFaults _ rfl (h.latched rx)
  · exact ⟨cycle_operandFaults _ hpair (h.latched rx), cycle_operandFaults _ hpair (h.latched rx)⟩

end Sys2Proof.Machine
end

section
/-! PROOFS. The floating codec (`41_alu.md` section 4): the fields of a pattern, the encoder and the conversion
to an integer. -/

open Sys2Proof Sys2Proof.Machine

namespace Sys2Proof.Machine

/-! ## The two-word form (R280) -/

theorem fpFromWords_toNat (hi lo : Word) :
    (fpFromWords hi lo).toNat = hi.toNat % 256 * 256 + lo.toNat % 256 := by
  rw [fpFromWords, BitVec.toNat_append, ← Nat.shiftLeft_add_eq_or_of_lt (BitVec.isLt _)]
  simp only [BitVec.extractLsb'_toNat, Nat.shiftRight_zero, Nat.shiftLeft_eq]

theorem fpToWords_toNat (f : Word) :
    (fpToWords f).1.toNat = f.toNat / 256 ∧ (fpToWords f).2.toNat = f.toNat % 256 := by
  simp only [fpToWords, BitVec.toNat_setWidth, BitVec.extractLsb'_toNat, Nat.shiftRight_eq_div_pow]
  omega

theorem fpFromWords_fpToWords (f : Word) : fpFromWords (fpToWords f).1 (fpToWords f).2 = f := by
  obtain ⟨h1, h2⟩ := fpToWords_toNat f
  apply BitVec.eq_of_toNat_eq
  rw [fpFromWords_toNat, h1, h2]
  omega

/-- Settles O26. Both forms are compared as numbers. -/
theorem floatWordsAreTheTwoBytes : Obligations.FloatWordsAreTheTwoBytes :=
  ⟨fpFromWords_toNat, fpToWords_toNat, fpFromWords_fpToWords⟩

/-! ## The fields of a pattern (`10_state.md` R46) -/

theorem fpSign_eq (f : Word) : fpSign f = decide (32768 ≤ f.toNat) := by
  exact (BitVec.msb_eq_getLsbD_last f).symm.trans (BitVec.msb_eq_decide f)

theorem fpExp_eq (f : Word) : fpExp f = Int.bmod (f.toNat / 256) 128 := by
  rw [fpExp, BitVec.toInt_eq_toNat_bmod, BitVec.extractLsb'_toNat, Nat.shiftRight_eq_div_pow]
  push_cast
  exact Int.emod_bmod _ _

theorem fpMant_eq (f : Word) : fpMant f = f.toNat % 256 := by
  rw [fpMant, BitVec.extractLsb'_toNat, Nat.shiftRight_zero]

theorem fpValue_value (f : Word) : (fpValue f).value =
    (if 32768 ≤ f.toNat then -1 else 1) * ((f.toNat % 256 : Nat) : ℚ) *
      (2 : ℚ) ^ (Int.bmod (f.toNat / 256) 128) := by
  rw [fpValue, ExactReal.value, fpSign_eq, fpExp_eq, fpMant_eq]
  by_cases h : 32768 ≤ f.toNat <;>
    simp only [h, decide_true, decide_false, if_true, if_false, Bool.false_eq_true, Int.cast_neg,
      Int.cast_natCast, neg_one_mul, one_mul]

/-- The fields that a packed pattern spells. -/
theorem fpPack_value (neg : Bool) {e : Int} {m : Nat} (hlow : -64 ≤ e) (hhigh : e ≤ 63) (hm : m < 256) :
    (fpValue (fpPack neg e m)).value = (if neg then -1 else 1) * (m : ℚ) * (2 : ℚ) ^ e := by
  have hexp : Int.bmod (((fpPack neg e m).toNat : Int) / 256) 128 = e := by
    rw [fpPack_toNat, Int.bmod_def]
    cases neg <;> simp only [Bool.toNat_true, Bool.toNat_false] <;> split <;> omega
  have hmant : (fpPack neg e m).toNat % 256 = m := by
    rw [fpPack_toNat]
    omega
  have hsign : 32768 ≤ (fpPack neg e m).toNat ↔ neg = true := by
    rw [fpPack_toNat]
    cases neg <;> simp only [Bool.toNat_true, Bool.toNat_false, Bool.false_eq_true, iff_true, iff_false] <;> omega
  rw [fpValue_value, hexp, hmant]
  simp only [hsign]

/-- Settles O28. The fields of a pattern are digits of its number. -/
theorem floatRegisterValue : Obligations.FloatRegisterValue := by
  refine ⟨fpValue_value, fun f hm => ?_, fun neg e m hlow hhigh hm => ⟨?_, fpPack_value neg hlow hhigh hm⟩⟩
  · rw [fpValue_value, show f.toNat % 256 = 0 from hm]
    simp
  · have h := fpPack_toNat neg e m
    rw [Nat.mod_eq_of_lt hm] at h
    cases neg <;> simpa using h

/-! ## The encoder (R281) -/

theorem pow_two_pos (e : Int) : (0 : ℚ) < 2 ^ e := by positivity

/-- Multiples of one power of two are compared by their factors. -/
theorem lt_of_mul_pow_lt {a b : Nat} {e : Int} (h : (a : ℚ) * 2 ^ e < (b : ℚ) * 2 ^ e) : a < b := by
  exact_mod_cast lt_of_mul_lt_mul_right h (pow_two_pos e).le

theorem num_ne_zero_of_bound {x : ExactReal} {e : Int} (h : 128 * (2 : ℚ) ^ e ≤ |x.value|) : x.num ≠ 0 := by
  intro hzero
  rw [(value_eq_zero x).mpr hzero, abs_zero] at h
  linarith [pow_two_pos e]

theorem fpEncode_zero {x : ExactReal} (c : CC) (h : x.value = 0) : fpEncode x c = (0, c) :=
  if_pos ((value_eq_zero x).mp h)

section
variable {x : ExactReal} {e : Int} (c : CC) (hlow : 128 * (2 : ℚ) ^ e ≤ |x.value|)
  (hhigh : |x.value| < 256 * (2 : ℚ) ^ e)
include hlow hhigh

/-- The encoder on a number whose normalised exponent is `e`. -/
theorem fpEncode_normalised : fpEncode x c =
    if 63 < e then (fpPack (decide (x.value < 0)) 63 255, { c with overflow := true })
    else if x.mantissaAt (if e < -64 then -64 else e) = 0 then (0, { c with underflow := true })
    else (fpPack (decide (x.value < 0)) (if e < -64 then -64 else e) (x.mantissaAt (if e < -64 then -64 else e)),
      c) := by
  have hnum := num_ne_zero_of_bound hlow
  rw [fpEncode, if_neg hnum, log2_of_bounds x hnum e hlow hhigh]
  simp only [value_neg]

/-- The mantissa at the normalised exponent has its top bit. -/
theorem mantissaAt_normalised : 128 ≤ x.mantissaAt e ∧ x.mantissaAt e < 256 := by
  obtain ⟨h1, h2⟩ := mantissaAt_bounds x e
  have hmore : (128 : Nat) < x.mantissaAt e + 1 := lt_of_mul_pow_lt (e := e) (by push_cast; linarith)
  have hless : x.mantissaAt e < (256 : Nat) := lt_of_mul_pow_lt (e := e) (by push_cast; linarith)
  omega

theorem fpEncode_inRange (hmin : -64 ≤ e) (hmax : e ≤ 63) :
    fpEncode x c = (fpPack (decide (x.value < 0)) e (x.mantissaAt e), c) := by
  obtain ⟨htop, -⟩ := mantissaAt_normalised hlow hhigh
  have he : (if e < -64 then -64 else e) = e := if_neg (by omega)
  rw [fpEncode_normalised c hlow hhigh, if_neg (by omega), he, if_neg (by omega)]

omit hlow in
theorem mantissaAt_denormal (hmin : e < -64) : x.mantissaAt (-64) < 128 := by
  have h1 := (mantissaAt_bounds x (-64)).1
  have hstep : (2 : ℚ) ^ e ≤ 2 ^ (-65 : Int) := zpow_le_zpow_right₀ (by norm_num) (by omega)
  have hhalf : (256 : ℚ) * 2 ^ (-65 : Int) = 128 * 2 ^ (-64 : Int) := by norm_num
  exact lt_of_mul_pow_lt (b := 128) (e := -64) (by push_cast; linarith)

end

/-- Settles O29. The exponent `e` is the one that the encoder normalises to, and the mantissa the floor at it.
-/
theorem fpEncodeNormalisesAndTruncates : Obligations.FpEncodeNormalisesAndTruncates := by
  intro x c
  refine ⟨fpEncode_zero c, fun e hlow hhigh => ⟨fun hbig => ?_, fun hmin hmax => ?_, fun hsmall => ?_⟩⟩
  · rw [fpEncode_normalised c hlow hhigh, if_pos hbig]
  · obtain ⟨htop, hbyte⟩ := mantissaAt_normalised hlow hhigh
    obtain ⟨h1, h2⟩ := mantissaAt_bounds x e
    exact ⟨x.mantissaAt e, htop, hbyte, h1, h2, fpEncode_inRange c hlow hhigh hmin hmax⟩
  · obtain ⟨h1, h2⟩ := mantissaAt_bounds x (-64)
    refine ⟨x.mantissaAt (-64), mantissaAt_denormal hhigh hsmall, h1, h2, ?_⟩
    have he : (if e < -64 then -64 else e) = -64 := if_pos hsmall
    rw [fpEncode_normalised c hlow hhigh, if_neg (by omega), he]

/-! ## Exactness (R282) -/

/-- A number is its sign and its magnitude. -/
theorem sign_mul_abs (q : ℚ) : (if decide (q < 0) then -1 else 1) * |q| = q := by
  by_cases h : q < 0
  · simp [h, abs_of_neg h]
  · simp [h, abs_of_nonneg (not_lt.mp h)]

section
variable {x : ExactReal} {d : Int} (c : CC) (hlow : 128 * (2 : ℚ) ^ d ≤ |x.value|)
  (hhigh : |x.value| < 256 * (2 : ℚ) ^ d) (hmin : -64 ≤ d) (hmax : d ≤ 63)
include hlow hhigh hmin hmax

/-- In range the encoder keeps the sign and the truncated mantissa. -/
theorem fpEncode_inRange_value : (fpValue (fpEncode x c).1).value =
    (if decide (x.value < 0) then -1 else 1) * (x.mantissaAt d : ℚ) * 2 ^ d := by
  rw [fpEncode_inRange c hlow hhigh hmin hmax]
  exact fpPack_value _ hmin hmax (mantissaAt_normalised hlow hhigh).2

/-- The encoder is exact on the multiples of the last place. -/
theorem fpEncode_exact {n : Nat} (hn : |x.value| = (n : ℚ) * 2 ^ d) :
    (fpValue (fpEncode x c).1).value = x.value := by
  obtain ⟨h1, h2⟩ := mantissaAt_bounds x d
  rw [hn] at h1 h2
  have hless : n < x.mantissaAt d + 1 := lt_of_mul_pow_lt (e := d) (by push_cast; linarith)
  have hmore : x.mantissaAt d < n + 1 :=
    lt_of_mul_pow_lt (e := d) (by push_cast; linarith [pow_two_pos d])
  have heq : x.mantissaAt d = n := by omega
  rw [fpEncode_inRange_value c hlow hhigh hmin hmax, heq, mul_assoc, ← hn, sign_mul_abs]

end

/-- A short mantissa, normalised, is a multiple of the last place. -/
theorem shortMantissa_multiple {m : Nat} {e d : Int} (hm : m ≤ 255)
    (hlow : 128 * (2 : ℚ) ^ d ≤ (m : ℚ) * 2 ^ e) :
    (m : ℚ) * 2 ^ e = ((m * 2 ^ (e - d).toNat : Nat) : ℚ) * 2 ^ d := by
  have hle : d ≤ e := by
    by_contra hgt
    have hstep : (2 : ℚ) ^ (e + 1) ≤ 2 ^ d := zpow_le_zpow_right₀ (by norm_num) (by omega)
    rw [zpow_add_one₀ (by norm_num)] at hstep
    have : 256 < m + 1 := lt_of_mul_pow_lt (e := e) (by push_cast; linarith [pow_two_pos e])
    omega
  push_cast
  rw [mul_assoc, ← zpow_natCast, ← zpow_add₀ (by norm_num)]
  congr 2
  omega

/-- The exponent that normalises a positive integer. -/
theorem exists_exponent {n : Nat} (hn : n ≠ 0) :
    ∃ d : Int, d = (Nat.log2 n : Int) - 7 ∧ 128 * (2 : ℚ) ^ d ≤ n ∧ (n : ℚ) < 256 * 2 ^ d := by
  have h1 : ((2 ^ n.log2 : Nat) : ℚ) ≤ n := by exact_mod_cast Nat.log2_self_le hn
  have h2 : (n : ℚ) < ((2 ^ (n.log2 + 1) : Nat) : ℚ) := by exact_mod_cast Nat.lt_log2_self
  have hpow : (2 : ℚ) ^ ((n.log2 : Int) - 7) * 128 = 2 ^ n.log2 := by
    rw [zpow_sub₀ (by norm_num), zpow_natCast]
    norm_num
  rw [Nat.cast_pow, Nat.cast_ofNat] at h1 h2
  rw [pow_succ] at h2
  exact ⟨_, rfl, by linarith, by linarith⟩

theorem abs_ofInt_value (v : Int) : |(ExactReal.ofInt v).value| = (v.natAbs : ℚ) := by
  rw [ofInt_value, ← Int.cast_abs, Int.abs_eq_natAbs, Int.cast_natCast]

theorem fpEncode_ofInt_zero (c : CC) : fpEncode (ExactReal.ofInt 0) c = (0, c) :=
  fpEncode_zero c (by rw [ofInt_value, Int.cast_zero])

/-- No 16-bit integer sets a flag. -/
theorem fpEncode_ofInt_flags {v : Int} (c : CC) (h : v.natAbs ≤ 32768) : (fpEncode (ExactReal.ofInt v) c).2 = c := by
  by_cases hv : v.natAbs = 0
  · rw [Int.natAbs_eq_zero.mp hv, fpEncode_ofInt_zero]
  · obtain ⟨d, hd, hlow, hhigh⟩ := exists_exponent hv
    rw [← abs_ofInt_value] at hlow hhigh
    have hlog : Nat.log2 v.natAbs < 16 := (Nat.log2_lt hv).mpr (by omega)
    rw [fpEncode_inRange c hlow hhigh (by omega) (by omega)]

theorem fpEncode_shortInt {v : Int} (c : CC) (h : |v| ≤ 255) :
    (fpValue (fpEncode (ExactReal.ofInt v) c).1).value = (v : ℚ) := by
  have hbyte : v.natAbs ≤ 255 := by
    rw [Int.abs_eq_natAbs] at h
    omega
  by_cases hv : v.natAbs = 0
  · rw [Int.natAbs_eq_zero.mp hv, fpEncode_ofInt_zero, fpValue_value]
    simp
  · obtain ⟨d, hd, hlow, hhigh⟩ := exists_exponent hv
    have hlog : Nat.log2 v.natAbs < 8 := (Nat.log2_lt hv).mpr (by omega)
    have hmult := shortMantissa_multiple (e := 0) hbyte (by simpa using hlow)
    rw [← abs_ofInt_value] at hlow hhigh
    rw [zpow_zero, mul_one, ← abs_ofInt_value] at hmult
    rw [fpEncode_exact c hlow hhigh (by omega) (by omega) hmult, ofInt_value]

/-- The quotient toward zero has the magnitude of the quotient of the magnitudes. -/
theorem tdiv_pow_eq (v : Int) (d : Nat) :
    Int.tdiv v (2 ^ d) = (if v < 0 then -1 else 1) * ((v.natAbs / 2 ^ d : Nat) : Int) := by
  have hpow : ((2 : Int) ^ d) = ((2 ^ d : Nat) : Int) := by push_cast; rfl
  rw [hpow]
  by_cases hv : v < 0
  · obtain ⟨n, rfl⟩ : ∃ n : Nat, v = -(n : Int) := ⟨v.natAbs, by omega⟩
    rw [if_pos hv, Int.neg_tdiv, ← Int.ofNat_tdiv, Int.natAbs_neg, Int.natAbs_natCast, neg_one_mul]
  · obtain ⟨n, rfl⟩ : ∃ n : Nat, v = (n : Int) := ⟨v.natAbs, by omega⟩
    rw [if_neg hv, ← Int.ofNat_tdiv, Int.natAbs_natCast, one_mul]

theorem mantissaAt_ofInt (v : Int) (d : Nat) : (ExactReal.ofInt v).mantissaAt d = v.natAbs / 2 ^ d := by
  unfold ExactReal.mantissaAt ExactReal.ofInt
  rcases Nat.eq_zero_or_pos d with rfl | hd
  · simp
  · rw [if_neg (by simpa using hd.ne')]
    simp

/-- A longer integer keeps its top 8 significant bits. -/
theorem fpEncode_longInt {v : Int} {d : Nat} (c : CC) (hlow : 128 * 2 ^ d ≤ v.natAbs)
    (hhigh : v.natAbs < 256 * 2 ^ d) (hd : d ≤ 63) :
    (fpValue (fpEncode (ExactReal.ofInt v) c).1).value = ((Int.tdiv v (2 ^ d) * 2 ^ d : Int) : ℚ) := by
  have hl : 128 * (2 : ℚ) ^ (d : Int) ≤ |(ExactReal.ofInt v).value| := by
    rw [abs_ofInt_value, zpow_natCast]
    exact_mod_cast hlow
  have hh : |(ExactReal.ofInt v).value| < 256 * (2 : ℚ) ^ (d : Int) := by
    rw [abs_ofInt_value, zpow_natCast]
    exact_mod_cast hhigh
  rw [fpEncode_inRange_value c hl hh (by omega) (by omega), mantissaAt_ofInt, tdiv_pow_eq, ofInt_value,
    zpow_natCast]
  generalize v.natAbs / 2 ^ d = n
  by_cases hv : v < 0 <;> simp [hv]

/-- Settles O30. A number that is a multiple of the last place is its own floor; a longer integer keeps the
quotient. -/
theorem fpEncodeIsExactOnShortMantissas : Obligations.FpEncodeIsExactOnShortMantissas := by
  refine ⟨fun x c m e d _ hm hx hmin hmax hlow hhigh => ⟨?_, ?_⟩, fun v c hv => ⟨fpEncode_shortInt c hv, ?_⟩,
    fun v c d hlow hhigh hv => ?_⟩
  · exact fpEncode_exact c hlow hhigh hmin hmax (hx.trans (shortMantissa_multiple hm (hx ▸ hlow)))
  · rw [fpEncode_inRange c hlow hhigh hmin hmax]
  · rw [Int.abs_eq_natAbs] at hv
    exact fpEncode_ofInt_flags c (by omega)
  · rw [Int.abs_eq_natAbs] at hlow hhigh hv
    have hlow' : 128 * 2 ^ d ≤ v.natAbs := by exact_mod_cast hlow
    have hhigh' : v.natAbs < 256 * 2 ^ d := by exact_mod_cast hhigh
    have hd : d < 8 := (Nat.pow_lt_pow_iff_right (by norm_num : 1 < 2)).mp (by omega)
    exact ⟨fpEncode_longInt c hlow' hhigh' (by omega), fpEncode_ofInt_flags c (by omega)⟩

/-! ## Conversion to an integer (R283) -/

theorem natAbs_trunc (x : ExactReal) : x.trunc.natAbs = x.mantissaAt 0 := by
  unfold ExactReal.trunc ExactReal.mantissaAt
  split
  · rw [Int.natAbs_mul, Int.natAbs_pow, sub_zero]
    rfl
  · rw [Int.natAbs_tdiv, Int.natAbs_pow, zero_sub]
    rfl

theorem trunc_nonneg {x : ExactReal} (h : 0 ≤ x.num) : 0 ≤ x.trunc := by
  unfold ExactReal.trunc
  split
  · positivity
  · exact Int.tdiv_nonneg h (by positivity)

theorem trunc_nonpos {x : ExactReal} (h : x.num ≤ 0) : x.trunc ≤ 0 := by
  unfold ExactReal.trunc
  split
  · exact mul_nonpos_of_nonpos_of_nonneg h (by positivity)
  · have hneg := Int.tdiv_nonneg (neg_nonneg.mpr h) (b := 2 ^ (-x.exp).toNat) (by positivity)
    rwa [Int.neg_tdiv, neg_nonneg] at hneg

/-- Settles O31. The magnitude of the truncated value is the floor of the magnitude. -/
theorem fpToIntRoundsTowardZero : Obligations.FpToIntRoundsTowardZero := by
  intro f
  have habs : |((fpValue f).trunc : ℚ)| = ((fpValue f).mantissaAt 0 : ℚ) := by
    rw [← natAbs_trunc, ← Int.cast_abs, Int.abs_eq_natAbs, Int.cast_natCast]
  obtain ⟨h1, h2⟩ := mantissaAt_bounds (fpValue f) 0
  rw [zpow_zero, mul_one] at h1 h2
  refine ⟨(fpValue f).trunc, rfl, habs ▸ h1, habs ▸ h2, fun h => trunc_nonneg ?_, fun h => trunc_nonpos ?_⟩
  · exact not_lt.mp fun hneg => not_lt.mpr h ((value_neg _).mpr hneg)
  · rcases h.lt_or_eq with hneg | hzero
    · exact ((value_neg _).mp hneg).le
    · exact ((value_eq_zero _).mp hzero).le

end Sys2Proof.Machine
end

section
/-! PROOFS. The floating instructions around their operand pair (`47_float_vector.md` sections 2, 3 and 5). -/

open Sys2Proof Sys2Proof.Machine

namespace Sys2Proof.Machine

/-! ## The pair at the effective address -/

theorem secondWord_prepared {s : State} {row : DecodeRow} {ea w lo : Word} (h : s.peek (nextWord ea) = .ok lo) :
    secondWord (s.prepared row ea w) = .ok lo (s.prepared row ea w) :=
  getWord_ok h

theorem secondWord_prepared_fault {s : State} {row : DecodeRow} {ea w : Word} {k : FaultKind}
    (h : s.peek (nextWord ea) = .error k) :
    secondWord (s.prepared row ea w) = .fault k ((s.prepared row ea w).memfault k) :=
  getWord_fault h

theorem withFReg_named {fr : BitVec 2} {j : FReg} (h : fReg fr = some j) (m : FReg → State → Res Unit)
    (t : State) : withFReg fr m t = m j t := by
  rw [withFReg, h]

theorem faultEntry_memfault_setFlags (s : State) (row : DecodeRow) (b : Bool) (k : FaultKind) :
    faultEntry k ((s.setFlags row b).memfault k) = faultEntry k (s.memfault k) := rfl

/-- Fault entry clears the decode flags that a change of data has left alone. -/
theorem DataUpdate.faultEntry_memfault {g : State → State} (hg : DataUpdate g) (s : State) (row : DecodeRow)
    (ea w : Word) (k : FaultKind) : faultEntry k ((g (s.prepared row ea w)).memfault k) =
      faultEntry k ((g (s.operandRead ea w)).memfault k) := by
  rw [State.prepared, hg.flags, faultEntry_memfault_setFlags]

theorem faultEntry_prepared_memfault (s : State) (row : DecodeRow) (ea w : Word) (k : FaultKind) :
    faultEntry k ((s.prepared row ea w).memfault k) = faultEntry k ((s.operandRead ea w).memfault k) :=
  dataUpdate_id.faultEntry_memfault s row ea w k

/-! ## LDFR and STFR -/

/-- DEPOSIT of LDFR, in the state that EXECUTE leaves. -/
theorem deposit_ldfr {s : State} {fr ix : BitVec 2} {j : FReg} (ea w v : Word) (hj : fReg fr = some j) :
    deposit ix (((s.latchRs1 fr).prepared rowLoadFloat ea w).setIrr v) =
      (getWord ea (((s.latchRs1 fr).prepared rowLoadFloat ea w).setIrr v)).andThen fun hi t =>
        (getWord (wrap16 (sval t.iar + 1)) t).andThen fun lo u => .ok () (u.setFr j (fpFromWords hi lo)) := by
  show (match fReg fr with | some f => _ | none => _) = _
  rw [hj]
  rfl

/-- Settles O24. DEPOSIT reads both words again. -/
theorem ldfrLoadsThePair : Obligations.LdfrLoadsThePair := by
  intro s fr ix j i addr ea w hi lo h hj hhi hlo
  have hdep : deposit ix (((s.latchRs1 fr).prepared rowLoadFloat ea w).setIrr w) =
      .ok () ((((s.latchRs1 fr).prepared rowLoadFloat ea w).setIrr w).setFr j (fpFromWords hi lo)) := by
    have hfirst : getWord ea (((s.latchRs1 fr).prepared rowLoadFloat ea w).setIrr w) = .ok hi _ := getWord_ok hhi
    have hsecond : getWord (nextWord ea) (((s.latchRs1 fr).prepared rowLoadFloat ea w).setIrr w) = .ok lo _ :=
      getWord_ok hlo
    rw [deposit_ldfr ea w w hj, hfirst, andThen_ok]
    exact congrArg (fun r => Res.andThen r _) hsecond
  show cycle rowLoadFloat (checkFloat fr) _ _ _ = _
  rw [checkFloat_of_fReg hj]
  exact cycle_ready_deposit (row := rowLoadFloat) (h.latched fr) (dataUpdate_setIrr w) rfl
    (dataUpdate_setFr j (fpFromWords hi lo)) hdep

/-- DEPOSIT of STFR, in the state that EXECUTE leaves. -/
theorem deposit_stfr {s : State} {fr ix : BitVec 2} {j : FReg} (ea w v : Word) (hj : fReg fr = some j) :
    deposit ix (((s.latchRs1 fr).prepared rowStoreFloat ea w).setIrr v) =
      (insertWord (s.marOf ea) (fpToWords (s.fr j)).1
        (((s.latchRs1 fr).prepared rowStoreFloat ea w).setIrr v)).andThen fun _ t =>
          insertWord (wrap16 (sval t.mar + 1)) (fpToWords (t.fr j)).2 t := by
  show (match fReg fr with | some f => _ | none => _) = _
  rw [hj]
  rfl

theorem exec_stfr_row {s : State} {fr ix : BitVec 2} {j : FReg} {i : Bool} {addr : BitVec 5}
    (hj : fReg fr = some j) : exec (.stfr fr ix i addr) s =
      cycle rowStoreFloat true { ix := ix, indirect := i, addr := addr }
        (fun t => .ok () (t.setIrr (t.fr j))) (s.latchRs1 fr) := by
  have hexec : withFReg fr (fun f t => Res.ok () { t with irr := t.fr f }) =
      fun t => .ok () (t.setIrr (t.fr j)) := funext fun t => withFReg_named hj _ t
  show cycle rowStoreFloat (checkFloat fr) _ _ _ = _
  rw [checkFloat_of_fReg hj, hexec]

/-- The state between the two stores of STFR. -/
def State.halfStored (s : State) (row : DecodeRow) (ea w v : Word) (m : Memory) : State :=
  { (s.prepared row ea w).setIrr v with mem := m }

@[simp] theorem halfStored_mar (s : State) (row : DecodeRow) (ea w v : Word) (m : Memory) :
    (s.halfStored row ea w v m).mar = s.marOf ea := rfl

@[simp] theorem halfStored_fr (s : State) (row : DecodeRow) (ea w v : Word) (m : Memory) (j : FReg) :
    (s.halfStored row ea w v m).fr j = s.fr j := rfl

@[simp] theorem halfStored_phys (s : State) (row : DecodeRow) (ea w v : Word) (m : Memory) (a : Word) :
    (s.halfStored row ea w v m).phys a = s.phys a := rfl

theorem faultEntry_halfStored (s : State) (row : DecodeRow) (ea w v : Word) (m : Memory) (k : FaultKind) :
    faultEntry k ((s.halfStored row ea w v m).memfault k) =
      faultEntry k (({ (s.operandRead ea w).setIrr v with mem := m } : State).memfault k) :=
  ((dataUpdate_mem m).comp (dataUpdate_setIrr v)).faultEntry_memfault s row ea w k

theorem deposit_stfr_first {s : State} {fr ix : BitVec 2} {j : FReg} {ea w v : Word} {p : Nat}
    (hj : fReg fr = some j) (hp : boundsCheck (s.phys (s.marOf ea)) = .ok p) :
    deposit ix (((s.latchRs1 fr).prepared rowStoreFloat ea w).setIrr v) =
      insertWord (nextWord (s.marOf ea)) (fpToWords (s.fr j)).2
        ((s.latchRs1 fr).halfStored rowStoreFloat ea w v (writeWord s.mem p (fpToWords (s.fr j)).1)) := by
  have hfirst : insertWord (s.marOf ea) (fpToWords (s.fr j)).1
      (((s.latchRs1 fr).prepared rowStoreFloat ea w).setIrr v) =
        .ok () ((s.latchRs1 fr).halfStored rowStoreFloat ea w v (writeWord s.mem p (fpToWords (s.fr j)).1)) :=
    storeWord_ok _ _ hp
  rw [deposit_stfr ea w v hj, hfirst, andThen_ok, halfStored_mar, halfStored_fr]
  rfl

theorem readWord_two_stores (m : Memory) (p q a : Nat) (v w : Word) :
    readWord (writeWord (writeWord m p v) q w) a = if a = q then w else if a = p then v else readWord m a := by
  rw [readWord_writeWord, readWord_writeWord]

/-- Settles O25: the first store is made in either case, and the second one reads its address from MAR. -/
theorem stfrStoresThePair : Obligations.StfrStoresThePair := by
  intro s fr ix j i addr ea w p h hj hp
  rw [exec_stfr_row hj]
  have hfirst := deposit_stfr_first (ix := ix) (w := w) (v := s.fr j) hj hp
  rw [insertWord_eq, halfStored_phys, latchRs1_phys] at hfirst
  constructor
  · intro q hq
    rw [hq] at hfirst
    exact ⟨_, cycle_ready_deposit (row := rowStoreFloat) (h.latched fr) (dataUpdate_setIrr (s.fr j)) rfl
      (dataUpdate_mem (writeWord (writeWord s.mem p (fpToWords (s.fr j)).1) q (fpToWords (s.fr j)).2)) hfirst,
      rfl, fun a => readWord_two_stores s.mem p q a _ _⟩
  · intro k hk
    rw [hk] at hfirst
    have hnext := cycle_ready_deposit_fault (row := rowStoreFloat)
      (execute := fun t => .ok () (t.setIrr (t.fr j)))
      (u := ((s.latchRs1 fr).prepared rowStoreFloat ea w).setIrr (s.fr j)) (h.latched fr) rfl h.runs hfirst
    rw [faultEntry_halfStored] at hnext
    exact ⟨_, hnext, rfl, fun a => readWord_writeWord s.mem p a _⟩

/-! ## FADD, FSUB and CNVRT -/

theorem cycle_floatArith {s : State} {fr : BitVec 2} {j : FReg} {f : OperandFields} {ea hi lo : Word}
    {op : ExactReal → ExactReal → ExactReal} {y : Word × CC} (h : OperandReady s true true f ea hi)
    (hj : fReg fr = some j) (hlo : s.peek (nextWord ea) = .ok lo)
    (hy : y = encodeReal s.cfg.fpEncoder (op (fpValue (s.fr j)) (fpValue (fpFromWords hi lo))) s.cc) :
    cycle rowFloat (checkFloat fr) f (withFReg fr (floatArith op)) (s.latchRs1 fr) =
      .next { (((s.latchRs1 fr).operandRead ea hi).setFr j y.1).endCycle s.cyc.nextPc with cc := y.2 } := by
  have hexec : withFReg fr (floatArith op) ((s.latchRs1 fr).prepared rowFloat ea hi) =
      .ok () { ((s.latchRs1 fr).prepared rowFloat ea hi).setFr j y.1 with cc := y.2 } := by
    subst hy
    rw [withFReg_named hj, floatArith, secondWord_prepared (s := s.latchRs1 fr) hlo, andThen_ok]
    simp only [prepared_fr, prepared_mbr, prepared_cfg, prepared_cc, latchRs1_fr_eq, latchRs1_cfg, latchRs1_cc]
  rw [checkFloat_of_fReg hj]
  exact cycle_latched (row := rowFloat) h ((dataUpdate_cc y.2).comp (dataUpdate_setFr j y.1)) hexec rfl

/-- No encoder writes DIVZERO or EQUAL. -/
theorem encodeReal_keeps (e : FpEncoder) (x : ExactReal) (c : CC) :
    (encodeReal e x c).2.divzero = c.divzero ∧ (encodeReal e x c).2.equal = c.equal := by
  cases e with
  | standard =>
    unfold encodeReal fpEncode
    dsimp only
    split_ifs <;> exact ⟨rfl, rfl⟩
  | other n => exact ⟨rfl, rfl⟩

/-- Settles O27. The exact operations are exact on values, and no encoder reads more than a value. -/
theorem floatArithmeticEncodesTheExactResult : Obligations.FloatArithmeticEncodesTheExactResult := by
  intro s fr ix j i addr ea hi lo h hj hlo encode hencode
  subst hencode
  refine ⟨⟨_, add_value _ _, cycle_floatArith h hj hlo rfl⟩, ⟨_, sub_value _ _, cycle_floatArith h hj hlo rfl⟩,
    fun hstd => ?_, fun x y hxy hother => ?_, fun x c => ?_⟩
  · rw [hstd]
    rfl
  · cases he : s.cfg.fpEncoder with
    | standard => exact absurd he hother
    | other n => simp only [encodeReal, hxy]
  · obtain ⟨hdivzero, hequal⟩ := encodeReal_keeps s.cfg.fpEncoder x c
    have hsticky := encodeReal_sticky s.cfg.fpEncoder x c
    exact ⟨hdivzero, hequal, hsticky.overflow, hsticky.underflow⟩

/-- EXECUTE of CNVRT (`47_float_vector.md` R496). -/
def cnvrtExecute (r : BitVec 2) (t : State) : Res Unit :=
  if sval (t.gpr r) = 0 then
    (secondWord t).andThen fun lo u => .ok () (u.setGpr r (fpToInt (fpFromWords u.mbr lo)))
  else if sval (t.gpr r) = 1 then
    .ok () { t.setFr .fr0 (encodeReal t.cfg.fpEncoder (ExactReal.ofInt (sval t.mbr)) t.cc).1 with
      cc := (encodeReal t.cfg.fpEncoder (ExactReal.ofInt (sval t.mbr)) t.cc).2 }
  else raiseFault .illegalOperationCode t

theorem exec_cnvrt_row (s : State) (r ix : BitVec 2) (i : Bool) (addr : BitVec 5) :
    exec (.cnvrt r ix i addr) s =
      cycle rowAddress true { ix := ix, indirect := i, addr := addr } (cnvrtExecute r) (s.latchRs1 r) := rfl

theorem cnvrtExecute_toInt {r : BitVec 2} {t : State} (h : sval (t.gpr r) = 0) : cnvrtExecute r t =
    (secondWord t).andThen fun lo u => .ok () (u.setGpr r (fpToInt (fpFromWords u.mbr lo))) := if_pos h

theorem cnvrtExecute_toFloat {r : BitVec 2} {t : State} (h : sval (t.gpr r) = 1) : cnvrtExecute r t =
    .ok () { t.setFr .fr0 (encodeReal t.cfg.fpEncoder (ExactReal.ofInt (sval t.mbr)) t.cc).1 with
      cc := (encodeReal t.cfg.fpEncoder (ExactReal.ofInt (sval t.mbr)) t.cc).2 } := by
  rw [cnvrtExecute, if_neg (by omega), if_pos h]

theorem cnvrtExecute_other {r : BitVec 2} {t : State} (h0 : sval (t.gpr r) ≠ 0) (h1 : sval (t.gpr r) ≠ 1) :
    cnvrtExecute r t = raiseFault .illegalOperationCode t := by
  rw [cnvrtExecute, if_neg h0, if_neg h1]

theorem faultEntry_prepared_raised (s : State) (row : DecodeRow) (ea w : Word) (k k' : FaultKind) :
    faultEntry k { s.prepared row ea w with
      cyc := { (s.prepared row ea w).cyc with pendingFault := some k' } } = faultEntry k (s.operandRead ea w) := by
  rw [faultEntry_cyc_update]
  exact faultEntry_cyc_update k (s.operandRead ea w) _

/-- Settles O34. EXECUTE has one case for each value of F. -/
theorem cnvrtConvertsByTheFValue : Obligations.CnvrtConvertsByTheFValue := by
  intro s r ix i addr ea w h
  simp only [exec_cnvrt_row]
  refine ⟨fun lo hzero hlo => ?_, fun hone => ?_, fun hstd => ?_, fun hzero hone => ?_⟩
  · have hexec : cnvrtExecute r ((s.latchRs1 r).prepared rowAddress ea w) =
        .ok () (((s.latchRs1 r).prepared rowAddress ea w).setGpr r (fpToInt (fpFromWords w lo))) := by
      rw [cnvrtExecute_toInt (t := (s.latchRs1 r).prepared rowAddress ea w) hzero,
        secondWord_prepared (s := s.latchRs1 r) hlo, andThen_ok, prepared_mbr]
    exact cycle_latched (row := rowAddress) h (dataUpdate_setGpr r (fpToInt (fpFromWords w lo))) hexec rfl
  · have hexec := cnvrtExecute_toFloat (t := (s.latchRs1 r).prepared rowAddress ea w) hone
    simp only [prepared_mbr, prepared_cfg, prepared_cc, latchRs1_cfg, latchRs1_cc] at hexec
    exact cycle_latched (row := rowAddress) h ((dataUpdate_cc _).comp (dataUpdate_setFr .fr0 _)) hexec rfl
  · obtain ⟨hmin, hmax⟩ := sval_bounds w
    have hflags : (fpEncode (ExactReal.ofInt (sval w)) s.cc).2 = s.cc := fpEncode_ofInt_flags s.cc (by omega)
    rw [hstd]
    exact Prod.ext rfl hflags
  · have hexec := cnvrtExecute_other (t := (s.latchRs1 r).prepared rowAddress ea w) hzero hone
    rw [cycle_ready_fault (row := rowAddress) (h.latched r) hexec, faultEntry_prepared_raised]

/-! ## A second word that cannot be read -/

/-- A floating instruction that reads the second word takes its fault with nothing written. -/
theorem cycle_secondWord_fault {s : State} {fr : BitVec 2} {f : OperandFields} {ea w : Word} {k : FaultKind}
    {m : FReg → State → Res Unit} (h : OperandReady s true true f ea w) (hfloat : checkFloat fr = true)
    (hm : ∀ j, m j ((s.latchRs1 fr).prepared rowFloat ea w) =
      .fault k (((s.latchRs1 fr).prepared rowFloat ea w).memfault k)) :
    cycle rowFloat (checkFloat fr) f (withFReg fr m) (s.latchRs1 fr) =
      .next (faultEntry k (((s.latchRs1 fr).operandRead ea w).memfault k)) := by
  obtain ⟨j, hj⟩ := fReg_of_checkFloat hfloat
  rw [hfloat, cycle_ready_fault (row := rowFloat) (h.latched fr) ((withFReg_named hj _ _).trans (hm j)),
    faultEntry_prepared_memfault]

theorem floatArith_fault {s : State} {ea w : Word} {row : DecodeRow} {k : FaultKind}
    (op : ExactReal → ExactReal → ExactReal) (j : FReg) (hk : s.peek (nextWord ea) = .error k) :
    floatArith op j (s.prepared row ea w) = .fault k ((s.prepared row ea w).memfault k) := by
  rw [floatArith, secondWord_prepared_fault hk, andThen_fault]

theorem vectorArith_fault {s : State} {ea w : Word} {row : DecodeRow} {k : FaultKind}
    (op : Word → Word → CC → Word × CC) (j : FReg) (hk : s.peek (nextWord ea) = .error k) :
    vectorArith op j (s.prepared row ea w) = .fault k ((s.prepared row ea w).memfault k) := by
  rw [vectorArith, secondWord_prepared_fault hk, andThen_fault]

theorem faultEntry_setIrr_memfault (s : State) (row : DecodeRow) (ea w v : Word) (k : FaultKind) :
    faultEntry k (((s.prepared row ea w).setIrr v).memfault k) =
      faultEntry k (((s.operandRead ea w).setIrr v).memfault k) :=
  (dataUpdate_setIrr v).faultEntry_memfault s row ea w k

/-- Settles O44. EXECUTE stops at the read of the second word; LDFR stops there in DEPOSIT. -/
theorem secondWordReadFaultsWriteNothing : Obligations.SecondWordReadFaultsWriteNothing := by
  intro s r fr ix i addr ea w k h hk
  have hk' : (s.latchRs1 fr).peek (nextWord ea) = .error k := hk
  refine ⟨fun hfloat => ⟨?_, fun hi hhi => ?_⟩, fun hzero => ?_⟩
  · simp only [List.forall_mem_cons, List.not_mem_nil, false_implies, implies_true, and_true]
    exact ⟨cycle_secondWord_fault h hfloat fun j => floatArith_fault _ j hk',
      cycle_secondWord_fault h hfloat fun j => floatArith_fault _ j hk',
      cycle_secondWord_fault h hfloat fun j => vectorArith_fault _ j hk',
      cycle_secondWord_fault h hfloat fun j => vectorArith_fault _ j hk'⟩
  · obtain ⟨j, hj⟩ := fReg_of_checkFloat hfloat
    have hfirst : getWord ea (((s.latchRs1 fr).prepared rowLoadFloat ea w).setIrr w) = .ok hi _ := getWord_ok hhi
    have hsecond : getWord (nextWord ea) (((s.latchRs1 fr).prepared rowLoadFloat ea w).setIrr w) = .fault k _ :=
      getWord_fault hk
    have hdep := deposit_ldfr (s := s) (ix := ix) ea w w hj
    rw [hfirst, andThen_ok] at hdep
    have hdep' := hdep.trans (congrArg (fun r => Res.andThen r _) hsecond)
    show cycle rowLoadFloat (checkFloat fr) _ _ _ = _
    rw [hfloat, cycle_ready_deposit_fault (row := rowLoadFloat)
      (u := ((s.latchRs1 fr).prepared rowLoadFloat ea w).setIrr w) (h.latched fr) rfl h.runs hdep',
      faultEntry_setIrr_memfault]
  · have hexec : cnvrtExecute r ((s.latchRs1 r).prepared rowAddress ea w) =
        .fault k (((s.latchRs1 r).prepared rowAddress ea w).memfault k) := by
      rw [cnvrtExecute_toInt (t := (s.latchRs1 r).prepared rowAddress ea w) hzero,
        secondWord_prepared_fault (s := s.latchRs1 r) hk, andThen_fault]
    rw [exec_cnvrt_row, cycle_ready_fault (row := rowAddress) (h.latched r) hexec, faultEntry_prepared_memfault]

end Sys2Proof.Machine
end

section
/-! PROOFS. The element loop of VADD and VSUB (`47_float_vector.md` R492): what each element leaves behind it,
and where a fault stops the loop. -/

open Sys2Proof Sys2Proof.Machine

namespace Sys2Proof.Machine

theorem peek_ok_iff {s : State} {a w : Word} :
    s.peek a = .ok w ↔ ∃ p : Nat, s.phys a = p ∧ p < 2048 ∧ readWord s.mem p = w := by
  constructor
  · intro h
    obtain ⟨p, hp, hlt, hw⟩ := peek_ok_bounds h
    have := boundsCheck_ok.mp hp
    exact ⟨p, by omega, hlt, hw⟩
  · rintro ⟨p, hp, hlt, hw⟩
    have hb : boundsCheck (s.phys a) = .ok p := boundsCheck_ok.mpr (by omega)
    rw [State.peek, hb, ← hw]

/-! ## The operation on one element -/

/-- An operation whose result the condition codes do not decide, and which raises OVERFLOW and UNDERFLOW only. -/
structure ElementOp (op : Word → Word → CC → Word × CC) : Prop where
  result : ∀ (a b : Word) (c d : CC), (op a b c).1 = (op a b d).1
  flags  : ∀ (a b : Word) (c : CC), (op a b c).2 =
    { c with
      overflow := c.overflow || (op a b CC.clear).2.overflow
      underflow := c.underflow || (op a b CC.clear).2.underflow }

theorem elementOp_aluAdd : ElementOp aluAdd := ⟨fun _ _ _ _ => rfl, fun _ _ _ => rfl⟩

theorem elementOp_aluSubtract : ElementOp aluSubtract := ⟨fun _ _ _ _ => rfl, fun _ _ _ => rfl⟩

/-! ## A run whose elements can be read -/

section
variable {op : Word → Word → CC → Word × CC} {b1 b2 : Word} {t : State} {n : Nat}
  (hop : ElementOp op)
  (h1 : ∀ k < n, ∃ v, t.peek (vectorAddress b1 k) = .ok v)
  (h2 : ∀ k < n, ∃ v, t.peek (vectorAddress b2 k) = .ok v)
include h1 h2

/-- One element of the run: it reads its two words, and under FLUSH_EACH changes memory and cache at the address
of its first word. -/
theorem vectorStates_succ {k : Nat} (hk : k < n) :
    ∃ (v1 v2 : Word) (p : Nat), (vectorStates op b1 b2 t k).peek (vectorAddress b1 k) = .ok v1 ∧
      (vectorStates op b1 b2 t k).peek (vectorAddress b2 k) = .ok v2 ∧
      t.phys (vectorAddress b1 k) = p ∧
      (vectorStates op b1 b2 t (k + 1)).cc = (op v1 v2 (vectorStates op b1 b2 t k).cc).2 ∧
      (t.cfg.wbPolicy = .flushEach → ∀ q : Nat,
        readWord (vectorStates op b1 b2 t (k + 1)).mem q =
          (if q = p then (op v1 v2 (vectorStates op b1 b2 t k).cc).1
            else readWord (vectorStates op b1 b2 t k).mem q) ∧
        cacheLookup (vectorStates op b1 b2 t (k + 1)).cache q =
          if q = p then some (op v1 v2 (vectorStates op b1 b2 t k).cc).1
          else cacheLookup (vectorStates op b1 b2 t k).cache q) := by
  have hframe := vectorStates_frame op b1 b2 t n h1 h2 k hk.le
  obtain ⟨v1, hv1⟩ := hframe.peek (h1 k hk).choose_spec
  obtain ⟨v2, hv2⟩ := hframe.peek (h2 k hk).choose_spec
  obtain ⟨u, p, hp, helement, -, hcc, hflush⟩ := vectorElement_ok op _ _ v1 v2 _ hv1 hv2
  have hu : vectorStates op b1 b2 t (k + 1) = u := by
    show (vectorElement op _ _ _).state = u
    rw [helement]
    rfl
  have hphys : t.phys (vectorAddress b1 k) = p := by
    rw [hframe.phys] at hp
    have := boundsCheck_ok.mp hp
    omega
  subst hu
  refine ⟨v1, v2, p, hv1, hv2, hphys, hcc, fun hf q => ?_⟩
  obtain ⟨hmem, hcache⟩ := hflush (by rw [hframe.cfg, hf])
  exact ⟨hmem q, hcache q⟩

/-- The elements before `k` change nothing but their own addresses, under FLUSH_EACH. -/
theorem vectorStates_untouched (hf : t.cfg.wbPolicy = .flushEach) {k : Nat} (hk : k ≤ n) {q : Nat}
    (hq : ∀ l < k, t.phys (vectorAddress b1 l) ≠ q) :
    readWord (vectorStates op b1 b2 t k).mem q = readWord t.mem q ∧
      cacheLookup (vectorStates op b1 b2 t k).cache q = cacheLookup t.cache q := by
  induction k with
  | zero => exact ⟨rfl, rfl⟩
  | succ k ih =>
    obtain ⟨v1, v2, p, -, -, hp, -, hstep⟩ := vectorStates_succ (op := op) h1 h2 hk
    have hne : q ≠ p := by
      rintro rfl
      exact hq k (Nat.lt_succ_self k) hp
    obtain ⟨hmem, hcache⟩ := hstep hf q
    rw [hmem, hcache, if_neg hne, if_neg hne]
    exact ih (by omega) fun l hl => hq l (by omega)

theorem vectorStates_peek_untouched (hf : t.cfg.wbPolicy = .flushEach) {k : Nat} (hk : k ≤ n) {a v : Word}
    (ha : ∀ l < k, t.phys (vectorAddress b1 l) ≠ t.phys a) (hv : t.peek a = .ok v) :
    (vectorStates op b1 b2 t k).peek a = .ok v := by
  obtain ⟨p, hp, hlt, rfl⟩ := peek_ok_iff.mp hv
  rw [hp] at ha
  refine peek_ok_iff.mpr ⟨p, ?_, hlt, (vectorStates_untouched h1 h2 hf hk ha).1⟩
  rw [(vectorStates_frame op b1 b2 t n h1 h2 k hk).phys, hp]

include hop

/-- The elements before `k` clear no flag and write OVERFLOW and UNDERFLOW only. -/
theorem vectorStates_flags {k : Nat} (hk : k ≤ n) :
    (vectorStates op b1 b2 t k).cc.divzero = t.cc.divzero ∧ (vectorStates op b1 b2 t k).cc.equal = t.cc.equal ∧
      (t.cc.overflow = true → (vectorStates op b1 b2 t k).cc.overflow = true) ∧
      (t.cc.underflow = true → (vectorStates op b1 b2 t k).cc.underflow = true) := by
  induction k with
  | zero => exact ⟨rfl, rfl, id, id⟩
  | succ k ih =>
    obtain ⟨hdivzero, hequal, hover, hunder⟩ := ih (by omega)
    obtain ⟨v1, v2, p, -, -, -, hcc, -⟩ := vectorStates_succ (op := op) h1 h2 hk
    rw [hcc, hop.flags]
    refine ⟨hdivzero, hequal, fun h => ?_, fun h => ?_⟩
    · simp only [hover h, Bool.true_or]
    · simp only [hunder h, Bool.true_or]

end

/-! ## Vectors that do not overlap, under FLUSH_EACH -/

/-- What the first `k` elements of a run on words `x` and `y` have left. -/
structure ElementsDone (op : Word → Word → CC → Word × CC) (b1 : Word) (x y : Nat → Word) (t u : State) (k : Nat) :
    Prop where
  value     : ∀ l < k, u.peek (vectorAddress b1 l) = .ok (op (x l) (y l) t.cc).1 ∧
    u.cacheGet (t.phys (vectorAddress b1 l)) = some (op (x l) (y l) t.cc).1
  overflow  : u.cc.overflow = true ↔
    t.cc.overflow = true ∨ ∃ l < k, (op (x l) (y l) CC.clear).2.overflow = true
  underflow : u.cc.underflow = true ↔
    t.cc.underflow = true ∨ ∃ l < k, (op (x l) (y l) CC.clear).2.underflow = true

/-- A disjunction over the first `k + 1` numbers. -/
theorem or_exists_lt_succ {p : Prop} {k : Nat} {f : Nat → Prop} :
    (p ∨ ∃ l < k + 1, f l) ↔ (p ∨ ∃ l < k, f l) ∨ f k := by
  rw [Nat.exists_lt_succ_right, or_assoc]

theorem vectorStates_elementsDone {op : Word → Word → CC → Word × CC} {b1 b2 : Word} {t : State} {n : Nat}
    {x y : Nat → Word} (hop : ElementOp op) (h1 : ∀ k < n, t.peek (vectorAddress b1 k) = .ok (x k))
    (h2 : ∀ k < n, t.peek (vectorAddress b2 k) = .ok (y k)) (hf : t.cfg.wbPolicy = .flushEach)
    (hdisjoint : ∀ k < n, ∀ l < n, t.phys (vectorAddress b1 k) ≠ t.phys (vectorAddress b2 l)) {k : Nat}
    (hk : k ≤ n) : ElementsDone op b1 x y t (vectorStates op b1 b2 t k) k := by
  have hr1 : ∀ k < n, ∃ v, t.peek (vectorAddress b1 k) = .ok v := fun l hl => ⟨_, h1 l hl⟩
  have hr2 : ∀ k < n, ∃ v, t.peek (vectorAddress b2 k) = .ok v := fun l hl => ⟨_, h2 l hl⟩
  have hinj := vectorAddress_injective t b1 n hr1
  induction k with
  | zero => exact ⟨fun l hl => absurd hl (Nat.not_lt_zero l), by simp [vectorStates], by simp [vectorStates]⟩
  | succ k ih =>
    obtain ⟨hvalue, hover, hunder⟩ := ih (by omega)
    obtain ⟨v1, v2, p, hv1, hv2, hp, hcc, hstep⟩ := vectorStates_succ (op := op) hr1 hr2 hk
    have hx : v1 = x k := Except.ok.inj (hv1.symm.trans (vectorStates_peek_untouched hr1 hr2 hf (by omega)
      (fun l hl => hinj l (by omega) k hk (by omega)) (h1 k hk)))
    have hy : v2 = y k := Except.ok.inj (hv2.symm.trans (vectorStates_peek_untouched hr1 hr2 hf (by omega)
      (fun l hl => hdisjoint l (by omega) k hk) (h2 k hk)))
    subst hx hy
    have hphys : ∀ a, (vectorStates op b1 b2 t (k + 1)).phys a = t.phys a :=
      (vectorStates_frame op b1 b2 t n hr1 hr2 (k + 1) hk).phys
    simp only [hop.result (x k) (y k) _ t.cc] at hstep
    refine ⟨fun l hl => ?_, ?_, ?_⟩
    · obtain ⟨q, hq, hlt, -⟩ := peek_ok_iff.mp (h1 l (by omega))
      obtain ⟨hmem, hcache⟩ := hstep hf q
      rw [peek_ok_iff, hphys, hq, cacheGet_natCast, hcache]
      by_cases hlk : l = k
      · subst hlk
        have hpq : q = p := by omega
        rw [if_pos hpq]
        exact ⟨⟨q, rfl, hlt, by rw [hmem, if_pos hpq]⟩, rfl⟩
      · have hpq : q ≠ p := by
          rintro rfl
          exact hinj l (by omega) k hk hlk (hq.trans hp.symm)
        obtain ⟨hpeek, hget⟩ := hvalue l (by omega)
        obtain ⟨q', hq', -, hread⟩ := peek_ok_iff.mp hpeek
        rw [(vectorStates_frame op b1 b2 t n hr1 hr2 k (by omega)).phys, hq, Nat.cast_inj] at hq'
        subst hq'
        rw [hq, cacheGet_natCast] at hget
        rw [if_neg hpq]
        exact ⟨⟨q, rfl, hlt, by rw [hmem, if_neg hpq, hread]⟩, hget⟩
    · rw [hcc, hop.flags, or_exists_lt_succ, ← hover]
      exact Bool.or_eq_true_iff
    · rw [hcc, hop.flags, or_exists_lt_succ, ← hunder]
      exact Bool.or_eq_true_iff

end Sys2Proof.Machine
end

section
/-! PROOFS. VADD and VSUB as whole instructions (`47_float_vector.md` section 4). -/

open Sys2Proof Sys2Proof.Machine

namespace Sys2Proof.Machine

/-! ## The state in which the first element starts -/

theorem prepared_eq_operandRead (s : State) (row : DecodeRow) (ea w : Word) :
    s.prepared row ea w = (s.setFlags row false).operandRead ea w := rfl

theorem VectorFrame.endCycle {t u : State} (h : VectorFrame t u) (n : Word) :
    u.endCycle n = { t.endCycle n with mem := u.mem, cache := u.cache, writeBuffer := u.writeBuffer, cc := u.cc } := by
  conv_lhs => rw [h]
  rfl

theorem VectorFrame.peek_error {s t : State} (h : VectorFrame s t) {a : Word} {k : FaultKind}
    (hp : s.peek a = .error k) : t.peek a = .error k := by
  unfold State.peek at *
  rw [h.phys]
  cases hb : boundsCheck (s.phys a) with
  | ok q => rw [hb] at hp; cases hp
  | error k' => rw [hb] at hp; exact hp

/-- A data update of one state that keeps the frame of a vector operation completes as in that state. -/
theorem complete_vector {s u : State} {row : DecodeRow} {ea w : Word} (ix : BitVec 2) (hruns : s.halted = false)
    (htarget : row.target = .none) (h : VectorFrame (s.prepared row ea w) u) :
    complete ix u = .ok () (u.endCycle s.cyc.nextPc) := by
  have hcyc : u.cyc = (s.prepared row ea w).cyc := by rw [h]
  have hhalt : u.halted = false := by
    rw [h]
    exact hruns
  rw [complete_none ix hhalt (by rw [hcyc]; exact htarget) (by rw [hcyc]; rfl), hcyc]
  rfl

/-- The state in which the first element of VADD and VSUB starts. -/
abbrev State.vectorStart (s : State) (fr : BitVec 2) (ea b1 : Word) : State :=
  (s.latchRs1 fr).prepared rowFloat ea b1

theorem vectorStart_peek (s : State) (fr : BitVec 2) (ea b1 : Word) : (s.vectorStart fr ea b1).peek = s.peek :=
  (prepared_peek _ _ _ _).trans (latchRs1_peek_eq s fr)

theorem vectorStart_endCycle (s : State) (fr : BitVec 2) (ea b1 n : Word) :
    (s.vectorStart fr ea b1).endCycle n = ((s.latchRs1 fr).operandRead ea b1).endCycle n :=
  dataUpdate_id.endCycle _ _ _ _ n

/-! ## The instruction around the loop -/

/-- `instr` is VADD or VSUB and `op` its operation on one element. -/
def IsVector (fr ix : BitVec 2) (i : Bool) (addr : BitVec 5) (instr : Instr)
    (op : Word → Word → CC → Word × CC) : Prop :=
  (instr = .vadd fr ix i addr ∧ op = aluAdd) ∨ (instr = .vsub fr ix i addr ∧ op = aluSubtract)

section
variable {s : State} {fr ix : BitVec 2} {j : FReg} {i : Bool} {addr : BitVec 5} {ea b1 b2 : Word} {instr : Instr}
  {op : Word → Word → CC → Word × CC}

theorem IsVector.elementOp (h : IsVector fr ix i addr instr op) : ElementOp op := by
  rcases h with ⟨-, rfl⟩ | ⟨-, rfl⟩
  · exact elementOp_aluAdd
  · exact elementOp_aluSubtract

theorem IsVector.exec (h : IsVector fr ix i addr instr op) (hj : fReg fr = some j) : exec instr s =
    cycle rowFloat true { ix := ix, indirect := i, addr := addr } (withFReg fr (vectorArith op))
      (s.latchRs1 fr) := by
  rw [← checkFloat_of_fReg hj]
  rcases h with ⟨rfl, rfl⟩ | ⟨rfl, rfl⟩ <;> rfl

/-- EXECUTE is the loop over the vectors at EA and EA + 1. -/
theorem withFReg_vectorArith (hj : fReg fr = some j) (hb2 : s.peek (nextWord ea) = .ok b2) :
    withFReg fr (vectorArith op) (s.vectorStart fr ea b1) =
      vectorLoop op b1 b2 (vectorLength s j) 0 (s.vectorStart fr ea b1) := by
  rw [withFReg_named hj, vectorArith, secondWord_prepared (s := s.latchRs1 fr) hb2, andThen_ok, prepared_mbr]
  rfl

/-- A loop whose elements can be read ends the cycle in the state that the last one leaves. -/
theorem exec_vector_completes (hvec : IsVector fr ix i addr instr op)
    (h : OperandReady s true true { ix := ix, indirect := i, addr := addr } ea b1) (hj : fReg fr = some j)
    (hb2 : s.peek (nextWord ea) = .ok b2)
    (h1 : ∀ k < vectorLength s j, ∃ v, (s.vectorStart fr ea b1).peek (vectorAddress b1 k) = .ok v)
    (h2 : ∀ k < vectorLength s j, ∃ v, (s.vectorStart fr ea b1).peek (vectorAddress b2 k) = .ok v) :
    exec instr s = .next ((vectorStates op b1 b2 (s.vectorStart fr ea b1)
      (vectorLength s j)).endCycle s.cyc.nextPc) := by
  have hloop := vectorLoop_states op b1 b2 _ (vectorLength s j) h1 h2 0 0 (Nat.zero_le _)
  have hframe := vectorStates_frame op b1 b2 _ (vectorLength s j) h1 h2 _ le_rfl
  have hexec := (withFReg_vectorArith (op := op) (b1 := b1) hj hb2).trans hloop
  rw [hvec.exec hj, cycle_ready (row := rowFloat) (h.latched fr) hexec,
    complete_vector (s := s.latchRs1 fr) ix h.runs rfl hframe, finish_ok]
  rfl

/-- A loop ends the cycle at the first element that cannot be read, in the state that the elements before it
leave. -/
theorem exec_vector_faults {m : Nat} {k : FaultKind} (hvec : IsVector fr ix i addr instr op)
    (h : OperandReady s true true { ix := ix, indirect := i, addr := addr } ea b1) (hj : fReg fr = some j)
    (hb2 : s.peek (nextWord ea) = .ok b2) (hm : m < vectorLength s j)
    (h1 : ∀ l < m, ∃ v, (s.vectorStart fr ea b1).peek (vectorAddress b1 l) = .ok v)
    (h2 : ∀ l < m, ∃ v, (s.vectorStart fr ea b1).peek (vectorAddress b2 l) = .ok v)
    (hk : (s.vectorStart fr ea b1).peek (vectorAddress b1 m) = .error k ∨
      ((∃ v, (s.vectorStart fr ea b1).peek (vectorAddress b1 m) = .ok v) ∧
        (s.vectorStart fr ea b1).peek (vectorAddress b2 m) = .error k)) :
    exec instr s = .next (faultEntry k ((vectorStates op b1 b2 (s.vectorStart fr ea b1)
      m).memfault k)) := by
  obtain ⟨rest, hrest⟩ : ∃ rest, vectorLength s j = m + (rest + 1) := ⟨vectorLength s j - m - 1, by omega⟩
  have hframe := vectorStates_frame op b1 b2 _ m h1 h2 m le_rfl
  have hloop := vectorLoop_states op b1 b2 _ m h1 h2 (rest + 1) 0 (Nat.zero_le _)
  have hfault := vectorElement_fault op (vectorAddress b1 m) (vectorAddress b2 m) k
    (vectorStates op b1 b2 (s.vectorStart fr ea b1) m)
    (hk.imp hframe.peek_error (And.imp (fun ⟨_, hv⟩ => hframe.peek hv) hframe.peek_error))
  have hexec := (withFReg_vectorArith (op := op) (b1 := b1) hj hb2).trans
    ((congrArg (vectorLoop op b1 b2 · 0 _) hrest).trans hloop)
  rw [vectorLoop] at hexec
  have hstop := hexec.trans (congrArg (fun r => Res.andThen r _) hfault)
  rw [hvec.exec hj, cycle_ready_fault (row := rowFloat) (h.latched fr) hstop]

end

/-- Settles O32. EXECUTE reaches the state that the last element leaves. -/
theorem vectorArithmeticReplacesTheFirstVector : Obligations.VectorArithmeticReplacesTheFirstVector := by
  intro s fr ix j i addr ea b1 b2 h hj hb2 x y hx hy instr op hvec
  have hop := IsVector.elementOp hvec
  rw [← vectorStart_peek s fr ea b1] at hx hy
  have h1 : ∀ k < vectorLength s j, ∃ v, (s.vectorStart fr ea b1).peek (vectorAddress b1 k) = .ok v :=
    fun k hk => ⟨_, hx k hk⟩
  have h2 : ∀ k < vectorLength s j, ∃ v, (s.vectorStart fr ea b1).peek (vectorAddress b2 k) = .ok v :=
    fun k hk => ⟨_, hy k hk⟩
  obtain ⟨hdivzero, hequal, hover, hunder⟩ := vectorStates_flags hop h1 h2 le_rfl
  have hframe := (vectorStates_frame op b1 b2 _ _ h1 h2 _ le_rfl).endCycle s.cyc.nextPc
  rw [vectorStart_endCycle] at hframe
  refine ⟨vectorStates op b1 b2 (s.vectorStart fr ea b1), _, prepared_eq_operandRead _ _ _ _,
    vectorStates_run op b1 b2 _ _ h1 h2, exec_vector_completes hvec h hj hb2 h1 h2, rfl, hframe, hdivzero, hequal,
    hover, hunder, fun hzero => ?_, fun hf => ⟨fun q hq => ?_, fun hdisjoint => ?_⟩⟩
  · rw [hzero]
    exact ⟨rfl, rfl, rfl, rfl⟩
  · exact vectorStates_untouched h1 h2 hf le_rfl hq
  · obtain ⟨hvalue, ho, hu⟩ := vectorStates_elementsDone hop hx hy hf hdisjoint le_rfl
    exact ⟨hvalue, ho, hu⟩

/-- Settles O33. EXECUTE stops in the state that the elements before the fault leave. -/
theorem vectorFaultKeepsEarlierElements : Obligations.VectorFaultKeepsEarlierElements := by
  intro s fr ix j i addr ea b1 b2 m k h hj hb2 hm x y hx hy hk instr op hvec
  have hop := IsVector.elementOp hvec
  rw [← vectorStart_peek s fr ea b1] at hx hy hk
  have h1 : ∀ l < m, ∃ v, (s.vectorStart fr ea b1).peek (vectorAddress b1 l) = .ok v := fun l hl => ⟨_, hx l hl⟩
  have h2 : ∀ l < m, ∃ v, (s.vectorStart fr ea b1).peek (vectorAddress b2 l) = .ok v := fun l hl => ⟨_, hy l hl⟩
  obtain ⟨hdivzero, hequal, hover, hunder⟩ := vectorStates_flags hop h1 h2 le_rfl
  refine ⟨vectorStates op b1 b2 (s.vectorStart fr ea b1), _, prepared_eq_operandRead _ _ _ _,
    vectorStates_run op b1 b2 _ _ h1 h2, rfl,
    exec_vector_faults hvec h hj hb2 hm h1 h2 (hk.imp_right (And.imp_left fun hv => ⟨_, hv⟩)),
    vectorStates_frame op b1 b2 _ _ h1 h2 _ le_rfl, hdivzero, hequal, hover, hunder, fun hzero => ?_,
    fun hf => ⟨fun q hq => ?_, fun hdisjoint => ?_⟩⟩
  · rw [hzero]
    exact ⟨rfl, rfl, rfl, rfl⟩
  · exact vectorStates_untouched h1 h2 hf le_rfl hq
  · obtain ⟨hvalue, ho, hu⟩ := vectorStates_elementsDone hop hx hy hf hdisjoint le_rfl
    exact ⟨fun l hl => (hvalue l hl).1, ho, hu⟩

end Sys2Proof.Machine
end

section
/-! PROOFS. What each write of the core leaves unchanged. The state is cut into parts, `Keeps W s t` says that
`t` differs from `s` in the internal registers, the latch, the flags of the cycle and the parts in `W` only, and
there is one rule for each write. -/

open Sys2Proof Sys2Proof.Machine

namespace Sys2Proof.Machine

/-- The parts of the state that an instruction may or may not write. `flags` is OVERFLOW and UNDERFLOW, `cache`
the cache with the write buffer, `io` the console and the wait for it. -/
inductive Part where
  | gpr
  | xr
  | fr
  | flags
  | equal
  | divzero
  | halted
  | cache
  | mem
  | io
  | pc
  | mfr

/-- `t` has of `s` every part outside `W`, and IR, the mode, the mark and the parameters. -/
structure Keeps (W : List Part) (s t : State) : Prop where
  gpr     : .gpr ∉ W → t.r0 = s.r0 ∧ t.r1 = s.r1 ∧ t.r2 = s.r2 ∧ t.r3 = s.r3
  xr      : .xr ∉ W → t.x1 = s.x1 ∧ t.x2 = s.x2 ∧ t.x3 = s.x3
  fr      : .fr ∉ W → t.fr0 = s.fr0 ∧ t.fr1 = s.fr1
  flags   : .flags ∉ W → t.cc.overflow = s.cc.overflow ∧ t.cc.underflow = s.cc.underflow
  equal   : .equal ∉ W → t.cc.equal = s.cc.equal
  divzero : .divzero ∉ W → t.cc.divzero = s.cc.divzero
  halted  : .halted ∉ W → t.halted = s.halted
  cache   : .cache ∉ W → t.cache = s.cache ∧ t.writeBuffer = s.writeBuffer
  mem     : .mem ∉ W → t.mem = s.mem
  io      : .io ∉ W → t.inputWait = s.inputWait ∧ t.consoleInput = s.consoleInput ∧ t.output = s.output
  pc      : .pc ∉ W → t.pc = s.pc
  mfr     : .mfr ∉ W → t.mfr = s.mfr
  fixed   : t.ir = s.ir ∧ t.runningUserProgram = s.runningUserProgram ∧ t.refused = s.refused ∧ t.cfg = s.cfg

namespace Keeps

variable {V W : List Part} {s t u : State}

theorem refl (W : List Part) (s : State) : Keeps W s s := by
  constructor <;> simp

theorem trans (h : Keeps W s t) (k : Keeps W t u) : Keeps W s u := by
  constructor
  case gpr => exact fun hW => by simp only [k.gpr hW, h.gpr hW, and_self]
  case xr => exact fun hW => by simp only [k.xr hW, h.xr hW, and_self]
  case fr => exact fun hW => by simp only [k.fr hW, h.fr hW, and_self]
  case flags => exact fun hW => by simp only [k.flags hW, h.flags hW, and_self]
  case equal => exact fun hW => (k.equal hW).trans (h.equal hW)
  case divzero => exact fun hW => (k.divzero hW).trans (h.divzero hW)
  case halted => exact fun hW => (k.halted hW).trans (h.halted hW)
  case cache => exact fun hW => by simp only [k.cache hW, h.cache hW, and_self]
  case mem => exact fun hW => (k.mem hW).trans (h.mem hW)
  case io => exact fun hW => by simp only [k.io hW, h.io hW, and_self]
  case pc => exact fun hW => (k.pc hW).trans (h.pc hW)
  case mfr => exact fun hW => (k.mfr hW).trans (h.mfr hW)
  case fixed => simp only [k.fixed, h.fixed, and_self]

theorem mono (h : Keeps V s t) (hVW : V ⊆ W) : Keeps W s t where
  gpr hW := h.gpr fun hp => hW (hVW hp)
  xr hW := h.xr fun hp => hW (hVW hp)
  fr hW := h.fr fun hp => hW (hVW hp)
  flags hW := h.flags fun hp => hW (hVW hp)
  equal hW := h.equal fun hp => hW (hVW hp)
  divzero hW := h.divzero fun hp => hW (hVW hp)
  halted hW := h.halted fun hp => hW (hVW hp)
  cache hW := h.cache fun hp => hW (hVW hp)
  mem hW := h.mem fun hp => hW (hVW hp)
  io hW := h.io fun hp => hW (hVW hp)
  pc hW := h.pc fun hp => hW (hVW hp)
  mfr hW := h.mfr fun hp => hW (hVW hp)
  fixed := h.fixed

/-! ## The internal registers, the latch and the cycle-scoped flags -/

theorem internal {mar mbr iar irr : Word} {rs1 : BitVec 2} {cyc : CycleFlags} {latch : Latch}
    (h : Keeps W s t) : Keeps W s { t with
      mar := mar, mbr := mbr, iar := iar, irr := irr, rs1 := rs1, cyc := cyc, memoryFault := latch } :=
  ⟨h.gpr, h.xr, h.fr, h.flags, h.equal, h.divzero, h.halted, h.cache, h.mem, h.io, h.pc, h.mfr, h.fixed⟩

theorem memfault (h : Keeps W s t) (k : FaultKind) : Keeps W s (t.memfault k) := h.internal

theorem raised (h : Keeps W s t) (k : FaultKind) :
    Keeps W s { t with cyc := { t.cyc with pendingFault := some k } } := h.internal

/-! ## The parts -/

theorem setGpr (h : Keeps W s t) (hW : .gpr ∈ W) (r : BitVec 2) (v : Word) : Keeps W s (t.setGpr r v) :=
  h.trans (by constructor <;> simp [hW])

theorem setXr (h : Keeps W s t) (hW : .xr ∈ W) (j : IxReg) (v : Word) : Keeps W s (t.setXr j v) :=
  h.trans (by constructor <;> simp [hW])

theorem setFr (h : Keeps W s t) (hW : .fr ∈ W) (f : FReg) (v : Word) : Keeps W s (t.setFr f v) :=
  h.trans (by constructor <;> simp [hW])

theorem setFlags (h : Keeps W s t) (hW : .flags ∈ W) {c : CC} (hequal : c.equal = t.cc.equal)
    (hdivzero : c.divzero = t.cc.divzero) : Keeps W s { t with cc := c } :=
  h.trans (by constructor <;> simp [hW, hequal, hdivzero])

theorem setEqual (h : Keeps W s t) (hW : .equal ∈ W) (b : Bool) :
    Keeps W s { t with cc := { t.cc with equal := b } } :=
  h.trans (by constructor <;> simp [hW])

theorem setDivzero (h : Keeps W s t) (hW : .divzero ∈ W) (b : Bool) :
    Keeps W s { t with cc := { t.cc with divzero := b } } :=
  h.trans (by constructor <;> simp [hW])

theorem halt (h : Keeps W s t) (hW : .halted ∈ W) : Keeps W s { t with halted := true } :=
  h.trans (by constructor <;> simp [hW])

theorem store (h : Keeps W s t) (hW : .mem ∈ W) (m : Memory) : Keeps W s { t with mem := m } :=
  h.trans (by constructor <;> simp [hW])

theorem cached (h : Keeps W s t) (hmem : .mem ∈ W) (hcache : .cache ∈ W) (p : Nat) (v : Word) :
    Keeps W s (wbPush { t with cache := cacheSet t.cache p v } p) := by
  rw [wbPush_frame]
  exact h.trans (by constructor <;> simp [hmem, hcache])

theorem print (h : Keeps W s t) (hW : .io ∈ W) (l : List Word) : Keeps W s { t with output := l } :=
  h.trans (by constructor <;> simp [hW])

theorem answer (h : Keeps W s t) (hW : .io ∈ W) (l : List Answer) (i : Option (BitVec 2)) :
    Keeps W s { t with consoleInput := l, inputWait := i } :=
  h.trans (by constructor <;> simp [hW])

theorem endCycle (h : Keeps W s t) (hW : .pc ∈ W) (n : Word) : Keeps W s (t.endCycle n) :=
  h.trans (by constructor <;> simp [hW])

theorem faultEntry (h : Keeps W s t) (hpc : .pc ∈ W) (hmem : .mem ∈ W) (hmfr : .mfr ∈ W) (k : FaultKind) :
    Keeps W s (faultEntry k t) :=
  h.trans (by constructor <;> simp [hpc, hmem, hmfr])

end Keeps

/-! ## The parts that an instruction writes -/

/-- The parts that an instruction may have written when it completes, besides PC (`10_state.md` sections 2, 3,
4, 6 and 8, `20_memory.md` section 3). -/
def partsWritten : Instr → List Part
  | .hlt => [.halted]
  | .ldr .. | .lda .. | .jsr .. | .rfs .. | .andr .. | .orr .. | .notr .. | .rrc .. | .chk .. => [.gpr]
  | .amr .. | .smr .. | .air .. | .sir .. | .sob .. | .mlt .. | .src .. => [.gpr, .flags]
  | .dvd .. => [.gpr, .divzero]
  | .trr .. => [.equal]
  | .jz .. | .jne .. | .jcc .. | .jma .. | .jge .. => []
  | .str .. => [.cache, .mem]
  | .stx .. | .stfr .. | .trap .. => [.mem]
  | .ldx .. => [.xr]
  | .ldfr .. => [.fr]
  | .fadd .. | .fsub .. => [.fr, .flags]
  | .vadd .. | .vsub .. => [.flags, .cache, .mem]
  | .cnvrt .. => [.gpr, .fr, .flags]
  | .inp .. => [.gpr, .io]
  | .out .. => [.io]

/-- The parts that an instruction may have written when it faults (`60_exceptions.md` R614). -/
def partsBeforeFault : Instr → List Part
  | .stfr .. => [.mem]
  | .vadd .. | .vsub .. => [.flags, .cache, .mem]
  | _ => []

theorem partsBeforeFault_subset (i : Instr) : partsBeforeFault i ⊆ partsWritten i := by
  cases i <;> simp [partsBeforeFault, partsWritten]

theorem partsBeforeFault_writable {i : Instr} {p : Part} (h : p ∈ partsBeforeFault i) : p ∈ [.flags, .cache, .mem] := by
  cases i <;> simp_all [partsBeforeFault]

end Sys2Proof.Machine
end

section
/-! PROOFS. What every instruction keeps: `exec` either completes, and has written the parts of `partsWritten`
only, or takes a fault in a state that has written those of `partsBeforeFault` only. -/

open Sys2Proof Sys2Proof.Machine

namespace Sys2Proof.Machine

/-! ## One cycle -/

/-- A state between two phases of the cycle of an instruction with these decode flags. -/
structure Phase (W : List Part) (row : DecodeRow) (trap : Bool) (s t : State) : Prop where
  keeps  : Keeps W s t
  target : t.cyc.target = row.target
  kind   : t.cyc.kind = row.kind
  trap   : t.cyc.trapTaken = trap

/-- How an instruction ends: it completes with the parts in `W` written, or it faults with those in `D`. -/
def EndsWithin (W D : List Part) (s t : State) : Prop :=
  Keeps (.pc :: W) s t ∨ ∃ k u, t = faultEntry k u ∧ Keeps D s u

section
variable {V W D : List Part} {row : DecodeRow} {trap : Bool} {s t u : State}

/-- A write that leaves the decode flags stays between the same two phases. -/
theorem Phase.write (h : Phase V row trap s t) (hu : Keeps W s u) (hcyc : u.cyc = t.cyc) : Phase W row trap s u :=
  ⟨hu, hcyc ▸ h.target, hcyc ▸ h.kind, hcyc ▸ h.trap⟩

theorem Phase.mono (h : Phase V row trap s t) (hVW : V ⊆ W) : Phase W row trap s t :=
  h.write (h.keeps.mono hVW) rfl

theorem Phase.setNextPc (h : Phase W row trap s t) (n : Word) : Phase W row trap s (t.setNextPc n) :=
  ⟨h.keeps.internal, h.target, h.kind, h.trap⟩

/-- The decode step and FETCH_OPERAND write internal registers only, and latch the decode flags. -/
theorem prepare_phase (row : DecodeRow) (trap valid : Bool) (f : OperandFields) (h : Keeps [] s t) :
    (prepare row trap valid f t).Ends (Phase [] row trap s) (Keeps D s) := by
  have hflags : Phase [] row trap s (t.setFlags row trap) := ⟨h.internal, rfl, rfl, rfl⟩
  unfold prepare decodeStep
  refine andThen_ends (P := Phase [] row trap s) ?_ fun _ u hu => ?_
  · split
    · exact hflags
    · exact (hflags.keeps.raised _).mono (List.nil_subset D)
  · unfold fetchOperand
    split
    · exact (hu.keeps.internal.memfault _).mono (List.nil_subset D)
    · split
      · exact (hu.keeps.internal.memfault _).mono (List.nil_subset D)
      · exact ⟨hu.keeps.internal, hu.target, hu.kind, hu.trap⟩

/-! ## The primitives -/

theorem getWord_phase (h : Phase W row trap s t) (hWD : W ⊆ D) (a : Word) :
    (getWord a t).Ends (Phase W row trap s) (Keeps D s) := by
  rw [getWord_eq]
  split
  · exact h
  · exact (h.keeps.memfault _).mono hWD

theorem insertWord_phase (h : Phase V row trap s t) (hVW : V ⊆ W) (hVD : V ⊆ D) (hmem : .mem ∈ W) (a v : Word) :
    (insertWord a v t).Ends (Phase W row trap s) (Keeps D s) := by
  rw [insertWord_eq]
  split
  · exact h.write ((h.keeps.mono hVW).store hmem _) rfl
  · exact (h.keeps.memfault _).mono hVD

theorem cachedInsert_phase (h : Phase V row trap s t) (hVW : V ⊆ W) (hVD : V ⊆ D) (hmem : .mem ∈ W)
    (hcache : .cache ∈ W) (a v : Word) : (cachedInsert a v t).Ends (Phase W row trap s) (Keeps D s) := by
  rw [cachedInsert_eq]
  split
  · exact h.write ((h.keeps.mono hVW).cached hmem hcache _ _) (wbPush_cyc _ _)
  · exact (h.keeps.memfault _).mono hVD

/-- What follows EXECUTE: DEPOSIT writes the target, and ADVANCE_PC cannot fault without a trap. -/
theorem complete_endsWithin (ix : BitVec 2) (h : Phase V row false s t) (hVW : V ⊆ W)
    (hdep : (deposit ix t).Ends (Phase W row false s) (Keeps D s)) :
    (complete ix t).Ends (Keeps (.pc :: W) s) (Keeps D s) := by
  unfold complete
  split
  · exact h.keeps.mono (List.subset_cons_of_subset _ hVW)
  · refine andThen_ends hdep fun _ u hu => ?_
    rw [advancePc, if_neg (by rw [hu.trap]; exact Bool.false_ne_true)]
    exact (hu.keeps.mono (List.subset_cons_self _ _)).endCycle (by simp) _

theorem finish_endsWithin {r : Res Unit} (h : r.Ends (Keeps (.pc :: W) s) (Keeps D s)) :
    NextHas (finish r) (EndsWithin W D s) :=
  finish_ends h (fun _ => .inl) fun k u hu => .inr ⟨k, u, rfl, hu⟩

/-- A cycle whose EXECUTE writes `V` and whose DEPOSIT brings this to `W`. -/
theorem cycle_endsWithin {valid : Bool} {f : OperandFields} {execute : State → Res Unit} (h : Keeps [] s t)
    (hVW : V ⊆ W) (hexec : ∀ u, Phase [] row false s u → (execute u).Ends (Phase V row false s) (Keeps D s))
    (hdep : ∀ u, Phase V row false s u → (deposit f.ix u).Ends (Phase W row false s) (Keeps D s)) :
    NextHas (cycle row valid f execute t) (EndsWithin W D s) := by
  refine finish_endsWithin (andThen_ends (prepare_phase row false valid f h) fun _ u hu => ?_)
  exact andThen_ends (hexec u hu) fun _ v hv => complete_endsWithin f.ix hv hVW (hdep v hv)

/-! ## DEPOSIT (`40_cycle.md` R216) -/

theorem deposit_none_phase (ix : BitVec 2) (htarget : row.target = .none) (h : Phase W row trap s t) :
    (deposit ix t).Ends (Phase W row trap s) (Keeps D s) := by
  rw [deposit_none ix (h.target.trans htarget)]
  exact h

theorem deposit_gpr_phase (ix : BitVec 2) (htarget : row.target = .register) (hkind : row.kind = .gpr)
    (h : Phase W row trap s t) (hW : .gpr ∈ W) : (deposit ix t).Ends (Phase W row trap s) (Keeps D s) := by
  unfold deposit
  rw [h.target, h.kind, htarget, hkind]
  exact h.write (h.keeps.setGpr hW _ _) rfl

theorem deposit_ldx_phase (ix : BitVec 2) (h : Phase [] rowLoadIndex false s t) :
    (deposit ix t).Ends (Phase [.xr] rowLoadIndex false s) (Keeps [] s) := by
  unfold deposit
  rw [h.target, h.kind]
  show Res.Ends (match ixReg ix with | some x => _ | none => _) _ _
  split
  · exact h.write ((h.keeps.mono (List.nil_subset _)).setXr (by simp) _ _) rfl
  · exact h.keeps.raised _

theorem deposit_str_phase (ix : BitVec 2) (h : Phase [] rowStore false s t) :
    (deposit ix t).Ends (Phase [.cache, .mem] rowStore false s) (Keeps [] s) := by
  unfold deposit
  rw [h.target, h.kind]
  exact cachedInsert_phase h (List.nil_subset _) (List.nil_subset _) (by simp) (by simp) _ _

theorem deposit_stx_phase (ix : BitVec 2) (h : Phase [] rowStoreIndex false s t) :
    (deposit ix t).Ends (Phase [.mem] rowStoreIndex false s) (Keeps [] s) := by
  unfold deposit
  rw [h.target, h.kind]
  exact insertWord_phase h (List.nil_subset _) (List.nil_subset _) (by simp) _ _

theorem deposit_ldfr_phase (ix : BitVec 2) (h : Phase [] rowLoadFloat false s t) :
    (deposit ix t).Ends (Phase [.fr] rowLoadFloat false s) (Keeps [] s) := by
  unfold deposit
  rw [h.target, h.kind]
  show Res.Ends (match fReg t.rs1 with | some f => _ | none => _) _ _
  split
  · refine andThen_ends (getWord_phase h (List.nil_subset _) _) fun _ u hu => ?_
    refine andThen_ends (getWord_phase hu (List.nil_subset _) _) fun _ v hv => ?_
    exact hv.write ((hv.keeps.mono (List.nil_subset _)).setFr (by simp) _ _) rfl
  · exact h.keeps.raised _

theorem deposit_stfr_phase (ix : BitVec 2) (h : Phase [] rowStoreFloat false s t) :
    (deposit ix t).Ends (Phase [.mem] rowStoreFloat false s) (Keeps [.mem] s) := by
  unfold deposit
  rw [h.target, h.kind]
  show Res.Ends (match fReg t.rs1 with | some f => _ | none => _) _ _
  split
  · refine andThen_ends (insertWord_phase (W := [.mem]) h (List.nil_subset _) (List.nil_subset _) (by simp) _ _)
      fun _ u hu => ?_
    exact insertWord_phase hu (List.Subset.refl _) (List.Subset.refl _) (by simp) _ _
  · exact (h.keeps.raised _).mono (List.nil_subset _)

/-! ## Cycles by where they write -/

/-- An instruction without a target writes what its EXECUTE writes. -/
theorem cycle_none_endsWithin {valid : Bool} {f : OperandFields} {execute : State → Res Unit} (h : Keeps [] s t)
    (htarget : row.target = .none)
    (hexec : ∀ u, Phase [] row false s u → (execute u).Ends (Phase W row false s) (Keeps D s)) :
    NextHas (cycle row valid f execute t) (EndsWithin W D s) :=
  cycle_endsWithin h (List.Subset.refl W) hexec fun _ hu => deposit_none_phase f.ix htarget hu

/-- An instruction whose target is a general register writes what its EXECUTE writes and this register. -/
theorem cycle_gpr_endsWithin {valid : Bool} {f : OperandFields} {execute : State → Res Unit} (h : Keeps [] s t)
    (htarget : row.target = .register) (hkind : row.kind = .gpr) (hW : .gpr ∈ W)
    (hexec : ∀ u, Phase [] row false s u → (execute u).Ends (Phase W row false s) (Keeps D s)) :
    NextHas (cycle row valid f execute t) (EndsWithin W D s) :=
  cycle_endsWithin h (List.Subset.refl W) hexec fun _ hu => deposit_gpr_phase f.ix htarget hkind hu hW

/-- Any other instruction writes in DEPOSIT only. -/
theorem cycle_deposit_endsWithin {valid : Bool} {f : OperandFields} {execute : State → Res Unit} (h : Keeps [] s t)
    (hexec : ∀ u, Phase [] row false s u → (execute u).Ends (Phase [] row false s) (Keeps D s))
    (hdep : ∀ u, Phase [] row false s u → (deposit f.ix u).Ends (Phase W row false s) (Keeps D s)) :
    NextHas (cycle row valid f execute t) (EndsWithin W D s) :=
  cycle_endsWithin h (List.nil_subset W) hexec hdep

end

end Sys2Proof.Machine
end

section
/-! PROOFS. EXECUTE of every instruction writes no more than `partsWritten` and, before a fault, no more than
`partsBeforeFault`; so does the whole instruction. -/

open Sys2Proof Sys2Proof.Machine

namespace Sys2Proof.Machine

/-! ## The flags that the ALU leaves alone -/

theorem aluMultiply_keeps (m : MltHalf) (a b : Word) (c : CC) :
    (aluMultiply m a b c).2.equal = c.equal ∧ (aluMultiply m a b c).2.divzero = c.divzero := by
  cases m <;> exact ⟨rfl, rfl⟩

theorem aluShift_keeps (v : Word) (n : BitVec 4) (left arith : Bool) (c : CC) :
    (aluShift v n left arith c).2.equal = c.equal ∧ (aluShift v n left arith c).2.divzero = c.divzero := by
  unfold aluShift
  dsimp only
  split_ifs <;> exact ⟨rfl, rfl⟩

theorem ElementOp.keeps {op : Word → Word → CC → Word × CC} (h : ElementOp op) (a b : Word) (c : CC) :
    (op a b c).2.equal = c.equal ∧ (op a b c).2.divzero = c.divzero := by
  rw [h.flags]
  exact ⟨rfl, rfl⟩

/-! ## EXECUTE -/

section
variable {V W D : List Part} {row : DecodeRow} {trap : Bool} {s t : State}

theorem Phase.setIrr (h : Phase W row trap s t) (v : Word) : Phase W row trap s (t.setIrr v) :=
  h.write h.keeps.internal rfl

theorem Phase.setGpr (h : Phase W row trap s t) (hW : .gpr ∈ W) (r : BitVec 2) (v : Word) :
    Phase W row trap s (t.setGpr r v) := h.write (h.keeps.setGpr hW r v) rfl

theorem Phase.setFr (h : Phase W row trap s t) (hW : .fr ∈ W) (f : FReg) (v : Word) :
    Phase W row trap s (t.setFr f v) := h.write (h.keeps.setFr hW f v) rfl

theorem Phase.setFlags (h : Phase W row trap s t) (hW : .flags ∈ W) {c : CC}
    (hc : c.equal = t.cc.equal ∧ c.divzero = t.cc.divzero) : Phase W row trap s { t with cc := c } :=
  h.write (h.keeps.setFlags hW hc.1 hc.2) rfl

theorem Phase.setEqual (h : Phase W row trap s t) (hW : .equal ∈ W) (b : Bool) :
    Phase W row trap s { t with cc := { t.cc with equal := b } } := h.write (h.keeps.setEqual hW b) rfl

theorem Phase.setDivzero (h : Phase W row trap s t) (hW : .divzero ∈ W) (b : Bool) :
    Phase W row trap s { t with cc := { t.cc with divzero := b } } := h.write (h.keeps.setDivzero hW b) rfl

theorem Phase.halt (h : Phase W row trap s t) (hW : .halted ∈ W) : Phase W row trap s { t with halted := true } :=
  h.write (h.keeps.halt hW) rfl

theorem Phase.print (h : Phase W row trap s t) (hW : .io ∈ W) (l : List Word) :
    Phase W row trap s { t with output := l } := h.write (h.keeps.print hW l) rfl

theorem Phase.answered (h : Phase W row trap s t) (hgpr : .gpr ∈ W) (hio : .io ∈ W) (r : BitVec 2)
    (rest : List Answer) (v : Word) : Phase W row trap s (t.answered r rest v) :=
  h.write ((h.keeps.answer hio rest none).setGpr hgpr r v) rfl

theorem aluToIrr_phase {op : Word → Word → CC → Word × CC} (hop : ElementOp op) (b : State → Word)
    (h : Phase W row trap s t) (hW : .flags ∈ W) : (aluToIrr op b t).Ends (Phase W row trap s) (Keeps D s) :=
  (h.setIrr (op (t.gpr t.rs1) (b t) t.cc).1).setFlags hW (hop.keeps (t.gpr t.rs1) (b t) t.cc)

theorem jumpIf_phase (taken : State → Bool) (h : Phase W row trap s t) :
    (jumpIf taken t).Ends (Phase W row trap s) (Keeps D s) := by
  unfold jumpIf
  split
  · exact h.setNextPc _
  · exact h

theorem withFReg_phase (fr : BitVec 2) {m : FReg → State → Res Unit} (h : Phase [] row trap s t)
    (hm : ∀ f, (m f t).Ends (Phase W row trap s) (Keeps D s)) :
    (withFReg fr m t).Ends (Phase W row trap s) (Keeps D s) := by
  unfold withFReg
  split
  · exact hm _
  · exact (h.keeps.raised _).mono (List.nil_subset D)

theorem floatArith_phase (op : ExactReal → ExactReal → ExactReal) (f : FReg) (h : Phase [] row trap s t) :
    (floatArith op f t).Ends (Phase [.fr, .flags] row trap s) (Keeps D s) :=
  andThen_ends (getWord_phase h (List.nil_subset D) _) fun _ u hu =>
    ((hu.mono (List.nil_subset _)).setFr (by simp) f _).setFlags (by simp) (encodeReal_keeps _ _ _).symm

theorem cnvrtExecute_phase (r : BitVec 2) (h : Phase [] row trap s t) :
    (cnvrtExecute r t).Ends (Phase [.gpr, .fr, .flags] row trap s) (Keeps D s) := by
  unfold cnvrtExecute
  split
  · exact andThen_ends (getWord_phase h (List.nil_subset D) _) fun _ u hu =>
      (hu.mono (List.nil_subset _)).setGpr (by simp) _ _
  · split
    · exact ((h.mono (List.nil_subset _)).setFr (by simp) _ _).setFlags (by simp) (encodeReal_keeps _ _ _).symm
    · exact (h.keeps.raised _).mono (List.nil_subset D)

/-! ### The element loop -/

section
variable {op : Word → Word → CC → Word × CC} (hop : ElementOp op)
  (hflags : .flags ∈ W) (hcache : .cache ∈ W) (hmem : .mem ∈ W)
include hop hflags hcache hmem

theorem vectorElement_phase (a1 a2 : Word) (h : Phase W row trap s t) :
    (vectorElement op a1 a2 t).Ends (Phase W row trap s) (Keeps W s) :=
  andThen_ends (getWord_phase h (List.Subset.refl W) _) fun _ _ hu =>
    andThen_ends (getWord_phase hu (List.Subset.refl W) _) fun _ _ hv =>
      cachedInsert_phase (hv.setFlags hflags (hop.keeps _ _ _)) (List.Subset.refl W) (List.Subset.refl W) hmem hcache
        _ _

theorem vectorLoop_phase (b1 b2 : Word) (n : Nat) : ∀ (i : Nat) (t : State), Phase W row trap s t →
    (vectorLoop op b1 b2 n i t).Ends (Phase W row trap s) (Keeps W s) := by
  induction n with
  | zero => exact fun _ _ h => h
  | succ n ih =>
    exact fun i t h => andThen_ends (vectorElement_phase hop hflags hcache hmem _ _ h) fun _ u hu => ih (i + 1) u hu

theorem vectorArith_phase (f : FReg) (h : Phase [] row trap s t) :
    (vectorArith op f t).Ends (Phase W row trap s) (Keeps W s) :=
  andThen_ends (getWord_phase h (List.nil_subset W) _) fun _ u hu =>
    vectorLoop_phase hop hflags hcache hmem _ _ _ 0 u (hu.mono (List.nil_subset W))

end

/-! ### TRAP and the devices -/

/-- After the save of TRAP its read by ADVANCE_PC succeeds. -/
theorem complete_saved_endsWithin {v : Word} {u : State} (h : Phase [.mem] rowPlain true s u)
    (hsave : insertWord 2 v t = .ok () u) : (complete 0 u).Ends (Keeps [.pc, .mem] s) (Keeps D s) := by
  obtain ⟨p, hp, rfl⟩ := insertWord_ok_iff.mp hsave
  unfold complete
  split
  · exact h.keeps.mono (List.subset_cons_self _ _)
  · rw [deposit_none 0 h.target, andThen_ok, advancePc, if_pos h.trap,
      getWord_ok ((peek_store hp).trans (if_pos rfl)), andThen_ok]
    exact (h.keeps.mono (List.subset_cons_self _ _)).endCycle (by simp) _

theorem exec_trap_endsWithin (code : BitVec 5) (s : State) :
    NextHas (exec (.trap code) s) (EndsWithin [.mem] [] s) := by
  refine finish_endsWithin (andThen_ends (prepare_phase rowPlain true true (plainFields code) (Keeps.refl [] s))
    fun _ t ht => ?_)
  split
  · exact ht.keeps.raised _
  · have hsaved := insertWord_phase (W := [.mem]) (D := []) ht (List.nil_subset _) (List.nil_subset _) (by simp) 2
      t.cyc.nextPc
    cases hsave : insertWord 2 t.cyc.nextPc t with
    | ok v u =>
      rw [hsave] at hsaved
      exact complete_saved_endsWithin hsaved hsave
    | fault k u =>
      rw [hsave] at hsaved
      exact hsaved

/-- A device instruction that does not wait writes what its EXECUTE has written. -/
theorem finish_device_endsWithin (h : Phase W rowPlain false s t) :
    NextHas (finish (complete 0 t)) (EndsWithin W D s) :=
  finish_endsWithin (complete_endsWithin 0 h (List.Subset.refl W) (deposit_none_phase 0 rfl h))

theorem deviceCycle_endsWithin {d : BitVec 5} {execute : State → Host.Outcome State Fault Refusal}
    (h : Keeps [] s t) (hexec : ∀ u, Phase [] rowPlain false s u → NextHas (execute u) (EndsWithin W D s)) :
    NextHas (deviceCycle d execute t) (EndsWithin W D s) := by
  have hprepare := prepare_phase (D := D) rowPlain false true (plainFields d) h
  unfold deviceCycle
  cases hr : prepare rowPlain false true (plainFields d) t with
  | ok v u =>
    rw [hr] at hprepare
    exact hexec u hprepare
  | fault k u =>
    rw [hr] at hprepare
    exact .inr ⟨k, u, rfl, hprepare⟩

theorem receiveInput_endsWithin (r : BitVec 2) (h : Phase [] rowPlain false s t) :
    NextHas (receiveInput r t) (EndsWithin [.gpr, .io] D s) := by
  have hio : Phase [.gpr, .io] rowPlain false s t := h.mono (List.nil_subset _)
  unfold receiveInput
  split
  · exact .inl ((hio.keeps.mono (List.subset_cons_self _ _)).answer (by simp) t.consoleInput _)
  · split
    · exact finish_device_endsWithin (hio.answered (by simp) (by simp) r _ _)
    · trivial

end

/-! ## The whole instruction -/

theorem keeps_latchRs1 (s : State) (r : BitVec 2) : Keeps [] s (s.latchRs1 r) := (Keeps.refl [] s).internal

/-- Every instruction completes with no more than `partsWritten` written, or faults with no more than
`partsBeforeFault`. -/
theorem exec_endsWithin (i : Instr) (s : State) :
    NextHas (exec i s) (EndsWithin (partsWritten i) (partsBeforeFault i) s) := by
  have hlatch := keeps_latchRs1 s
  have empty : ∀ {W : List Part} {row : DecodeRow} {t : State}, Phase [] row false s t → Phase W row false s t :=
    fun h => h.mono (List.nil_subset _)
  cases i with
  | hlt =>
    exact cycle_none_endsWithin (Keeps.refl [] s) rfl fun t ht =>
      (empty ht).halt (by simp [partsWritten])
  | ldr r ix i a =>
    exact cycle_gpr_endsWithin (hlatch r) rfl rfl (by simp [partsWritten]) fun t ht => (empty ht).setIrr _
  | lda r ix i a =>
    exact cycle_gpr_endsWithin (hlatch r) rfl rfl (by simp [partsWritten]) fun t ht => (empty ht).setIrr _
  | str r ix i a =>
    exact cycle_deposit_endsWithin (hlatch r) (fun t ht => ht.setIrr _) fun t ht => deposit_str_phase ix ht
  | amr r ix i a =>
    exact cycle_gpr_endsWithin (hlatch r) rfl rfl (by simp [partsWritten]) fun t ht =>
      aluToIrr_phase elementOp_aluAdd _ (empty ht) (by simp [partsWritten])
  | smr r ix i a =>
    exact cycle_gpr_endsWithin (hlatch r) rfl rfl (by simp [partsWritten]) fun t ht =>
      aluToIrr_phase elementOp_aluSubtract _ (empty ht) (by simp [partsWritten])
  | air r v =>
    exact cycle_gpr_endsWithin (hlatch r) rfl rfl (by simp [partsWritten]) fun t ht =>
      aluToIrr_phase elementOp_aluAdd _ (empty ht) (by simp [partsWritten])
  | sir r v =>
    exact cycle_gpr_endsWithin (hlatch r) rfl rfl (by simp [partsWritten]) fun t ht =>
      aluToIrr_phase elementOp_aluSubtract _ (empty ht) (by simp [partsWritten])
  | jz r ix i a => exact cycle_none_endsWithin (hlatch r) rfl fun t ht => jumpIf_phase _ ht
  | jne r ix i a => exact cycle_none_endsWithin (hlatch r) rfl fun t ht => jumpIf_phase _ ht
  | jcc c ix i a => exact cycle_none_endsWithin (hlatch c) rfl fun t ht => jumpIf_phase _ ht
  | jge r ix i a => exact cycle_none_endsWithin (hlatch r) rfl fun t ht => jumpIf_phase _ ht
  | jma ix i a => exact cycle_none_endsWithin (Keeps.refl [] s) rfl fun t ht => jumpIf_phase _ ht
  | jsr ix i a =>
    exact cycle_none_endsWithin (Keeps.refl [] s) rfl fun t ht =>
      ((empty ht).setGpr (by simp [partsWritten]) _ _).setNextPc _
  | rfs v =>
    exact cycle_none_endsWithin (Keeps.refl [] s) rfl fun t ht =>
      ((empty ht).setGpr (by simp [partsWritten]) _ _).setNextPc _
  | sob r ix i a =>
    exact cycle_none_endsWithin (hlatch r) rfl fun t ht => jumpIf_phase _
      (((empty ht).setGpr (by simp [partsWritten]) _ _).setFlags (by simp [partsWritten])
        (elementOp_aluSubtract.keeps _ _ _))
  | mlt rx ry =>
    exact cycle_none_endsWithin (hlatch rx) rfl fun t ht =>
      ((((empty ht).setGpr (by simp [partsWritten]) _ _).setGpr (by simp [partsWritten]) _ _).setFlags
        (by simp [partsWritten]) (aluMultiply_keeps _ _ _ _))
  | dvd rx ry =>
    refine cycle_none_endsWithin (hlatch rx) rfl fun t ht => ?_
    by_cases hzero : sval (t.gpr ry) = 0
    · rw [aluDivide_zero _ _ hzero]
      exact (empty ht).setDivzero (by simp [partsWritten]) true
    · rw [aluDivide_nonzero _ _ hzero]
      exact ((empty ht).setGpr (by simp [partsWritten]) _ _).setGpr (by simp [partsWritten]) _ _
  | trr rx ry =>
    exact cycle_none_endsWithin (hlatch rx) rfl fun t ht =>
      (empty ht).setEqual (by simp [partsWritten]) _
  | andr rx ry => exact cycle_none_endsWithin (hlatch rx) rfl fun t ht => (empty ht).setGpr (by simp [partsWritten]) _ _
  | orr rx ry => exact cycle_none_endsWithin (hlatch rx) rfl fun t ht => (empty ht).setGpr (by simp [partsWritten]) _ _
  | notr rx => exact cycle_none_endsWithin (hlatch rx) rfl fun t ht => (empty ht).setGpr (by simp [partsWritten]) _ _
  | trap code => exact exec_trap_endsWithin code s
  | src r al lr n =>
    exact cycle_none_endsWithin (hlatch r) rfl fun t ht =>
      ((empty ht).setGpr (by simp [partsWritten]) _ _).setFlags (by simp [partsWritten]) (aluShift_keeps _ _ _ _ _)
  | rrc r al lr n =>
    exact cycle_none_endsWithin (hlatch r) rfl fun t ht => (empty ht).setGpr (by simp [partsWritten]) _ _
  | fadd fr ix i a =>
    exact cycle_none_endsWithin (hlatch fr) rfl fun t ht => withFReg_phase fr ht fun f => floatArith_phase _ f ht
  | fsub fr ix i a =>
    exact cycle_none_endsWithin (hlatch fr) rfl fun t ht => withFReg_phase fr ht fun f => floatArith_phase _ f ht
  | vadd fr ix i a =>
    exact cycle_none_endsWithin (hlatch fr) rfl fun t ht => withFReg_phase fr ht fun f =>
      vectorArith_phase elementOp_aluAdd (by simp [partsWritten]) (by simp [partsWritten])
        (by simp [partsWritten]) f ht
  | vsub fr ix i a =>
    exact cycle_none_endsWithin (hlatch fr) rfl fun t ht => withFReg_phase fr ht fun f =>
      vectorArith_phase elementOp_aluSubtract (by simp [partsWritten]) (by simp [partsWritten])
        (by simp [partsWritten]) f ht
  | cnvrt r ix i a => exact cycle_none_endsWithin (hlatch r) rfl fun t ht => cnvrtExecute_phase r ht
  | ldx x i a =>
    exact cycle_deposit_endsWithin (Keeps.refl [] s) (fun t ht => ht.setIrr _) fun t ht => deposit_ldx_phase x ht
  | stx x i a =>
    refine cycle_deposit_endsWithin (Keeps.refl [] s) (fun t ht => ?_) fun t ht => deposit_stx_phase x ht
    split
    · exact ht.setIrr _
    · exact ht.keeps.raised _
  | ldfr fr ix i a =>
    exact cycle_deposit_endsWithin (hlatch fr) (fun t ht => ht.setIrr _) fun t ht => deposit_ldfr_phase ix ht
  | stfr fr ix i a =>
    exact cycle_deposit_endsWithin (hlatch fr) (fun t ht => withFReg_phase fr ht fun f => ht.setIrr _)
      fun t ht => deposit_stfr_phase ix ht
  | inp r d =>
    refine deviceCycle_endsWithin (hlatch r) fun t ht => ?_
    split
    · exact receiveInput_endsWithin r ht
    · split
      · exact finish_device_endsWithin (empty ht)
      · trivial
  | out r d =>
    refine deviceCycle_endsWithin (hlatch r) fun t ht => ?_
    split
    · exact finish_device_endsWithin ((empty ht).print (by simp [partsWritten]) _)
    · split
      · exact finish_device_endsWithin (empty ht)
      · trivial
  | chk r d =>
    refine deviceCycle_endsWithin (hlatch r) fun t ht => ?_
    split
    · exact finish_device_endsWithin ((empty ht).setGpr (by simp [partsWritten]) _ _)
    · trivial

end Sys2Proof.Machine
end

section
/-! PROOFS. Which instructions write which part of the state, and what a fault leaves behind
(`10_state.md`, `20_memory.md` section 3, `60_exceptions.md` R614). -/

open Sys2Proof Sys2Proof.Machine

namespace Sys2Proof.Machine

/-! ## Writers of a part -/

theorem Keeps.gpr_eq {W : List Part} {s t : State} (h : Keeps W s t) (hW : .gpr ∉ W) (g : BitVec 2) :
    t.gpr g = s.gpr g := by
  obtain ⟨h0, h1, h2, h3⟩ := h.gpr hW
  exact gpr_congr h0 h1 h2 h3 g

theorem Keeps.xr_eq {W : List Part} {s t : State} (h : Keeps W s t) (hW : .xr ∉ W) (x : IxReg) :
    t.xr x = s.xr x := by
  obtain ⟨h1, h2, h3⟩ := h.xr hW
  cases x <;> assumption

theorem Keeps.fr_eq {W : List Part} {s t : State} (h : Keeps W s t) (hW : .fr ∉ W) (f : FReg) :
    t.fr f = s.fr f := by
  obtain ⟨h0, h1⟩ := h.fr hW
  cases f <;> assumption

/-- Fault entry adds PC, MFR and the saved PC of location 5 to what an instruction writes. -/
theorem exec_keeps {i : Instr} {s t : State} (h : exec i s = .next t) :
    Keeps (.pc :: .mem :: .mfr :: partsWritten i) s t := by
  rcases (exec_endsWithin i s).of_next h with hdone | ⟨k, u, rfl, hfault⟩
  · exact hdone.mono (List.cons_subset_cons _ (List.subset_cons_of_subset _ (List.subset_cons_self _ _)))
  · have hsub : partsBeforeFault i ⊆ .pc :: .mem :: .mfr :: partsWritten i :=
      fun p hp => by simp [partsBeforeFault_subset i hp]
    exact (hfault.mono hsub).faultEntry (by simp) (by simp) (by simp) k

/-- Beside the instructions that write memory a step changes location 5 only. -/
theorem exec_keeps_mem {i : Instr} {s t : State} (h : exec i s = .next t) (hmem : .mem ∉ partsWritten i) {q : Nat}
    (hq : q ≠ 5) : readWord t.mem q = readWord s.mem q := by
  rcases (exec_endsWithin i s).of_next h with hdone | ⟨k, u, rfl, hfault⟩
  · rw [hdone.mem (by simp [hmem])]
  · rw [readWord_faultEntry, if_neg hq, hfault.mem fun hp => hmem (partsBeforeFault_subset i hp)]

theorem equal_written {i : Instr} (h : .equal ∈ partsWritten i) : ∃ rx ry, i = .trr rx ry := by
  cases i with
  | trr rx ry => exact ⟨rx, ry, rfl⟩
  | _ => simp [partsWritten] at h

theorem divzero_written {i : Instr} (h : .divzero ∈ partsWritten i) : ∃ rx ry, i = .dvd rx ry := by
  cases i with
  | dvd rx ry => exact ⟨rx, ry, rfl⟩
  | _ => simp [partsWritten] at h

theorem xr_written {i : Instr} (h : .xr ∈ partsWritten i) : ∃ x ind a, i = .ldx x ind a := by
  cases i with
  | ldx x ind a => exact ⟨x, ind, a, rfl⟩
  | _ => simp [partsWritten] at h

theorem fr_written {i : Instr} (h : .fr ∈ partsWritten i) :
    ∃ fr ix ind a, i = .ldfr fr ix ind a ∨ i = .fadd fr ix ind a ∨ i = .fsub fr ix ind a ∨ i = .cnvrt fr ix ind a := by
  cases i with
  | ldfr fr ix ind a => exact ⟨fr, ix, ind, a, .inl rfl⟩
  | fadd fr ix ind a => exact ⟨fr, ix, ind, a, .inr (.inl rfl)⟩
  | fsub fr ix ind a => exact ⟨fr, ix, ind, a, .inr (.inr (.inl rfl))⟩
  | cnvrt r ix ind a => exact ⟨r, ix, ind, a, .inr (.inr (.inr rfl))⟩
  | _ => simp [partsWritten] at h

theorem halted_written {i : Instr} (h : .halted ∈ partsWritten i) : i = .hlt := by
  cases i with
  | hlt => rfl
  | _ => simp [partsWritten] at h

theorem cache_written {i : Instr} (h : .cache ∈ partsWritten i) :
    ∃ r ix ind a, i = .str r ix ind a ∨ i = .vadd r ix ind a ∨ i = .vsub r ix ind a := by
  cases i with
  | str r ix ind a => exact ⟨r, ix, ind, a, .inl rfl⟩
  | vadd fr ix ind a => exact ⟨fr, ix, ind, a, .inr (.inl rfl)⟩
  | vsub fr ix ind a => exact ⟨fr, ix, ind, a, .inr (.inr rfl)⟩
  | _ => simp [partsWritten] at h

/-- Past the cache memory is written by STFR, STX and TRAP. -/
theorem mem_written {i : Instr} (h : .mem ∈ partsWritten i) : .cache ∈ partsWritten i ∨
    ∃ r ix ind a, i = .stfr r ix ind a ∨ i = .stx ix ind a ∨ i = .trap a := by
  cases i with
  | str r ix ind a => exact .inl (by simp [partsWritten])
  | vadd fr ix ind a => exact .inl (by simp [partsWritten])
  | vsub fr ix ind a => exact .inl (by simp [partsWritten])
  | stfr fr ix ind a => exact .inr ⟨fr, ix, ind, a, .inl rfl⟩
  | stx x ind a => exact .inr ⟨0, x, ind, a, .inr (.inl rfl)⟩
  | trap a => exact .inr ⟨0, 0, false, a, .inr (.inr rfl)⟩
  | _ => simp [partsWritten] at h

/-- Settles O58. Each part is written by the instructions of its writer lemma only, in a fault as well. -/
theorem writersOfFlagsIndexAndFloatRegisters : Obligations.WritersOfFlagsIndexAndFloatRegisters := by
  intro i s t h
  have hkeeps := exec_keeps h
  refine ⟨fun hi => hkeeps.equal ?_, fun hi => hkeeps.divzero ?_, fun hi => hkeeps.xr_eq ?_,
    fun hi => hkeeps.fr_eq ?_, fun hi => hkeeps.halted ?_⟩ <;>
    simp only [List.mem_cons, reduceCtorEq, false_or] <;> intro hp
  · obtain ⟨rx, ry, rfl⟩ := equal_written hp
    exact hi rx ry rfl
  · obtain ⟨rx, ry, rfl⟩ := divzero_written hp
    exact hi rx ry rfl
  · obtain ⟨x, ind, a, rfl⟩ := xr_written hp
    exact hi x ind a rfl
  · obtain ⟨fr, ix, ind, a, hwriter⟩ := fr_written hp
    obtain ⟨hldfr, hfadd, hfsub, hcnvrt⟩ := hi fr ix ind a
    simp only [hldfr, hfadd, hfsub, hcnvrt, or_self] at hwriter
  · exact hi (halted_written hp)

/-- Settles O59. None of the eighteen has the general registers among the parts it writes. -/
theorem otherInstructionsKeepGeneralRegisters : Obligations.OtherInstructionsKeepGeneralRegisters := by
  intro i s t r ix cc fr x rx ry ind a hi h
  have hgpr : .gpr ∉ partsWritten i := by
    simp only [List.mem_cons, List.not_mem_nil, or_false] at hi
    rcases hi with rfl | rfl | rfl | rfl | rfl | rfl | rfl | rfl | rfl | rfl | rfl | rfl | rfl | rfl | rfl | rfl |
      rfl | rfl <;> simp [partsWritten]
  exact (exec_keeps h).gpr_eq (by simp [hgpr])

/-- Settles O60. Fault entry adds location 5 to the parts an instruction writes. -/
theorem writersOfMemoryAndCache : Obligations.WritersOfMemoryAndCache := by
  intro i s t h hcached
  have hcache : .cache ∉ partsWritten i := by
    intro hp
    obtain ⟨r, ix, ind, a, hwriter⟩ := cache_written hp
    obtain ⟨hstr, hvadd, hvsub⟩ := hcached r ix ind a
    simp only [hstr, hvadd, hvsub, or_self] at hwriter
  obtain ⟨hc, hb⟩ := (exec_keeps h).cache (by simp [hcache])
  refine ⟨hc, hb, fun hstored q hq => exec_keeps_mem h (fun hp => ?_) hq⟩
  obtain ⟨r, ix, ind, a, hwriter⟩ := (mem_written hp).resolve_left hcache
  obtain ⟨hstfr, hstx, htrap⟩ := hstored r ix ind a
  simp only [hstfr, hstx, htrap, or_self] at hwriter

/-! ## Faults are precise -/

/-- The state in which an instruction faults, but for the parts that R614 lets it write. -/
theorem Keeps.precise {D : List Part} {s u : State} (h : Keeps D s u) (hD : D ⊆ [.flags, .cache, .mem]) :
    u = { s with
      rs1 := u.rs1, mar := u.mar, mbr := u.mbr, iar := u.iar, irr := u.irr, cyc := u.cyc,
      memoryFault := u.memoryFault, mem := u.mem, cache := u.cache, writeBuffer := u.writeBuffer,
      cc := u.cc } := by
  have hout : ∀ {p : Part}, p ∉ [Part.flags, .cache, .mem] → p ∉ D := fun hp hD' => hp (hD hD')
  have hgpr := h.gpr (hout (by simp))
  have hxr := h.xr (hout (by simp))
  have hfr := h.fr (hout (by simp))
  have hhalted := h.halted (hout (by simp))
  have hio := h.io (hout (by simp))
  have hpc := h.pc (hout (by simp))
  have hmfr := h.mfr (hout (by simp))
  have hfixed := h.fixed
  cases u
  simp_all

theorem Keeps.cc_eq {D : List Part} {s u : State} (h : Keeps D s u) (hflags : .flags ∉ D) (hequal : .equal ∉ D)
    (hdivzero : .divzero ∉ D) : u.cc = s.cc := by
  obtain ⟨ho, hu⟩ := h.flags hflags
  have he := h.equal hequal
  have hd := h.divzero hdivzero
  cases hc : u.cc
  cases hs : s.cc
  simp_all

theorem mem_beforeFault {i : Instr} (h : .mem ∈ partsBeforeFault i) :
    ∃ fr ix ind a, i = .stfr fr ix ind a ∨ i = .vadd fr ix ind a ∨ i = .vsub fr ix ind a := by
  cases i with
  | stfr fr ix ind a => exact ⟨fr, ix, ind, a, .inl rfl⟩
  | vadd fr ix ind a => exact ⟨fr, ix, ind, a, .inr (.inl rfl)⟩
  | vsub fr ix ind a => exact ⟨fr, ix, ind, a, .inr (.inr rfl)⟩
  | _ => simp [partsBeforeFault] at h

/-- Only the vector instructions leave more than memory behind a fault. -/
theorem beforeFault_of_not_vector {i : Instr}
    (h : ¬ ∃ fr ix ind a, i = .vadd fr ix ind a ∨ i = .vsub fr ix ind a) : partsBeforeFault i ⊆ [.mem] := by
  cases i with
  | vadd fr ix ind a => exact absurd ⟨fr, ix, ind, a, .inl rfl⟩ h
  | vsub fr ix ind a => exact absurd ⟨fr, ix, ind, a, .inr rfl⟩ h
  | stfr fr ix ind a => exact List.Subset.refl _
  | _ => exact List.nil_subset _

theorem faultEntry_mfr_update (k : FaultKind) (u : State) (m : BitVec 4) :
    faultEntry k { u with mfr := m } = faultEntry k u := rfl

/-- An instruction that takes a fault whatever MFR holds has written no more than `partsBeforeFault` by then:
it cannot have completed, since it would have kept an MFR of 0. -/
theorem exec_fault_keeps {i : Instr} {s : State} {k : FaultKind} {u : State}
    (h : ∀ m : BitVec 4, exec i { s with mfr := m } = .next (faultEntry k u)) :
    ∃ k' u', faultEntry k u = faultEntry k' u' ∧ Keeps (partsBeforeFault i) s u' := by
  rcases (exec_endsWithin i { s with mfr := 0 }).of_next (h 0) with hdone | ⟨k', u', heq, hfault⟩
  · have hmfr : (faultEntry k u).mfr = 0 := hdone.mfr (by cases i <;> simp [partsWritten])
    have hhot := mfrCode_toNat u.cfg k
    rw [show mfrCode u.cfg k = 0 from hmfr] at hhot
    exact absurd hhot.symm (by simp)
  · refine ⟨k', { u' with mfr := s.mfr }, heq.trans (faultEntry_mfr_update k' u' s.mfr).symm, ?_⟩
    exact ⟨hfault.gpr, hfault.xr, hfault.fr, hfault.flags, hfault.equal, hfault.divzero, hfault.halted, hfault.cache,
      hfault.mem, hfault.io, hfault.pc, fun _ => rfl, hfault.fixed⟩

/-- The vector of a fault with or without the bias. -/
theorem faultEntry_pc_vector {s u : State} (k : FaultKind) (hcfg : u.cfg = s.cfg) :
    (faultEntry k u).pc = s.pcOf (readWord (faultEntry k u).mem 1) ∨
      (faultEntry k u).pc = s.pcOf (wrap16 (sval (readWord (faultEntry k u).mem 1) + s.off)) := by
  have hpc : ∀ a, u.pcOf a = s.pcOf a := fun a => by rw [State.pcOf, State.pcOf, hcfg]
  have hoff : u.off = s.off := by rw [State.off, State.off, hcfg]
  have hbias : vectorBias u = 0 ∨ vectorBias u = (u.off : Int) := by
    unfold vectorBias
    split
    · split <;> simp
    · split <;> simp
    · simp
  rw [faultEntry_pc, hpc, ← hoff]
  rcases hbias with hzero | hbias
  · left
    rw [hzero, add_zero, wrap16_sval]
    rfl
  · right
    rw [hbias]
    rfl

/-- Settles O45. An instruction that faults whatever MFR holds faults with the parts of `partsBeforeFault`
written. -/
theorem faultsArePrecise : Obligations.FaultsArePrecise := by
  intro i s
  rcases exec_mfrFree i s with ⟨t, ht⟩ | ⟨k, u, hu⟩ | ⟨r, hr⟩
  · left
    intro m t' ht'
    rw [ht m] at ht'
    cases ht'
    rfl
  · right
    obtain ⟨k', u', heq, hkeeps⟩ := exec_fault_keeps hu
    have hout : ∀ {p : Part}, p ∉ [Part.flags, .cache, .mem] → p ∉ partsBeforeFault i :=
      fun hp h => hp (partsBeforeFault_writable h)
    have hpc := hkeeps.pc (hout (by simp))
    obtain ⟨-, -, -, hcfg⟩ := hkeeps.fixed
    refine ⟨k', u', _, (hu s.mfr).trans (congrArg _ heq), rfl, hkeeps.precise fun _ => partsBeforeFault_writable,
      fun hi => hkeeps.mem ?_, fun hi => ?_, ?_, ?_, rfl, rfl, faultEntry_pc_vector k' hcfg⟩
    · intro hp
      obtain ⟨fr, ix, ind, a, hwriter⟩ := mem_beforeFault hp
      obtain ⟨hstfr, hvadd, hvsub⟩ := hi fr ix ind a
      simp only [hstfr, hvadd, hvsub, or_self] at hwriter
    · have hnone : partsBeforeFault i ⊆ [.mem] := by
        refine beforeFault_of_not_vector fun hp => ?_
        obtain ⟨fr, ix, ind, a, hwriter⟩ := hp
        obtain ⟨hvadd, hvsub⟩ := hi fr ix ind a
        simp only [hvadd, hvsub, or_self] at hwriter
      have hmem : ∀ {p : Part}, p ∉ [Part.mem] → p ∉ partsBeforeFault i := fun hp h => hp (hnone h)
      obtain ⟨hc, hb⟩ := hkeeps.cache (hmem (by simp))
      exact ⟨hc, hb, hkeeps.cc_eq (hmem (by simp)) (hmem (by simp)) (hmem (by simp))⟩
    · rw [faultEntry_mfr, hcfg]
    · rw [readWord_faultEntry, if_pos rfl, hpc]
  · left
    intro m t ht
    rw [hr m] at ht
    cases ht

end Sys2Proof.Machine
end
